-- ==== Sys2Proof/Word.lean ====
section
/-! DEFINITION. The register-file word, the two operand formats and the encodings of an operand in a format
(spec 00_scope.md R7, 10_state.md R20, R23, 40_numerics.md R140). -/

namespace Sys2Proof

/-- A register-file word: 32 bits (R7, R20). -/
abbrev Word := BitVec 32

/-- The two formats of an operand (R4a, R90). For a floating-point operand `sgl` is single and `dbl` is double;
for the integer side of a conversion `sgl` is the 32-bit word and `dbl` the 64-bit pair (R90, R280). -/
inductive Fmt where
  | sgl
  | dbl
deriving DecidableEq, Repr, Inhabited

/-- Storage width in bits: one word or two (R23, R140). -/
abbrev Fmt.width : Fmt → Nat
  | .sgl => 32
  | .dbl => 64

/-- An operand encoding of a format: an opaque bit pattern of the format's width (R142). -/
abbrev Enc (F : Fmt) := BitVec F.width

end Sys2Proof
end

