-- ==== Sys2Proof/Machine/Bits.lean ====
section
/-! DEFINITION. The bit-field primitives of 00_scope.md R10 and R11, in MSB-0 numbering: bit 0 is the most
significant bit of a 32-bit word and bit 31 the least significant. -/

namespace Sys2Proof

/-- `field(w, a, b) = (w >> (31 - b)) mod 2^(b - a + 1)` (R10). -/
def field (w : Word) (a b : Nat) : Nat := w.toNat / 2 ^ (31 - b) % 2 ^ (b - a + 1)

/-- `bit(w, b) = field(w, b, b)`, as a truth value (R93). -/
def bitAt (w : Word) (b : Nat) : Bool := w.getLsbD (31 - b)

/-- The word with ones at bits `start..start+len-1` and zeros elsewhere. -/
def fieldMask (start len : Nat) : Word :=
  ((BitVec.allOnes len).setWidth 32) <<< (32 - start - len)

/-- `extract(start, len, w)`: the field, zero-extended (R11). -/
def extract (start len : Nat) (w : Word) : Word := BitVec.ofNat 32 (field w start (start + len - 1))

/-- `signed_extract(start, len, w)`: the field, sign-extended to 32 bits (R11). -/
def signedExtract (start len : Nat) (w : Word) : Word :=
  (BitVec.ofNat len (field w start (start + len - 1))).signExtend 32

/-- `mask(start, len, w)`: every bit outside `start..start+len-1` cleared (R11). -/
def mask (start len : Nat) (w : Word) : Word := w &&& fieldMask start len

/-- `deposit(value, start, len, w)`: bits `start..start+len-1` of `w` replaced by the low `len` bits of `value` (R11). -/
def deposit (value : Word) (start len : Nat) (w : Word) : Word :=
  (w &&& ~~~ fieldMask start len) ||| ((value <<< (32 - start - len)) &&& fieldMask start len)

/-- One bit of `w` written: `deposit` of a one-bit value. -/
def putBit (b : Nat) (v : Bool) (w : Word) : Word := deposit (if v then 1 else 0) b 1 w

end Sys2Proof
end

