-- ==== Sys2Proof/Config.lean ====
section
/-! DEFINITION. What an implementation fixes and what the spec leaves open: the parameters of 00_scope.md R8, the
outcome and exception-type sets the parameters mention, and the free values (93_implementation_defined.md U1 to U20). -/

namespace Sys2Proof

/-- The FPU variant, a configuration argument of every dispatch (R8, R47). -/
inductive Variant where
  | pa11
  | pa20
deriving DecidableEq, Repr, Inhabited

/-- The outcome set of R330. The two composites are constructors of their own, so that no other combination
can be written. -/
inductive FpOutcome where
  | none
  | invalid
  | divByZero
  | overflow
  | underflow
  | inexact
  | unimplemented
  | overflowInexact
  | underflowInexact
deriving DecidableEq, Repr, Inhabited

/-- The kinds `k` of a fused-multiply-add compound code `FMA(k)` (R341). -/
inductive FmaKind where
  | invalid
  | overflow
  | underflow
  | inexact
  | overflowInexact
  | underflowInexact
deriving DecidableEq, Repr

/-- The exception types a slot's 6-bit code maps to (R341). -/
inductive ExcType where
  | none
  | unimplemented
  | invalid
  | divByZero
  | overflow
  | underflow
  | inexact
  | overflowInexact
  | underflowInexact
  | fma (k : FmaKind)
  | unrecognized
deriving DecidableEq, Repr, Inhabited

/-- The type a slot has after the decoder re-tags it with outcome `o` when its instruction has major opcode
`major`: `FMA(o)` for 0x2E and `o` not NONE, else `o` (R341). The table of R341 has no `FMA(DIV_BY_ZERO)`, and
UNIMPLEMENTED is terminal before any re-tag (R342): for those the rule states no type. -/
def retagType (o : FpOutcome) (major : Nat) : Option ExcType :=
  match o with
  | .none => some .none
  | .invalid => some (if major = 0x2E then .fma .invalid else .invalid)
  | .divByZero => if major = 0x2E then Option.none else some .divByZero
  | .overflow => some (if major = 0x2E then .fma .overflow else .overflow)
  | .underflow => some (if major = 0x2E then .fma .underflow else .underflow)
  | .inexact => some (if major = 0x2E then .fma .inexact else .inexact)
  | .overflowInexact => some (if major = 0x2E then .fma .overflowInexact else .overflowInexact)
  | .underflowInexact => some (if major = 0x2E then .fma .underflowInexact else .underflowInexact)
  | .unimplemented => Option.none

/-- The open parameters of the exception queue (R8, R41, R341; decisions D23, D24): how a slot word is read as a
6-bit code and an instruction word, how such a pair is written, what type a code has, and which code records an
outcome of an instruction with a given major opcode. -/
structure QueueParams where
  slotUnpack : Word → BitVec 6 × Word
  slotPack   : BitVec 6 → Word → Word
  excTypeOf  : BitVec 6 → ExcType
  codeOf     : FpOutcome → Nat → BitVec 6
deriving Inhabited

/-- The major opcode of an instruction word, its bits 0..5 (R80, R81). -/
def majorOf (iw : Word) : Nat := iw.toNat / 2 ^ 26

/-- What the rules say of the open queue parameters and nothing more: code 0 is NONE (R341), an all-zero slot word
unpacks to type NONE (R42), `slotPack` inverts `slotUnpack` (R42), a re-tagged slot keeps its instruction word
and has the new code (R42), and that code has the type of R341. -/
structure QueueParams.Lawful (p : QueueParams) : Prop where
  code_zero : p.excTypeOf 0 = .none
  slot_zero : p.excTypeOf (p.slotUnpack 0).1 = .none
  pack_unpack : ∀ w, p.slotPack (p.slotUnpack w).1 (p.slotUnpack w).2 = w
  retag_unpack : ∀ w o,
    p.slotUnpack (p.slotPack (p.codeOf o (majorOf (p.slotUnpack w).2)) (p.slotUnpack w).2)
      = (p.codeOf o (majorOf (p.slotUnpack w).2), (p.slotUnpack w).2)
  retag_type : ∀ o major ty, retagType o major = some ty → p.excTypeOf (p.codeOf o major) = ty

/-- Queue parameters that obey the rules. -/
abbrev LawfulQueueParams := { p : QueueParams // p.Lawful }

/-- A free choice of lawful queue parameters. It has no body: nothing can be proved of it but that it is lawful.
(The bracketed argument only shows Lean that lawful parameters exist; DESIGN CHOICE, log entry 6.) -/
opaque Config.freeQueueParams [Inhabited LawfulQueueParams] : LawfulQueueParams

/-- Free values (R13; U1 to U5): the n-th value the spec leaves open. No body: nothing constrains it. -/
opaque Config.draw : Nat → BitVec 64

/-- Outcome of a failed multiple instruction: a parameter, decided UNIMPLEMENTED (R8, R264, D18). -/
def Config.multiopFail : FpOutcome := .unimplemented

/-- The default NaN of an invalid operation without NaN operands (R8, R145, D10). -/
def Config.defaultNaN : (F : Fmt) → Enc F
  | .sgl => 0x7FA00000#32
  | .dbl => 0x7FF4000000000000#64

/-- The exponent adjustment of a wrapped result (R8, R160, D14). -/
def Config.wrap : Fmt → Nat
  | .sgl => 192
  | .dbl => 1536

/-- The returned 32-bit signal value (R8, R348, D25). -/
def Config.sigEncode (sig code : Nat) : Word := BitVec.ofNat 32 (sig * 2 ^ 24 + code)

/-- "No signal" (R348, D25). -/
def Config.noSignal : Word := 0

/-- Witness codec: the code is the top 6 bits of the slot word and the low 26 bits are the instruction's, whose major
opcode is taken to be 0x0C. It exists only to show that lawful parameters exist; the model never uses it. -/
def QueueParams.witness : QueueParams where
  slotUnpack w := (w.extractLsb' 26 6, 0x0C#6 ++ w.extractLsb' 0 26)
  slotPack c iw := c ++ iw.extractLsb' 0 26
  excTypeOf c := match c.toNat with
    | 0 => .none
    | 1 => .invalid
    | 2 => .divByZero
    | 3 => .overflow
    | 4 => .underflow
    | 5 => .inexact
    | 6 => .overflowInexact
    | 7 => .underflowInexact
    | 9 => .fma .invalid
    | 11 => .fma .overflow
    | 12 => .fma .underflow
    | 13 => .fma .inexact
    | 14 => .fma .overflowInexact
    | 15 => .fma .underflowInexact
    | _ => .unrecognized
  codeOf o major :=
    let base : BitVec 6 := if major = 0x2E then 8 else 0
    match o with
    | .none => 0
    | .invalid => base + 1
    | .divByZero => base + 2
    | .overflow => base + 3
    | .underflow => base + 4
    | .inexact => base + 5
    | .overflowInexact => base + 6
    | .underflowInexact => base + 7
    | .unimplemented => base + 8

theorem QueueParams.witness_lawful : QueueParams.witness.Lawful where
  code_zero := rfl
  slot_zero := by decide
  pack_unpack w := by
    apply BitVec.eq_of_getLsbD_eq
    intro i hi
    simp only [QueueParams.witness, BitVec.getLsbD_append, BitVec.getLsbD_extractLsb']
    by_cases h : i < 26
    · simp [h]
    · have h1 : 26 + (i - 26) = i := by omega
      have h2 : i - 26 < 6 := by omega
      simp [h, h1, h2]
  retag_unpack w o := by
    generalize hc : QueueParams.witness.codeOf o _ = c
    simp only [QueueParams.witness, Prod.mk.injEq]
    constructor
    · apply BitVec.eq_of_getLsbD_eq
      intro i hi
      simp only [BitVec.getLsbD_extractLsb', BitVec.getLsbD_append]
      simp [hi]
    · apply BitVec.eq_of_getLsbD_eq
      intro i hi
      simp only [BitVec.getLsbD_append, BitVec.getLsbD_extractLsb']
      by_cases h : i < 26 <;> simp [h]
  retag_type o major ty h := by
    by_cases hm : major = 0x2E
    · cases o <;> simp_all [retagType, QueueParams.witness]
    · cases o <;> simp_all [retagType, QueueParams.witness]

/-- The queue parameters of this machine: lawful, and otherwise unknown (R8, D23, D24). -/
def Config.queue : LawfulQueueParams :=
  @Config.freeQueueParams ⟨⟨QueueParams.witness, QueueParams.witness_lawful⟩⟩

end Sys2Proof
end

