-- ==== Sys2Proof/Syntax.lean ====
section
/-! DEFINITION. The instructions of the opcode table (30_encoding.md R100, spec/opcode_table.json). The table has one row for
each mnemonic, numbering format (0C or 0E), operand formats and variant; here each mnemonic is a constructor and the
rest of the row is its operands, so a row is one constructor applied to one `form` and format. -/

namespace Sys2Proof

/-- The two coprocessor numbering formats: 0C and 0E, the extended register numbering (R81 to R83). -/
inductive Form where
  | op0C
  | op0E
deriving DecidableEq, Repr

/-- A register field and its half-select bit (R87). A format without half bits has `half = false`. -/
structure RegSel where
  fld : Fin 32
  half : Bool
deriving DecidableEq, Repr

/-- Format of a move: single, double, or the quad form that the rules name and refuse (R96, R200). -/
inductive MoveFmt where
  | num (F : Fmt)
  | quad
deriving DecidableEq, Repr

/-- The two kernels of FCNVFF (R281, R282); equal formats are no instruction (R289). -/
inductive FloatConv where
  | sglToDbl
  | dblToSgl
deriving DecidableEq, Repr

/-- The instructions. Operand names are those of R82 to R86. -/
inductive Instr where
  /-- FCPY: class 0, sub 2 (R201). -/
  | fcpy (form : Form) (fmt : MoveFmt) (r t : RegSel)
  /-- FABS: class 0, sub 3 (R202). -/
  | fabs (form : Form) (fmt : MoveFmt) (r t : RegSel)
  /-- FSQRT: class 0, sub 4 (R226). -/
  | fsqrt (form : Form) (fmt : Fmt) (r t : RegSel)
  /-- FRND: class 0, sub 5 (R227). -/
  | frnd (form : Form) (fmt : Fmt) (r t : RegSel)
  /-- FNEG: class 0, sub 6 (R203). -/
  | fneg (form : Form) (fmt : MoveFmt) (r t : RegSel)
  /-- FNEGABS: class 0, sub 7 (R204). -/
  | fnegabs (form : Form) (fmt : MoveFmt) (r t : RegSel)
  /-- FCNVFF: class 1, sub 0 (R281, R282). -/
  | fcnvff (form : Form) (conv : FloatConv) (r t : RegSel)
  /-- FCNVXF: class 1, sub 1; `sf` is the integer's size, `df` the float's format (R283). -/
  | fcnvxf (form : Form) (sf df : Fmt) (r t : RegSel)
  /-- FCNVFX: class 1, sub 2; `sf` is the float's format, `df` the integer's size (R285). -/
  | fcnvfx (form : Form) (sf df : Fmt) (r t : RegSel)
  /-- FCNVFXT: class 1, sub 3 (R286). -/
  | fcnvfxt (form : Form) (sf df : Fmt) (r t : RegSel)
  /-- FCNVUF: class 1, sub 5, PA20 only (R284). -/
  | fcnvuf (form : Form) (sf df : Fmt) (r t : RegSel)
  /-- FCNVFU: class 1, sub 6, PA20 only (R287). -/
  | fcnvfu (form : Form) (sf df : Fmt) (r t : RegSel)
  /-- FCNVFUT: class 1, sub 7, PA20 only (R288). -/
  | fcnvfut (form : Form) (sf df : Fmt) (r t : RegSel)
  /-- FCMP: class 2; `y` is the sub-op field (nonzero only under PA20), `c` the condition (R311 to R313). -/
  | fcmp (form : Form) (fmt : Fmt) (r1 r2 : RegSel) (y : Fin 8) (c : Fin 32)
  /-- FTEST: class 2; `fmt` is its format field as extracted (R311, R315). -/
  | ftest (form : Form) (fmt : Fin 4)
  /-- FADD: class 3, sub 0 (R221). -/
  | fadd (form : Form) (fmt : Fmt) (r1 r2 t : RegSel)
  /-- FSUB: class 3, sub 1 (R222). -/
  | fsub (form : Form) (fmt : Fmt) (r1 r2 t : RegSel)
  /-- FMPY: class 3, sub 2 (R223). -/
  | fmpy (form : Form) (fmt : Fmt) (r1 r2 t : RegSel)
  /-- FDIV: class 3, sub 3 (R224). -/
  | fdiv (form : Form) (fmt : Fmt) (r1 r2 t : RegSel)
  /-- FREM: class 3, sub 4 (R225). -/
  | frem (form : Form) (fmt : Fmt) (r1 r2 t : RegSel)
  /-- XMPYU: 0E class 3, sub 2, x = 1 (R229). -/
  | xmpyu (fmt : Fmt) (r1 r2 t : RegSel)
  /-- FMPYADD: major 0x06 (R262). -/
  | fmpyadd (fmt : Fmt) (rm1 rm2 ta ra tm : Fin 32)
  /-- FMPYSUB: major 0x26 (R263). -/
  | fmpysub (fmt : Fmt) (rm1 rm2 ta ra tm : Fin 32)
  /-- FMPYFADD: major 0x2E, neg = 0 (R260). -/
  | fmpyfadd (fmt : Fmt) (rm1 rm2 ra t : RegSel)
  /-- FMPYNFADD: major 0x2E, neg = 1 (R261). -/
  | fmpynfadd (fmt : Fmt) (rm1 rm2 ra t : RegSel)
  /-- FID: the word 0x30000000 (R206). -/
  | fid
deriving DecidableEq, Repr

end Sys2Proof
end

