-- ==== Sys2Proof/WellFormed.lean ====
section
/-! DEFINITION. Which instructions the encoding of a variant can express (30_encoding.md R82 to R84, R87, R311). -/

namespace Sys2Proof

/-- A register operand of a coprocessor format: 0C has no half-select bits (R82, R87). -/
def RegSel.wf (form : Form) (r : RegSel) : Bool :=
  match form with
  | .op0C => !r.half
  | .op0E => true

/-- The unsigned conversions have sub-op values that only the 3-bit sub-op field of PA20 holds (R84, R284). -/
def Variant.hasUnsigned : Variant → Bool
  | .pa11 => false
  | .pa20 => true

/-- The FCMP `y` field: PA11 decodes class 2 with `y ≠ 0` as FTEST or nothing (R311). -/
def compareFieldWf (v : Variant) (y : Fin 8) : Bool :=
  match v with
  | .pa11 => y == 0
  | .pa20 => true

/-- The FTEST format field: two bits in 0C, one bit in 0E (R82, R83, R311). -/
def testFormatWf (form : Form) (fmt : Fin 4) : Bool :=
  match form with
  | .op0C => true
  | .op0E => fmt.val < 2

/-- Well-formedness of an instruction under a variant. -/
def Instr.wf (v : Variant) : Instr → Bool
  | .fcpy form _ r t => r.wf form && t.wf form
  | .fabs form _ r t => r.wf form && t.wf form
  | .fsqrt form _ r t => r.wf form && t.wf form
  | .frnd form _ r t => r.wf form && t.wf form
  | .fneg form _ r t => r.wf form && t.wf form
  | .fnegabs form _ r t => r.wf form && t.wf form
  | .fcnvff form _ r t => r.wf form && t.wf form
  | .fcnvxf form _ _ r t => r.wf form && t.wf form
  | .fcnvfx form _ _ r t => r.wf form && t.wf form
  | .fcnvfxt form _ _ r t => r.wf form && t.wf form
  | .fcnvuf form _ _ r t => v.hasUnsigned && r.wf form && t.wf form
  | .fcnvfu form _ _ r t => v.hasUnsigned && r.wf form && t.wf form
  | .fcnvfut form _ _ r t => v.hasUnsigned && r.wf form && t.wf form
  | .fcmp form _ r1 r2 y _ => compareFieldWf v y && r1.wf form && r2.wf form
  | .ftest form fmt => testFormatWf form fmt
  | .fadd form _ r1 r2 t => r1.wf form && r2.wf form && t.wf form
  | .fsub form _ r1 r2 t => r1.wf form && r2.wf form && t.wf form
  | .fmpy form _ r1 r2 t => r1.wf form && r2.wf form && t.wf form
  | .fdiv form _ r1 r2 t => r1.wf form && r2.wf form && t.wf form
  | .frem form _ r1 r2 t => r1.wf form && r2.wf form && t.wf form
  | .xmpyu _ _ _ _ => true
  | .fmpyadd _ _ _ _ _ _ => true
  | .fmpysub _ _ _ _ _ _ => true
  | .fmpyfadd _ _ _ _ _ => true
  | .fmpynfadd _ _ _ _ _ => true
  | .fid => true

end Sys2Proof
end

