-- ==== Sys2Proof/Decode.lean ====
section
/-! DEFINITION. The decoder of 30_encoding.md R80 to R101 with 43_fused_multi.md R260 and R264, total on every word, and
the encoder written from the same field tables (R82 to R86).

A word that is no instruction is rejected by name; the dispatcher returns UNIMPLEMENTED for it (R91). Forms the rules
REFUSE (R97, R98) are instructions here: their meanings refuse, after the destination test of R92. -/

namespace Sys2Proof

/-- Why a word is no instruction. Every one of these is the dispatcher's UNIMPLEMENTED (R93 to R96). -/
inductive Reject where
  /-- Major opcode other than 0x0C, 0x0E, 0x06, 0x26, 0x2E (R81, R93). -/
  | majorOpcode
  /-- An unassigned sub-op of a class (R94, R95, R100). -/
  | subOp
  /-- An illegal or quad format where the rules say UNIMPLEMENTED (R90, R96). -/
  | format
  /-- FCNVFF with equal formats (R289). -/
  | sameFormat
deriving DecidableEq, Repr

/-- A 2-bit format field that only names S and D; 2 and 3 are UNIMPLEMENTED (R90, R96). -/
def decodeFmt (n : Nat) : Except Reject Fmt :=
  match n with
  | 0 => .ok .sgl
  | 1 => .ok .dbl
  | _ => .error .format

/-- The format field of a move: 3 is the quad form (R94, R96). -/
def decodeMoveFmt (n : Nat) : Except Reject MoveFmt :=
  match n with
  | 0 => .ok (.num .sgl)
  | 1 => .ok (.num .dbl)
  | 3 => .ok .quad
  | _ => .error .format

/-- A 1-bit format field of 0E classes 2 and 3 and of 2E: 0 single, 1 double (R90). -/
def bitFmt (b : Bool) : Fmt := if b then .dbl else .sgl

/-- A 5-bit register field. -/
def regField (w : Word) (a b : Nat) : Fin 32 := Fin.ofNat 32 (field w a b)

/-- A register operand: the field at bits `a..b` and, in 0E, the half-select bit at bit `h` (R83, R87). -/
def decodeSel (form : Form) (w : Word) (a b h : Nat) : RegSel :=
  ⟨regField w a b, match form with
    | .op0C => false
    | .op0E => bitAt w h⟩

/-- The source at bits 6..10 with half bit 24 (R82, R83, R95). -/
def src1Sel (form : Form) (w : Word) : RegSel := decodeSel form w 6 10 24

/-- The source at bits 11..15 with half bit 19 (classes 2 and 3; R82, R83, R95). -/
def src2Sel (form : Form) (w : Word) : RegSel := decodeSel form w 11 15 19

/-- The destination at bits 27..31 with half bit 25 (R82, R83, R95). -/
def dstSel (form : Form) (w : Word) : RegSel := decodeSel form w 27 31 25

/-- Class 0: moves, square root, round (R94, R95). -/
def decodeClass0 (form : Form) (w : Word) : Except Reject Instr :=
  let r := src1Sel form w
  let t := dstSel form w
  let fmt := field w 19 20
  match field w 16 18 with
  | 2 => (decodeMoveFmt fmt).map fun F => .fcpy form F r t
  | 3 => (decodeMoveFmt fmt).map fun F => .fabs form F r t
  | 4 => (decodeFmt fmt).map fun F => .fsqrt form F r t
  | 5 => (decodeFmt fmt).map fun F => .frnd form F r t
  | 6 => (decodeMoveFmt fmt).map fun F => .fneg form F r t
  | 7 => (decodeMoveFmt fmt).map fun F => .fnegabs form F r t
  | _ => .error .subOp

/-- The class-1 sub-op: 3 bits under PA20, 2 bits under PA11 (R84). -/
def convSub (v : Variant) (w : Word) : Nat :=
  match v with
  | .pa20 => field w 14 16
  | .pa11 => field w 15 16

/-- The two kernels of FCNVFF by source and destination format (R94, R289). -/
def decodeFloatConv : Fmt → Fmt → Except Reject FloatConv
  | .sgl, .dbl => .ok .sglToDbl
  | .dbl, .sgl => .ok .dblToSgl
  | .sgl, .sgl => .error .sameFormat
  | .dbl, .dbl => .error .sameFormat

/-- Class 1: conversions (R94, R95). -/
def decodeClass1 (v : Variant) (form : Form) (w : Word) : Except Reject Instr := do
  let sf ← decodeFmt (field w 19 20)
  let df ← decodeFmt (field w 17 18)
  let r := src1Sel form w
  let t := dstSel form w
  match convSub v w with
  | 0 => (decodeFloatConv sf df).map fun c => .fcnvff form c r t
  | 1 => .ok (.fcnvxf form sf df r t)
  | 2 => .ok (.fcnvfx form sf df r t)
  | 3 => .ok (.fcnvfxt form sf df r t)
  | 5 => .ok (.fcnvuf form sf df r t)
  | 6 => .ok (.fcnvfu form sf df r t)
  | 7 => .ok (.fcnvfut form sf df r t)
  | _ => .error .subOp

/-- The format field of classes 2 and 3: bits 19..20 in 0C, bit 20 in 0E (R94, R95). -/
def fmtField (form : Form) (w : Word) : Nat :=
  match form with
  | .op0C => field w 19 20
  | .op0E => field w 20 20

/-- FCMP of class 2 (R311). -/
def decodeCompare (form : Form) (w : Word) : Except Reject Instr :=
  (decodeFmt (fmtField form w)).map fun F =>
    .fcmp form F (src1Sel form w) (src2Sel form w) (Fin.ofNat 8 (field w 16 18)) (regField w 27 31)

/-- FTEST of class 2 (R311, R315). -/
def decodeTest (form : Form) (w : Word) : Except Reject Instr :=
  .ok (.ftest form (Fin.ofNat 4 (fmtField form w)))

/-- Class 2: compare and test, selected by bit 26 under PA20 and by `y` under PA11 (R94, R311). -/
def decodeClass2 (v : Variant) (form : Form) (w : Word) : Except Reject Instr :=
  match v with
  | .pa20 => if bitAt w 26 then decodeTest form w else decodeCompare form w
  | .pa11 =>
    match field w 16 18 with
    | 0 => decodeCompare form w
    | 1 => decodeTest form w
    | _ => .error .subOp

/-- Class 3: arithmetic; in 0E bit 23 of sub 2 selects XMPYU (R94, R95). -/
def decodeClass3 (form : Form) (w : Word) : Except Reject Instr :=
  let r1 := src1Sel form w
  let r2 := src2Sel form w
  let t := dstSel form w
  let fmt := decodeFmt (fmtField form w)
  match field w 16 18 with
  | 0 => fmt.map fun F => .fadd form F r1 r2 t
  | 1 => fmt.map fun F => .fsub form F r1 r2 t
  | 2 =>
    match form with
    | .op0C => fmt.map fun F => .fmpy form F r1 r2 t
    | .op0E =>
      if bitAt w 23 then fmt.map fun F => .xmpyu F r1 r2 t
      else fmt.map fun F => .fmpy form F r1 r2 t
  | 3 => fmt.map fun F => .fdiv form F r1 r2 t
  | 4 => fmt.map fun F => .frem form F r1 r2 t
  | _ => .error .subOp

/-- Formats 0C and 0E (R94, R95). -/
def decodeCop (v : Variant) (form : Form) (w : Word) : Except Reject Instr :=
  match field w 21 22 with
  | 0 => decodeClass0 form w
  | 1 => decodeClass1 v form w
  | 2 => decodeClass2 v form w
  | _ => decodeClass3 form w

/-- The multiple instructions 06 and 26; `f = 0` is double, `f = 1` single (R85, R90, R264). -/
def decodeMulti (sub : Bool) (w : Word) : Except Reject Instr :=
  let F : Fmt := if bitAt w 26 then .sgl else .dbl
  let rm1 := regField w 6 10
  let rm2 := regField w 11 15
  let ta := regField w 16 20
  let ra := regField w 21 25
  let tm := regField w 27 31
  .ok (if sub then .fmpysub F rm1 rm2 ta ra tm else .fmpyadd F rm1 rm2 ta ra tm)

/-- The fused instructions 2E (R86, R260). -/
def decodeFused (w : Word) : Except Reject Instr :=
  let F := bitFmt (bitAt w 20)
  let rm1 : RegSel := ⟨regField w 6 10, bitAt w 24⟩
  let rm2 : RegSel := ⟨regField w 11 15, bitAt w 19⟩
  let ra : RegSel := ⟨Fin.ofNat 32 (field w 16 18 * 4 + field w 21 22), bitAt w 23⟩
  let t : RegSel := ⟨regField w 27 31, bitAt w 25⟩
  .ok (if bitAt w 26 then .fmpynfadd F rm1 rm2 ra t else .fmpyfadd F rm1 rm2 ra t)

/-- Top-level decode (R93): the FID word first (R94), then by major opcode. -/
def decode (v : Variant) (w : Word) : Except Reject Instr :=
  if w = 0x30000000#32 then .ok .fid
  else
    match field w 0 5 with
    | 0x0C => decodeCop v .op0C w
    | 0x0E => decodeCop v .op0E w
    | 0x06 => decodeMulti false w
    | 0x26 => decodeMulti true w
    | 0x2E => decodeFused w
    | _ => .error .majorOpcode

/-! ## The encoder -/

/-- Encoding of a format in a format field (R90). -/
def Fmt.code : Fmt → Nat
  | .sgl => 0
  | .dbl => 1

/-- Encoding of a move's format (R90, R96). -/
def MoveFmt.code : MoveFmt → Nat
  | .num F => F.code
  | .quad => 3

/-- Major opcode of a numbering format (R82, R83). -/
def Form.code : Form → Nat
  | .op0C => 0x0C
  | .op0E => 0x0E

/-- Half bit as a number. -/
def RegSel.halfBit (r : RegSel) : Nat := r.half.toNat

/-- Class 0 word: op, r, sub, fmt, class 00, r1x, tx, t (R82, R83). Ignored bits are 0. -/
def encodeClass0 (form : Form) (sub fmt : Nat) (r t : RegSel) : Word :=
  BitVec.ofNat 32 (form.code * 2 ^ 26 + r.fld * 2 ^ 21 + sub * 2 ^ 13 + fmt * 2 ^ 11
    + r.halfBit * 2 ^ 7 + t.halfBit * 2 ^ 6 + t.fld)

/-- Class 1 word: op, r, sub, df, sf, class 01, r1x, tx, t (R82, R83). -/
def encodeClass1 (form : Form) (sub sf df : Nat) (r t : RegSel) : Word :=
  BitVec.ofNat 32 (form.code * 2 ^ 26 + r.fld * 2 ^ 21 + sub * 2 ^ 15 + df * 2 ^ 13 + sf * 2 ^ 11
    + 1 * 2 ^ 9 + r.halfBit * 2 ^ 7 + t.halfBit * 2 ^ 6 + t.fld)

/-- Class 2 word: op, r1, r2, y, r2x, f, class 10, r1x, n, c (R82, R83). -/
def encodeClass2 (form : Form) (r1 r2 : RegSel) (y fmt n c : Nat) : Word :=
  BitVec.ofNat 32 (form.code * 2 ^ 26 + r1.fld * 2 ^ 21 + r2.fld * 2 ^ 16 + y * 2 ^ 13 + r2.halfBit * 2 ^ 12
    + fmt * 2 ^ 11 + 2 * 2 ^ 9 + r1.halfBit * 2 ^ 7 + n * 2 ^ 5 + c)

/-- Class 3 word: op, r1, r2, sub, r2x, f, class 11, x, r1x, tx, t (R82, R83). -/
def encodeClass3 (form : Form) (sub x : Nat) (F : Fmt) (r1 r2 t : RegSel) : Word :=
  BitVec.ofNat 32 (form.code * 2 ^ 26 + r1.fld * 2 ^ 21 + r2.fld * 2 ^ 16 + sub * 2 ^ 13 + r2.halfBit * 2 ^ 12
    + F.code * 2 ^ 11 + 3 * 2 ^ 9 + x * 2 ^ 8 + r1.halfBit * 2 ^ 7 + t.halfBit * 2 ^ 6 + t.fld)

/-- 06 and 26 word: op, rm1, rm2, ta, ra, f, tm (R85). -/
def encodeMulti (op : Nat) (F : Fmt) (rm1 rm2 ta ra tm : Fin 32) : Word :=
  BitVec.ofNat 32 (op * 2 ^ 26 + rm1 * 2 ^ 21 + rm2 * 2 ^ 16 + ta * 2 ^ 11 + ra * 2 ^ 6 + (1 - F.code) * 2 ^ 5 + tm)

/-- 2E word: op, rm1, rm2, ra_hi, rm2x, f, ra_lo, rax, rm1x, tx, neg, t (R86). -/
def encodeFused (neg : Nat) (F : Fmt) (rm1 rm2 ra t : RegSel) : Word :=
  BitVec.ofNat 32 (0x2E * 2 ^ 26 + rm1.fld * 2 ^ 21 + rm2.fld * 2 ^ 16 + (ra.fld.val / 4) * 2 ^ 13
    + rm2.halfBit * 2 ^ 12 + F.code * 2 ^ 11 + (ra.fld.val % 4) * 2 ^ 9 + ra.halfBit * 2 ^ 8
    + rm1.halfBit * 2 ^ 7 + t.halfBit * 2 ^ 6 + neg * 2 ^ 5 + t.fld)

/-- The register selection of a word whose register fields are not read. -/
def RegSel.zero : RegSel := ⟨0, false⟩

/-- FTEST's selector: bit 26 under PA20, `y = 1` under PA11 (R311). -/
def testSelector : Variant → Nat × Nat
  | .pa20 => (0, 1)
  | .pa11 => (1, 0)

/-- The instruction word, with every ignored bit (R99) zero. -/
def encode (v : Variant) : Instr → Word
  | .fcpy form fmt r t => encodeClass0 form 2 fmt.code r t
  | .fabs form fmt r t => encodeClass0 form 3 fmt.code r t
  | .fsqrt form fmt r t => encodeClass0 form 4 fmt.code r t
  | .frnd form fmt r t => encodeClass0 form 5 fmt.code r t
  | .fneg form fmt r t => encodeClass0 form 6 fmt.code r t
  | .fnegabs form fmt r t => encodeClass0 form 7 fmt.code r t
  | .fcnvff form .sglToDbl r t => encodeClass1 form 0 0 1 r t
  | .fcnvff form .dblToSgl r t => encodeClass1 form 0 1 0 r t
  | .fcnvxf form sf df r t => encodeClass1 form 1 sf.code df.code r t
  | .fcnvfx form sf df r t => encodeClass1 form 2 sf.code df.code r t
  | .fcnvfxt form sf df r t => encodeClass1 form 3 sf.code df.code r t
  | .fcnvuf form sf df r t => encodeClass1 form 5 sf.code df.code r t
  | .fcnvfu form sf df r t => encodeClass1 form 6 sf.code df.code r t
  | .fcnvfut form sf df r t => encodeClass1 form 7 sf.code df.code r t
  | .fcmp form fmt r1 r2 y c => encodeClass2 form r1 r2 y fmt.code 0 c
  | .ftest form fmt =>
    encodeClass2 form RegSel.zero RegSel.zero (testSelector v).1 fmt (testSelector v).2 0
  | .fadd form fmt r1 r2 t => encodeClass3 form 0 0 fmt r1 r2 t
  | .fsub form fmt r1 r2 t => encodeClass3 form 1 0 fmt r1 r2 t
  | .fmpy form fmt r1 r2 t => encodeClass3 form 2 0 fmt r1 r2 t
  | .fdiv form fmt r1 r2 t => encodeClass3 form 3 0 fmt r1 r2 t
  | .frem form fmt r1 r2 t => encodeClass3 form 4 0 fmt r1 r2 t
  | .xmpyu fmt r1 r2 t => encodeClass3 .op0E 2 1 fmt r1 r2 t
  | .fmpyadd fmt rm1 rm2 ta ra tm => encodeMulti 0x06 fmt rm1 rm2 ta ra tm
  | .fmpysub fmt rm1 rm2 ta ra tm => encodeMulti 0x26 fmt rm1 rm2 ta ra tm
  | .fmpyfadd fmt rm1 rm2 ra t => encodeFused 0 fmt rm1 rm2 ra t
  | .fmpynfadd fmt rm1 rm2 ra t => encodeFused 1 fmt rm1 rm2 ra t
  | .fid => 0x30000000#32

/-- The host's view of the decoder: an instruction is one 32-bit word (R80), read under PA20, the variant of
`State.reset` (log entry 2). -/
def decodeTableWord (_nbits w : Nat) : Option Instr :=
  match decode .pa20 (BitVec.ofNat 32 w) with
  | .ok i => some i
  | .error _ => none

end Sys2Proof
end

