-- ==== Sys2Proof/Machine/Flags.lean ====
section
/-! DEFINITION. The status word's fields (10_state.md R30, R31), the flag-or-trap rule of one exception kind
(60_exceptions.md R332; 40_numerics.md R165, R166) and what a kernel returns (42_arith.md R220). -/

namespace Sys2Proof

/-- The five exception kinds (R30, R332). -/
inductive Exc where
  | V
  | Z
  | O
  | U
  | I
deriving DecidableEq, Repr

/-- MSB-0 position of a kind's sticky flag in `S` (R30). -/
def Exc.flagBit : Exc → Nat
  | .V => 0
  | .Z => 1
  | .O => 2
  | .U => 3
  | .I => 4

/-- MSB-0 position of a kind's trap-enable bit in `S` (R30). -/
def Exc.enableBit : Exc → Nat
  | .V => 27
  | .Z => 28
  | .O => 29
  | .U => 30
  | .I => 31

/-- MSB-0 position of the compare result bit C (R30, R35). -/
def cBit : Nat := 5

/-- MSB-0 position of the pending-trap bit T (R30, R34). -/
def tBit : Nat := 25

/-- The rounding modes (R31). -/
inductive RMode where
  | rn
  | rz
  | rp
  | rmi
deriving DecidableEq, Repr

/-- `S.RM`, bits 21..22 (R30, R31). -/
def rmOf (st : Word) : RMode :=
  match field st 21 22 with
  | 0 => .rn
  | 1 => .rz
  | 2 => .rp
  | _ => .rmi

/-- `S.K`: the sticky flag of a kind (R30). -/
def flagSet (e : Exc) (st : Word) : Bool := bitAt st e.flagBit

/-- `S.Ken`: the trap of a kind is enabled (R30, R32). -/
def enabled (e : Exc) (st : Word) : Bool := bitAt st e.enableBit

/-- `S.K <- 1`: set a sticky flag; never clears one (R33). -/
def raiseFlag (e : Exc) (st : Word) : Word := putBit e.flagBit true st

/-- What a kernel of destination format `F` returns: the encoding to deliver, the outcome, the status word (R220). -/
structure KResult (F : Fmt) where
  res : Enc F
  outcome : FpOutcome
  status : Word
deriving DecidableEq, Repr

/-- A kernel that raises no exception: result `x`, outcome NONE, status unchanged. -/
def KResult.clean {F : Fmt} (st : Word) (x : Enc F) : KResult F := ⟨x, .none, st⟩

/-- A free value as an encoding of a format: any bit pattern of the width (U1, U2, U4). -/
def anyEnc (F : Fmt) (u : BitVec 64) : Enc F := u.setWidth F.width

/-- `invalid()`, the invalid operation with default `dflt` (R165): trapped, the outcome is INVALID, no flag is set and
the result is any value; untrapped, V is set and the result is the default. -/
def invalid {F : Fmt} (st : Word) (u : BitVec 64) (dflt : Enc F) : KResult F :=
  if enabled .V st then ⟨anyEnc F u, .invalid, st⟩
  else ⟨dflt, .none, raiseFlag .V st⟩

/-- `divzero(s)` with the infinity `inf` of sign `s` (R166): trapped, the outcome is DIV_BY_ZERO and the result is any
value; untrapped, Z is set and the result is the infinity. -/
def divzero {F : Fmt} (st : Word) (u : BitVec 64) (inf : Enc F) : KResult F :=
  if enabled .Z st then ⟨anyEnc F u, .divByZero, st⟩
  else ⟨inf, .none, raiseFlag .Z st⟩

/-- `inexact_only(ix)` (R151, R157): the outcome and status of a result that is inexact when `ix`. -/
def inexactOnly (ix : Bool) (st : Word) : FpOutcome × Word :=
  if ix then
    if enabled .I st then (.inexact, st) else (.none, raiseFlag .I st)
  else (.none, st)

/-- `{OVERFLOW} + inexact_part(ix)` (R151, R152). -/
def overflowPart (ix : Bool) (st : Word) : FpOutcome × Word :=
  if ix then
    if enabled .I st then (.overflowInexact, st) else (.overflow, raiseFlag .I st)
  else (.overflow, st)

/-- `{UNDERFLOW} + inexact_part(ix)` (R151, R155). -/
def underflowPart (ix : Bool) (st : Word) : FpOutcome × Word :=
  if ix then
    if enabled .I st then (.underflowInexact, st) else (.underflow, raiseFlag .I st)
  else (.underflow, st)

end Sys2Proof
end

