-- ==== Sys2Proof/Machine/Numerics.lean ====
section
/-! DEFINITION. Formats, exact values, rounding and finishing: 40_numerics.md R140 to R161. Values are exact rationals
(R14, R159); the one irrational result, FSQRT's, is held as the square of a real (log entry 19). -/

namespace Sys2Proof

/-! ## Formats and classes (R140 to R143) -/

/-- Exponent field width `w` (R140). -/
def Fmt.ebits : Fmt → Nat
  | .sgl => 8
  | .dbl => 11

/-- Fraction field width `f` (R140). -/
def Fmt.fbits : Fmt → Nat
  | .sgl => 23
  | .dbl => 52

/-- Precision `p = f + 1` (R140). -/
def Fmt.prec (F : Fmt) : Nat := F.fbits + 1

/-- `bias = 2^(w-1) - 1` (R140). -/
def Fmt.bias (F : Fmt) : Nat := 2 ^ (F.ebits - 1) - 1

/-- `emax = bias` (R140). -/
def Fmt.emax (F : Fmt) : Int := F.bias

/-- `emin = 1 - bias` (R140). -/
def Fmt.emin (F : Fmt) : Int := 1 - F.bias

/-- The exponent field of infinities and NaNs, `2^w - 1` (R140). -/
def Fmt.maxExp (F : Fmt) : Nat := 2 ^ F.ebits - 1

/-- Sign, exponent field and fraction assembled from the most significant bit down (R141). -/
def pack (F : Fmt) (s : Bool) (e fr : Nat) : Enc F :=
  BitVec.ofNat F.width (s.toNat * 2 ^ (F.ebits + F.fbits) + e * 2 ^ F.fbits + fr)

/-- The sign bit; `true` is negative (R141). -/
def signOf {F : Fmt} (x : Enc F) : Bool := x.msb

/-- The exponent field `E` (R141). -/
def expOf {F : Fmt} (x : Enc F) : Nat := x.toNat / 2 ^ F.fbits % 2 ^ F.ebits

/-- The fraction field `F` (R141). -/
def fracOf {F : Fmt} (x : Enc F) : Nat := x.toNat % 2 ^ F.fbits

/-- Zero: exponent and fraction fields zero (R142). -/
def isZero {F : Fmt} (x : Enc F) : Bool := expOf x == 0 && fracOf x == 0

/-- Infinity: maximal exponent field, zero fraction (R142). -/
def isInf {F : Fmt} (x : Enc F) : Bool := expOf x == F.maxExp && fracOf x == 0

/-- NaN: maximal exponent field, nonzero fraction (R142). -/
def isNaN {F : Fmt} (x : Enc F) : Bool := expOf x == F.maxExp && fracOf x != 0

/-- Finite: neither infinity nor NaN (R142). -/
def isFinite {F : Fmt} (x : Enc F) : Bool := expOf x != F.maxExp

/-- Normal: exponent field neither zero nor maximal (R142). -/
def isNormal {F : Fmt} (x : Enc F) : Bool := expOf x != 0 && expOf x != F.maxExp

/-- The mask of the signaling bit, the most significant fraction bit (R143). -/
def sigMask (F : Fmt) : Enc F := BitVec.ofNat F.width (2 ^ (F.fbits - 1))

/-- A signaling NaN: the most significant fraction bit is 1 (R143). -/
def isSNaN {F : Fmt} (x : Enc F) : Bool := isNaN x && decide (2 ^ (F.fbits - 1) ≤ fracOf x)

/-- A quiet NaN: the most significant fraction bit is 0 (R143). -/
def isQNaN {F : Fmt} (x : Enc F) : Bool := isNaN x && !isSNaN x

/-- The infinity of a sign (R142). -/
def infOf (F : Fmt) (s : Bool) : Enc F := pack F s F.maxExp 0

/-- The zero of a sign (R142). -/
def zeroOf (F : Fmt) (s : Bool) : Enc F := pack F s 0 0

/-- The largest finite magnitude with a sign (R140). -/
def maxFinite (F : Fmt) (s : Bool) : Enc F := pack F s (F.maxExp - 1) (2 ^ F.fbits - 1)

/-- Sign flipped (R203, R222). -/
def negate {F : Fmt} (x : Enc F) : Enc F := x ^^^ BitVec.ofNat F.width (2 ^ (F.ebits + F.fbits))

/-! ## Exact values (R142) -/

/-- `2^z` as an exact rational. -/
def pow2 (z : Int) : ℚ :=
  match z with
  | .ofNat n => ((2 ^ n : Nat) : ℚ)
  | .negSucc n => 1 / ((2 ^ (n + 1) : Nat) : ℚ)

/-- `|val(x)|` of a finite encoding (R142). -/
def absVal {F : Fmt} (x : Enc F) : ℚ :=
  if expOf x = 0 then
    if fracOf x = 0 then 0 else (fracOf x : ℚ) * pow2 (F.emin - F.fbits)
  else ((2 ^ F.fbits + fracOf x : Nat) : ℚ) * pow2 ((expOf x : Int) - F.bias - F.fbits)

/-- A magnitude with a sign. -/
def signed (s : Bool) (a : ℚ) : ℚ := if s then -a else a

/-- `val(x)` of a finite encoding (R142, R147). -/
def val {F : Fmt} (x : Enc F) : ℚ := signed (signOf x) (absVal x)

/-! ## NaNs (R144 to R146) -/

/-- `quiet(x)` of a signaling NaN: the signaling bit cleared; if no fraction bit is left the result is unspecified and
any value is taken (R144, U2; log entry 8). -/
def quiet {F : Fmt} (u : BitVec 64) (x : Enc F) : Enc F :=
  if fracOf x = 2 ^ (F.fbits - 1) then anyEnc F u else x &&& ~~~ sigMask F

/-- The NaN operand rule (R146), operands in the kernel's order: the result if some operand is a NaN. -/
def nanRule {F : Fmt} (ops : List (Enc F)) (st : Word) (u : BitVec 64) : Option (KResult F) :=
  match ops.find? isSNaN with
  | some x => some (invalid st u (quiet u x))
  | none => (ops.find? isQNaN).map (KResult.clean st)

/-- A kernel after the NaN rule: `k` is its result when no operand is a NaN (R220). -/
def afterNaN {F : Fmt} (ops : List (Enc F)) (st : Word) (u : BitVec 64) (k : KResult F) : KResult F :=
  (nanRule ops st u).getD k

/-! ## Rounding (R150) -/

/-- How the fractional part `fr = n - floor(n)` of R150 compares with 0 and 1/2. -/
inductive Frac where
  | zero
  | low
  | half
  | high
deriving DecidableEq, Repr

/-- Whether `roundmag` takes `lo + 1` (R150). -/
def roundsUp (m : RMode) (s : Bool) (lo : Nat) (fr : Frac) : Bool :=
  match m with
  | .rn => fr == .high || (fr == .half && lo % 2 == 1)
  | .rz => false
  | .rp => !s && fr != .zero
  | .rmi => s && fr != .zero

/-- A positive real magnitude: a rational, or the square root of one (FSQRT, R226). -/
inductive Mag where
  | rat (a : ℚ)
  | root (v : ℚ)
deriving DecidableEq

/-- The fractional part `fr` of a rational, classified (R150). -/
def fracClass (fr : ℚ) : Frac :=
  if fr = 0 then .zero else if fr < 1 / 2 then .low else if fr = 1 / 2 then .half else .high

/-- One bit of the integer square root at a time, from bit `i - 1` down. -/
def isqrtFrom (n : Nat) : Nat → Nat → Nat
  | 0, r => r
  | i + 1, r => if (r + 2 ^ i) * (r + 2 ^ i) ≤ n then isqrtFrom n i (r + 2 ^ i) else isqrtFrom n i r

/-- The integer square root: the largest `r` with `r * r ≤ n`. -/
def isqrt (n : Nat) : Nat := isqrtFrom n (n.log2 / 2 + 1) 0

/-- `lo` and `fr` of R150 for `n = a / 2^q`. For a root `√v` they are read off the squares: `lo ≤ √w < lo + 1` with
`w = v / 2^(2q)`, and `√w` against `lo + 1/2` is `4w` against `(2 lo + 1)²`. -/
def Mag.split (a : Mag) (q : Int) : Nat × Frac :=
  match a with
  | .rat a =>
    let n := a * pow2 (-q)
    let lo := n.floor.toNat
    (lo, fracClass (n - lo))
  | .root v =>
    let w := v * pow2 (-(2 * q))
    let lo := isqrt w.floor.toNat
    let sq : ℚ := ((2 * lo + 1) * (2 * lo + 1) : Nat)
    (lo, if w = ((lo * lo : Nat) : ℚ) then .zero else if 4 * w < sq then .low else if 4 * w = sq then .half else .high)

/-- `floor(log2 a)` of a positive rational. -/
def ilog2 (a : ℚ) : Int :=
  let e : Int := (a.num.natAbs.log2 : Int) - a.den.log2
  if pow2 e ≤ a then e else e - 1

/-- `floor(log2 a)` (R151); of `√v` it is half that of `v`, rounded down. -/
def Mag.log2 : Mag → Int
  | .rat a => ilog2 a
  | .root v => ilog2 v / 2

/-- A rounded magnitude and whether it differs from the magnitude rounded. -/
structure Rounded where
  value : ℚ
  inexact : Bool
deriving DecidableEq

/-- `roundmag(a, q, s, m)` (R150), with `ix = (result != a)`. -/
def roundmag (a : Mag) (q : Int) (s : Bool) (m : RMode) : Rounded :=
  let (lo, fr) := a.split q
  let k : Nat := if roundsUp m s lo fr then lo + 1 else lo
  ⟨(k : ℚ) * pow2 q, fr != .zero⟩

/-! ## Encoding and finishing (R151 to R161) -/

/-- `enc_F(s, v)` of a representable magnitude `v ≥ 0` (R158). -/
def enc (F : Fmt) (s : Bool) (v : ℚ) : Enc F :=
  if v = 0 then zeroOf F s
  else if v < pow2 F.emin then pack F s 0 (v * pow2 (F.fbits - F.emin)).floor.toNat
  else
    let e := ilog2 v
    let mant := (v * pow2 (F.fbits - e)).floor.toNat
    pack F s (e + F.bias).toNat (mant - 2 ^ F.fbits)

/-- The overflow default by mode and sign (R153). -/
def ovfDefault (F : Fmt) (s : Bool) (m : RMode) : Enc F :=
  match m, s with
  | .rn, _ => infOf F s
  | .rz, _ => maxFinite F s
  | .rp, false => infOf F s
  | .rp, true => maxFinite F s
  | .rmi, false => maxFinite F s
  | .rmi, true => infOf F s

/-- `wrapped_F(s, v)` (R160): `enc_F(s, v)`, or any value if `v` is outside the normal range (U4). -/
def wrapped (F : Fmt) (u : BitVec 64) (s : Bool) (v : ℚ) : Enc F :=
  if pow2 F.emin ≤ v ∧ v < pow2 (F.emax + 1) then enc F s v else anyEnc F u

/-- A result with the outcome and status of its inexactness. -/
def KResult.of {F : Fmt} (x : Enc F) (o : FpOutcome × Word) : KResult F := ⟨x, o.1, o.2⟩

/-- `finish_F` of a nonzero exact result with sign `s` and magnitude `a` (R151). -/
def finishMag (F : Fmt) (st : Word) (u : BitVec 64) (s : Bool) (a : Mag) : KResult F :=
  let m := rmOf st
  let r := roundmag a (a.log2 - F.prec + 1) s m
  if pow2 (F.emax + 1) ≤ r.value then
    if enabled .O st then .of (wrapped F u s (r.value * pow2 (-(Config.wrap F : Int)))) (overflowPart r.inexact st)
    else .of (ovfDefault F s m) (inexactOnly true (raiseFlag .O st))
  else if r.value < pow2 F.emin then
    if enabled .U st then .of (wrapped F u s (r.value * pow2 (Config.wrap F : Int))) (underflowPart r.inexact st)
    else
      let d := roundmag a (F.emin - F.prec + 1) s m
      .of (enc F s d.value) (inexactOnly d.inexact (if d.inexact then raiseFlag .U st else st))
  else .of (enc F s r.value) (inexactOnly r.inexact st)

/-- `finish_F(r, zs)` (R151): `zs` is the sign of an exact zero (R161). -/
def finish (F : Fmt) (st : Word) (u : BitVec 64) (r : ℚ) (zs : Bool) : KResult F :=
  if r = 0 then .clean st (zeroOf F zs)
  else finishMag F st u (decide (r < 0)) (.rat |r|)

end Sys2Proof
end

