-- ==== Sys2Proof/Machine/State.lean ====
section
/-! DEFINITION. The machine's state (10_state.md R20, R22, R47; 70_reset_and_hazards.md R381), its stops and its start.
The block has one address space, the 64-word register file (20_memory.md R60): there is no memory beside it. -/

namespace Sys2Proof.Machine

/-- A call the caller has issued: one of the two entry points of R381. The variant is the field `State.variant`. -/
inductive Call where
  /-- `dispatch(iw, fr, variant)`: execute one instruction word (R93). -/
  | dispatch (iw : Word)
  /-- `decode_queue(fr, variant)`: drain the exception queue (R350). -/
  | decodeQueue
deriving DecidableEq, Repr

/-- What the last completed call returned to the caller (R330, R348). -/
inductive Returned where
  /-- No call has completed yet. -/
  | nothing
  /-- `dispatch` returned an outcome (R330). -/
  | outcome (o : FpOutcome)
  /-- `decode_queue` returned a 32-bit signal value (R348). -/
  | signal (value : Word)
deriving DecidableEq, Repr

/-- The state. `fr` is the spec's whole register file (R20, R22): word 0 is the status word `S` (R30), words 1..7 the
exception-queue slots (R40), words 8..63 the data registers FR4..FR31. The other fields are the configuration
argument (R47), the caller's side of a call (R381) and the model's counter of free values. -/
structure State where
  /-- The register file: 64 words of 32 bits (R20, R22). -/
  fr : Vector Word 64
  /-- The FPU variant, an argument of every dispatch that no step writes (R47). -/
  variant : Variant
  /-- The calls issued and not yet run, oldest first (R67). Model's own. -/
  calls : List Call
  /-- What the last completed call returned (R330, R348). -/
  returned : Returned
  /-- How many free values have been taken (log entry 5). Model's own. -/
  draws : Nat
deriving DecidableEq, Repr

/-- Why the machine stops with a fault. -/
inductive Fault where
  /-- Raised by the queue decoder if a re-tagged slot had type UNIMPLEMENTED again, which R350 says never happens; it
  cannot happen for lawful queue parameters (log entry 15). Safe: the machine stops instead of looping. -/
  | slotRetestBound
deriving DecidableEq, Repr

/-- Why an instruction or a slot has no meaning in the model: the refusals of the spec (R13), each by name. All are
safe: the machine stops where the reference runs something the source does not describe (D7, D8, D20, D22, D27). -/
inductive Refusal where
  /-- Raised by `exec` for an instruction whose meaning is not written. Safe. -/
  | notModelled (mnemonic : String)
  /-- Raised by FID, the word 0x30000000 (R97, R206). Safe. -/
  | fid
  /-- Raised by FTEST in its single-format encoding (R97, R315). Safe. -/
  | ftest
  /-- Raised by XMPYU, single format, even nonzero destination index (R97, R229). Safe. -/
  | xmpyu
  /-- Raised by FCMP with `y ≠ 0`, a PA20 form (R97, R316). Safe. -/
  | compareQueueForm
  /-- Raised by the quad forms of FCPY, FABS, FNEG, FNEGABS (R96, R205). Safe. -/
  | quadMove
  /-- Raised by the double forms of FMPYADD and FMPYSUB with `ra` field 0 (R97, R265). Safe. -/
  | multiRaZero
  /-- Raised by every instruction whose destination lies in words 0..7 after alignment, other than index 0 itself
  (R25, R98). Safe. -/
  | queueDestination
  /-- Raised by every 0E instruction with a double source of field 0 and half bit 1 (R88, R98). Safe. -/
  | statusSource
  /-- Raised by the queue decoder for an OVERFLOW or UNDERFLOW slot whose instruction has no single float destination,
  whatever its trap enable (R346, R382; log entry 24). Safe. -/
  | slotDestination
  /-- Raised by the queue decoder for an OVERFLOW or UNDERFLOW slot whose destination holds a value the hardware cannot
  have delivered, whatever its trap enable (R343, R344, R382; log entry 24). Safe. -/
  | slotValue
deriving DecidableEq, Repr

/-- The result of running an instruction or a call. -/
abbrev Result := Host.Outcome State Fault Refusal

/-- The start state. The block has no reset and no word has a reset value (R48, R380): every word zero, the variant PA20
and no call issued are DESIGN CHOICES (log entries 1 to 5). -/
def State.reset : State where
  fr := Vector.replicate 64 0#32
  variant := .pa20
  calls := []
  returned := .nothing
  draws := 0

end Sys2Proof.Machine
end

