-- ==== Sys2Proof/Machine/Ops.lean ====
section
/-! DEFINITION. The named operations on the state: register-file words (00_scope.md R12), the status word, free values,
the return of an outcome (60_exceptions.md R330) and of a signal value (R348 to R350). -/

namespace Sys2Proof.Machine

/-- `fr[i]` (R12, R20). -/
def State.word (s : State) (i : Fin 64) : Word := s.fr[i]

/-- `fr[i] <- v` (R12). -/
def State.setWord (s : State) (i : Fin 64) (v : Word) : State := { s with fr := s.fr.set i v }

/-- `S`, the status word `fr[0]` (R12, R30). -/
def State.status (s : State) : Word := s.word 0

/-- The status word written. -/
def State.setStatus (s : State) (st : Word) : State := s.setWord 0 st

/-- `Rd_F(i)`: one word, or the pair `fr[i] ++ fr[i+1]` (R12, R23). -/
def State.read (s : State) (F : Fmt) (i : Fin 64) : Enc F :=
  match F with
  | .sgl => s.word i
  | .dbl => s.word i ++ s.word (i + 1)

/-- `Wr_F(i, v)`: one word, or `v[63:32]` to `fr[i]` and `v[31:0]` to `fr[i+1]` (R12, R23). -/
def State.write (s : State) (F : Fmt) (i : Fin 64) (v : Enc F) : State :=
  match F, v with
  | .sgl, v => s.setWord i v
  | .dbl, v => (s.setWord i (v.extractLsb' 32 32)).setWord (i + 1) (v.extractLsb' 0 32)

/-- The `k`-th free value not yet taken (R13; log entry 5). -/
def State.draw (s : State) (k : Nat) : BitVec 64 := Config.draw (s.draws + k)

/-- Free values taken: every call of a kernel may take two (log entry 5). -/
def State.tookDraws (s : State) : State := { s with draws := s.draws + 2 }

/-- `return o`: the instruction ends with outcome `o` (R12, R330). -/
def State.finishWith (s : State) (o : FpOutcome) : State := { s with returned := .outcome o }

/-- Return UNIMPLEMENTED having written nothing (R91, R334). -/
def State.unimplemented (s : State) : State := s.finishWith .unimplemented

/-- The outcome the last dispatch returned; NONE if the last call was none. -/
def State.outcome (s : State) : FpOutcome :=
  match s.returned with
  | .outcome o => o
  | .nothing => .none
  | .signal _ => .none

/-- The end of a kernel call (R220): status written, result delivered to `t` whatever the outcome, outcome returned. -/
def State.deliver (s : State) {F : Fmt} (t : Fin 64) (k : KResult F) : State :=
  (((s.setStatus k.status).write F t k.res).tookDraws).finishWith k.outcome

/-! ## Taking an exception

The block takes no trap of its own (R362). Reporting an exception is `TERM(sig, code)` of R350: T is set and the encoded
signal is returned, everything else left as it is. There is no return from exception (R363, R366); the clean end of the
queue is beside it. -/

/-- The terminal (signal, sub-code) pairs (R345, R347, R348). -/
inductive Signal where
  | illCoproc
  | fltDiv
  | fltOvf
  | fltUnd
  | fltRes
  | fltInv
deriving DecidableEq, Repr

/-- Signal number: SIGILL 4, SIGFPE 8 (R348). -/
def Signal.sig : Signal → Nat
  | .illCoproc => 4
  | .fltDiv => 8
  | .fltOvf => 8
  | .fltUnd => 8
  | .fltRes => 8
  | .fltInv => 8

/-- Signal sub-code (R348). -/
def Signal.code : Signal → Nat
  | .illCoproc => 7
  | .fltDiv => 3
  | .fltOvf => 4
  | .fltUnd => 5
  | .fltRes => 6
  | .fltInv => 7

/-- `S.T <- v` (R34). -/
def State.setT (s : State) (v : Bool) : State := s.setStatus (putBit tBit v s.status)

/-- `TERM(sig, code)`: `S.T <- 1; return sigEncode(sig, code)` (R349, R350). -/
def State.terminal (s : State) (g : Signal) : State :=
  { s.setT true with returned := .signal (Config.sigEncode g.sig g.code) }

/-- All slots drained clean: `S.T <- 0`; return "no signal" (R348, R349). -/
def State.drained (s : State) : State :=
  { s.setT false with returned := .signal Config.noSignal }

end Sys2Proof.Machine
end

