-- ==== Sys2Proof/Machine/Operands.lean ====
section
/-! DEFINITION. Register fields to register-file words (30_encoding.md R87, R88, R92, R95, R98; 10_state.md R24, R25), and
the shapes of an instruction: one source, two, three, each with the destination test first (R91, R94, R220). -/

namespace Sys2Proof

/-- A source operand after decoding (R24, R25, R88, R98). -/
inductive SrcOp where
  /-- Index 0: the zero register Z. -/
  | zero
  /-- A register-file word, or the pair starting there. -/
  | word (i : Fin 64)
  /-- A 0E double source of field 0 and half bit 1: it would read the status word, and is refused. -/
  | status
deriving DecidableEq, Repr

/-- A destination operand after decoding (R92, R98). -/
inductive DstOp where
  /-- Index 0 before alignment: the instruction is UNIMPLEMENTED. -/
  | unimplemented
  /-- A data word, or the pair starting there: index 8 or more. -/
  | word (i : Fin 64)
  /-- Words 0..7 after alignment: refused. -/
  | queue
deriving DecidableEq, Repr

/-- `2*fld`: the left word of the register, and the first word of its pair (R87). -/
def RegSel.left (r : RegSel) : Fin 64 := ⟨2 * r.fld.val, by omega⟩

/-- `2*fld + h`: the word the half-select bit picks (R87). -/
def RegSel.single (r : RegSel) : Fin 64 := ⟨2 * r.fld.val + r.half.toNat, by have := Bool.toNat_le r.half; omega⟩

/-- `src(0) = Z`, `src(i) = i` (R94). -/
def srcOf (i : Fin 64) : SrcOp := if i = 0 then .zero else .word i

/-- A destination index with no alignment to do (R92, R98). -/
def dstOf (i : Fin 64) : DstOp := if i = 0 then .unimplemented else if i < 8 then .queue else .word i

/-- Source operand of a coprocessor format (R87, R88, R94, R95, R98): the zero substitution comes before the double
alignment. -/
def Form.src (form : Form) (F : Fmt) (r : RegSel) : SrcOp :=
  match form, F with
  | .op0C, _ => srcOf r.left
  | .op0E, .sgl => srcOf r.single
  | .op0E, .dbl => if r.single = 0 then .zero else if r.left = 0 then .status else .word r.left

/-- The destination index `d` before any double alignment (R87, R92, R94, R95). -/
def Form.dstIndex (form : Form) (t : RegSel) : Fin 64 :=
  match form with
  | .op0C => t.left
  | .op0E => t.single

/-- The destination index after double alignment (R95). -/
def Form.aligned (form : Form) (F : Fmt) (t : RegSel) : Fin 64 :=
  match F with
  | .sgl => form.dstIndex t
  | .dbl => t.left

/-- Destination operand of a coprocessor format: index 0 is tested before alignment (R92), words 0..7 after it (R98). -/
def Form.dst (form : Form) (F : Fmt) (t : RegSel) : DstOp :=
  if form.dstIndex t = 0 then .unimplemented
  else if form.aligned F t < 8 then .queue
  else .word (form.aligned F t)

/-- `idx(fld, h)` of the fused format (R87, R260). -/
def fusedIndex (F : Fmt) (r : RegSel) : Fin 64 :=
  match F with
  | .sgl => r.single
  | .dbl => r.left

/-- `idx(fld)` of the multiple instructions: FR16..FR31 for singles (R87, R264). -/
def multiIndex (F : Fmt) (fld : Fin 32) : Fin 64 :=
  match F with
  | .sgl => ⟨2 * (16 + fld.val % 16) + fld.val / 16, by omega⟩
  | .dbl => ⟨2 * fld.val, by omega⟩

namespace Machine

/-- Read a source operand and go on with its value: Z reads as zero (R24), a slot word as its raw value (R25). -/
def withSrc (s : State) (F : Fmt) (a : SrcOp) (k : Enc F → Result) : Result :=
  match a with
  | .zero => k 0
  | .word i => k (s.read F i)
  | .status => .refused .statusSource

/-- Test the destination and go on with its index (R92, R98). -/
def withDst (s : State) (d : DstOp) (k : Fin 64 → Result) : Result :=
  match d with
  | .unimplemented => .next s.unimplemented
  | .word t => k t
  | .queue => .refused .queueDestination

/-- A one-source instruction from format `F` to format `G`: read, run the kernel, deliver (R220). The kernel is given
the status word and two free values. -/
def unary (s : State) (F G : Fmt) (a : SrcOp) (d : DstOp)
    (op : Word → BitVec 64 → BitVec 64 → Enc F → KResult G) : Result :=
  withDst s d fun t => withSrc s F a fun x =>
    .next (s.deliver t (op s.status (s.draw 0) (s.draw 1) x))

/-- A two-source instruction: both sources are read before the write (R64, R220). -/
def binary (s : State) (F : Fmt) (a b : SrcOp) (d : DstOp)
    (op : Word → BitVec 64 → Enc F → Enc F → KResult F) : Result :=
  withDst s d fun t => withSrc s F a fun x => withSrc s F b fun y =>
    .next (s.deliver t (op s.status (s.draw 0) x y))

/-- A three-source instruction (R64, R260). -/
def ternary (s : State) (F : Fmt) (a b c : SrcOp) (d : DstOp)
    (op : Word → BitVec 64 → Enc F → Enc F → Enc F → KResult F) : Result :=
  withDst s d fun t => withSrc s F a fun x => withSrc s F b fun y => withSrc s F c fun z =>
    .next (s.deliver t (op s.status (s.draw 0) x y z))

end Machine

end Sys2Proof
end

