-- ==== Sys2Proof/Machine/Arith.lean ====
section
/-! DEFINITION. Arithmetic kernels: 42_arith.md R220 to R229. Each kernel takes the status word, a free value and its
operands, and is the NaN rule (R146), the infinity and zero cases, then the exact result and `finish` (R220). -/

namespace Sys2Proof

/-- Sign of an exact zero sum of `x + y`, the signs being those of the addends (R161, R221, R222). -/
def zeroSumSign (st : Word) (bothZero : Bool) (sx sy : Bool) : Bool :=
  if bothZero && sx == sy then sx else rmOf st == .rmi

/-- FADD (R221). -/
def kFadd (F : Fmt) (st : Word) (u : BitVec 64) (x y : Enc F) : KResult F :=
  afterNaN [x, y] st u <|
    if isInf x && isInf y && signOf x != signOf y then invalid st u (Config.defaultNaN F)
    else if isInf x then .clean st x
    else if isInf y then .clean st y
    else finish F st u (val x + val y) (zeroSumSign st (isZero x && isZero y) (signOf x) (signOf y))

/-- FSUB (R222): as `x + (-y)`, but a NaN operand is not negated. -/
def kFsub (F : Fmt) (st : Word) (u : BitVec 64) (x y : Enc F) : KResult F :=
  afterNaN [x, y] st u <|
    if isInf x && isInf y && signOf x == signOf y then invalid st u (Config.defaultNaN F)
    else if isInf x then .clean st x
    else if isInf y then .clean st (negate y)
    else finish F st u (val x - val y) (zeroSumSign st (isZero x && isZero y) (signOf x) (!signOf y))

/-- FMPY (R223). -/
def kFmpy (F : Fmt) (st : Word) (u : BitVec 64) (x y : Enc F) : KResult F :=
  let s := signOf x ^^ signOf y
  afterNaN [x, y] st u <|
    if (isInf x && isZero y) || (isZero x && isInf y) then invalid st u (Config.defaultNaN F)
    else if isInf x || isInf y then .clean st (infOf F s)
    else finish F st u (val x * val y) s

/-- FDIV (R224). -/
def kFdiv (F : Fmt) (st : Word) (u : BitVec 64) (x y : Enc F) : KResult F :=
  let s := signOf x ^^ signOf y
  afterNaN [x, y] st u <|
    if isInf x && isInf y then invalid st u (Config.defaultNaN F)
    else if isZero x && isZero y then invalid st u (Config.defaultNaN F)
    else if isInf x then .clean st (infOf F s)
    else if isInf y then .clean st (zeroOf F s)
    else if isZero y then divzero st u (infOf F s)
    else finish F st u (val x / val y) s

/-- The integer nearest a rational, ties to even (R225). -/
def nearestEven (q : ℚ) : Int :=
  let lo := q.floor
  let fr := q - lo
  if fr < 1 / 2 then lo else if 1 / 2 < fr then lo + 1 else if lo % 2 = 0 then lo else lo + 1

/-- FREM, the IEEE remainder (R225). -/
def kFrem (F : Fmt) (st : Word) (u : BitVec 64) (x y : Enc F) : KResult F :=
  afterNaN [x, y] st u <|
    if isInf x || isZero y then invalid st u (Config.defaultNaN F)
    else if isInf y then .clean st x
    else if isZero x then .clean st x
    else finish F st u (val x - nearestEven (val x / val y) * val y) (signOf x)

/-- FSQRT (R226). -/
def kFsqrt (F : Fmt) (st : Word) (u : BitVec 64) (x : Enc F) : KResult F :=
  afterNaN [x] st u <|
    if isZero x then .clean st x
    else if signOf x then invalid st u (Config.defaultNaN F)
    else if isInf x then .clean st x
    else finishMag F st u false (.root (val x))

/-- FRND (R227). -/
def kFrnd (F : Fmt) (st : Word) (u : BitVec 64) (x : Enc F) : KResult F :=
  afterNaN [x] st u <|
    if isInf x || isZero x then .clean st x
    else
      let a := roundmag (.rat (absVal x)) 0 (signOf x) (rmOf st)
      .of (enc F (signOf x) a.value) (inexactOnly a.inexact st)

namespace Machine

/-- FADD (R221). -/
def execFadd (form : Form) (fmt : Fmt) (r1 r2 t : RegSel) (s : State) : Result :=
  binary s fmt (form.src fmt r1) (form.src fmt r2) (form.dst fmt t) (kFadd fmt)

/-- FSUB (R222). -/
def execFsub (form : Form) (fmt : Fmt) (r1 r2 t : RegSel) (s : State) : Result :=
  binary s fmt (form.src fmt r1) (form.src fmt r2) (form.dst fmt t) (kFsub fmt)

/-- FMPY (R223). -/
def execFmpy (form : Form) (fmt : Fmt) (r1 r2 t : RegSel) (s : State) : Result :=
  binary s fmt (form.src fmt r1) (form.src fmt r2) (form.dst fmt t) (kFmpy fmt)

/-- FDIV (R224). -/
def execFdiv (form : Form) (fmt : Fmt) (r1 r2 t : RegSel) (s : State) : Result :=
  binary s fmt (form.src fmt r1) (form.src fmt r2) (form.dst fmt t) (kFdiv fmt)

/-- FREM (R225). -/
def execFrem (form : Form) (fmt : Fmt) (r1 r2 t : RegSel) (s : State) : Result :=
  binary s fmt (form.src fmt r1) (form.src fmt r2) (form.dst fmt t) (kFrem fmt)

/-- FSQRT (R226). -/
def execFsqrt (form : Form) (fmt : Fmt) (r t : RegSel) (s : State) : Result :=
  unary s fmt fmt (form.src fmt r) (form.dst fmt t) fun st u _ x => kFsqrt fmt st u x

/-- FRND (R227). -/
def execFrnd (form : Form) (fmt : Fmt) (r t : RegSel) (s : State) : Result :=
  unary s fmt fmt (form.src fmt r) (form.dst fmt t) fun st u _ x => kFrnd fmt st u x

/-- XMPYU (R95, R229): destination index 0, format 1 or an odd destination index return UNIMPLEMENTED; the single
format with an even destination is refused. -/
def execXmpyu (fmt : Fmt) (_r1 _r2 t : RegSel) (s : State) : Result :=
  if t.single = 0 then .next s.unimplemented
  else
    match fmt with
    | .dbl => .next s.unimplemented
    | .sgl => if t.half then .next s.unimplemented else .refused .xmpyu

end Machine

end Sys2Proof
end

