-- ==== Sys2Proof/Machine/Compare.lean ====
section
/-! DEFINITION. Compare and test: 45_compare.md R310 to R317. -/

namespace Sys2Proof

/-- The relation of two operands (R310). -/
inductive Rel where
  | greater
  | less
  | equal
  | unordered
deriving DecidableEq, Repr

/-- `val(x)`, with an infinity placed beyond every finite value (R310). -/
def extVal {F : Fmt} (x : Enc F) : ℚ := if isInf x then signed (signOf x) (pow2 (F.emax + 1)) else val x

/-- `rel_F(x, y)` (R310). -/
def relOf {F : Fmt} (x y : Enc F) : Rel :=
  if isNaN x || isNaN y then .unordered
  else if extVal x = extVal y then .equal
  else if extVal x < extVal y then .less
  else .greater

/-- The condition bit of a relation (R312, R313). -/
def Rel.bit : Rel → Nat
  | .greater => 0x10
  | .less => 0x08
  | .equal => 0x04
  | .unordered => 0x02

/-- `C'`: the condition selects the relation (R312). -/
def condHolds (c : Fin 32) (r : Rel) : Bool := c.val &&& r.bit != 0

/-- Whether the compare is invalid: unordered, with a sNaN operand or a condition with bit 0x01 (R312). -/
def compareInvalid {F : Fmt} (x y : Enc F) (c : Fin 32) : Bool :=
  relOf x y == .unordered && (isSNaN x || isSNaN y || c.val &&& 0x01 != 0)

/-- FCMP (R312, R314): outcome and status word; C is written even when INVALID is trapped. -/
def kFcmp {F : Fmt} (st : Word) (x y : Enc F) (c : Fin 32) : FpOutcome × Word :=
  let hit := condHolds c (relOf x y)
  if compareInvalid x y c then
    if enabled .V st then (.invalid, putBit cBit hit st)
    else (.none, putBit cBit hit (raiseFlag .V st))
  else (.none, putBit cBit hit st)

/-- The status word after an FCMP of a variant: under PA20 bits 6..20 take any value (R316, U5). -/
def compareQueue (v : Variant) (u : BitVec 64) (st : Word) : Word :=
  match v with
  | .pa11 => st
  | .pa20 => deposit (u.setWidth 32) 6 15 st

namespace Machine

/-- FCMP (R311 to R316): `y ≠ 0` is refused. -/
def execFcmp (form : Form) (fmt : Fmt) (r1 r2 : RegSel) (y : Fin 8) (c : Fin 32) (s : State) : Result :=
  if y = 0 then
    withSrc s fmt (form.src fmt r1) fun x1 => withSrc s fmt (form.src fmt r2) fun x2 =>
      let k := kFcmp s.status x1 x2 c
      .next ((s.setStatus (compareQueue s.variant (s.draw 0) k.2)).tookDraws.finishWith k.1)
  else .refused .compareQueueForm

/-- FTEST (R315): the single-format encoding is refused, the others return UNIMPLEMENTED. -/
def execFtest (_form : Form) (fmt : Fin 4) (s : State) : Result :=
  if fmt = 0 then .refused .ftest else .next s.unimplemented

end Machine

end Sys2Proof
end

