-- ==== Sys2Proof/Machine/Convert.lean ====
section
/-! DEFINITION. Format, fixed-point and unsigned conversions: 44_convert.md R280 to R290. A `Fmt` on the integer side is its
size: `sgl` a 32-bit word, `dbl` a 64-bit pair (R280). -/

namespace Sys2Proof

/-- A single NaN widened: sign kept, fraction shifted left by 29 (R281). -/
def widen (x : Enc .sgl) : Enc .dbl := pack .dbl (signOf x) (Fmt.maxExp .dbl) (fracOf x * 2 ^ 29)

/-- FCNVFF single to double (R281). -/
def kCnvSD (st : Word) (u : BitVec 64) (x : Enc .sgl) : KResult .dbl :=
  if isSNaN x then
    invalid st u
      (if fracOf x = 2 ^ (Fmt.fbits .sgl - 1) then anyEnc .dbl u else widen (quiet u x))
  else if isQNaN x then .clean st (widen x)
  else if isInf x then .clean st (infOf .dbl (signOf x))
  else if isZero x then .clean st (zeroOf .dbl (signOf x))
  else .clean st (enc .dbl (signOf x) (absVal x))

/-- Any single-precision quiet NaN (U3): sign and the 22 fraction bits below the signaling bit free, not all zero. -/
def anyQuietSgl (u : BitVec 64) : Enc .sgl :=
  let fr := u.toNat % 2 ^ 22
  pack .sgl (u.getLsbD 31) (Fmt.maxExp .sgl) (if fr = 0 then 1 else fr)

/-- `narrow(n)` (R282): the top 23 fraction bits, or any quiet NaN if they are all zero. -/
def narrow (u : BitVec 64) (n : Enc .dbl) : Enc .sgl :=
  let fr := fracOf n / 2 ^ 29
  if fr = 0 then anyQuietSgl u else pack .sgl (signOf n) (Fmt.maxExp .sgl) fr

/-- FCNVFF double to single (R282). The quieted operand and the narrowed NaN may each be a free value. -/
def kCnvDS (st : Word) (u v : BitVec 64) (x : Enc .dbl) : KResult .sgl :=
  if isSNaN x then invalid st u (narrow v (quiet u x))
  else if isQNaN x then .clean st (narrow v x)
  else if isInf x then .clean st (infOf .sgl (signOf x))
  else if isZero x then .clean st (zeroOf .sgl (signOf x))
  else finish .sgl st u (val x) (signOf x)

/-- Value of an integer operand: two's complement or unsigned (R280). -/
def intVal {F : Fmt} (isSigned : Bool) (n : Enc F) : Int := if isSigned then n.toInt else n.toNat

/-- Integer to float (R283, R284). -/
def kCnvXF (F G : Fmt) (isSigned : Bool) (st : Word) (u : BitVec 64) (n : Enc F) : KResult G :=
  finish G st u (intVal isSigned n) false

/-- `n` in `IntRange(N, signed)` (R280). -/
def inIntRange (N : Nat) (isSigned : Bool) (n : Int) : Bool :=
  if isSigned then decide (-(2 ^ (N - 1) : Nat) ≤ n ∧ n ≤ (2 ^ (N - 1) : Nat) - 1)
  else decide (0 ≤ n ∧ n ≤ (2 ^ N : Nat) - 1)

/-- `dflt(s)`: the invalid default by the operand's sign (R285). -/
def intDefault (N : Nat) (isSigned : Bool) (s : Bool) : Int :=
  match isSigned, s with
  | true, false => (2 ^ (N - 1) : Nat) - 1
  | true, true => -(2 ^ (N - 1) : Nat)
  | false, false => (2 ^ N : Nat) - 1
  | false, true => 0

/-- `encI(N, n) = n mod 2^N` (R280). -/
def encInt (G : Fmt) (n : Int) : Enc G := BitVec.ofInt G.width n

/-- Float to integer in mode `m` (R285 to R288). -/
def kCnvFX (F G : Fmt) (isSigned : Bool) (m : RMode) (st : Word) (u : BitVec 64) (x : Enc F) : KResult G :=
  let dflt := encInt G (intDefault G.width isSigned (signOf x))
  if isNaN x || isInf x then invalid st u dflt
  else if isZero x then .clean st (encInt G 0)
  else
    let a := roundmag (.rat (absVal x)) 0 (signOf x) m
    let n : Int := if signOf x then -a.value.floor else a.value.floor
    if inIntRange G.width isSigned n then .of (encInt G n) (inexactOnly a.inexact st)
    else invalid st u dflt

namespace Machine

/-- FCNVFF (R281, R282). -/
def execFcnvff (form : Form) (conv : FloatConv) (r t : RegSel) (s : State) : Result :=
  match conv with
  | .sglToDbl => unary s .sgl .dbl (form.src .sgl r) (form.dst .dbl t) fun st u _ x => kCnvSD st u x
  | .dblToSgl => unary s .dbl .sgl (form.src .dbl r) (form.dst .sgl t) kCnvDS

/-- FCNVXF (R283). -/
def execFcnvxf (form : Form) (sf df : Fmt) (r t : RegSel) (s : State) : Result :=
  unary s sf df (form.src sf r) (form.dst df t) fun st u _ n => kCnvXF sf df true st u n

/-- FCNVFX, current rounding mode (R285). -/
def execFcnvfx (form : Form) (sf df : Fmt) (r t : RegSel) (s : State) : Result :=
  unary s sf df (form.src sf r) (form.dst df t) fun st u _ x => kCnvFX sf df true (rmOf st) st u x

/-- FCNVFXT, truncating (R286). -/
def execFcnvfxt (form : Form) (sf df : Fmt) (r t : RegSel) (s : State) : Result :=
  unary s sf df (form.src sf r) (form.dst df t) fun st u _ x => kCnvFX sf df true .rz st u x

/-- FCNVUF (R284). -/
def execFcnvuf (form : Form) (sf df : Fmt) (r t : RegSel) (s : State) : Result :=
  unary s sf df (form.src sf r) (form.dst df t) fun st u _ n => kCnvXF sf df false st u n

/-- FCNVFU, current rounding mode (R287). -/
def execFcnvfu (form : Form) (sf df : Fmt) (r t : RegSel) (s : State) : Result :=
  unary s sf df (form.src sf r) (form.dst df t) fun st u _ x => kCnvFX sf df false (rmOf st) st u x

/-- FCNVFUT, truncating (R288). -/
def execFcnvfut (form : Form) (sf df : Fmt) (r t : RegSel) (s : State) : Result :=
  unary s sf df (form.src sf r) (form.dst df t) fun st u _ x => kCnvFX sf df false .rz st u x

end Machine

end Sys2Proof
end

