-- ==== Sys2Proof/Machine/Fused.lean ====
section
/-! DEFINITION. Fused multiply-add and the multiple instructions: 43_fused_multi.md R260 to R266. -/

namespace Sys2Proof

/-- FMA (R260): `±(x·y) + z` with one rounding; `neg` negates the product (R261). -/
def kFma (F : Fmt) (neg : Bool) (st : Word) (u : BitVec 64) (x y z : Enc F) : KResult F :=
  let sp := signOf x ^^ signOf y ^^ neg
  afterNaN [x, y, z] st u <|
    if (isInf x && isZero y) || (isZero x && isInf y) then invalid st u (Config.defaultNaN F)
    else if isInf x || isInf y then
      if isInf z && signOf z != sp then invalid st u (Config.defaultNaN F)
      else .clean st (infOf F sp)
    else if isInf z then .clean st z
    else finish F st u (signed neg (val x * val y) + val z)
      (zeroSumSign st (val x * val y == 0 && isZero z) sp (signOf z))

namespace Machine

/-- The fused format's operands (R260). -/
def fused (s : State) (F : Fmt) (rm1 rm2 ra t : RegSel) (neg : Bool) : Result :=
  ternary s F (srcOf (fusedIndex F rm1)) (srcOf (fusedIndex F rm2)) (srcOf (fusedIndex F ra))
    (dstOf (fusedIndex F t)) (kFma F neg)

/-- FMPYFADD (R260). -/
def execFmpyfadd (fmt : Fmt) (rm1 rm2 ra t : RegSel) (s : State) : Result := fused s fmt rm1 rm2 ra t false

/-- FMPYNFADD (R261). -/
def execFmpynfadd (fmt : Fmt) (rm1 rm2 ra t : RegSel) (s : State) : Result := fused s fmt rm1 rm2 ra t true

/-- The combination of R264 once every operand is known: both kernels on a local copy of the status word, the multiply
first; if either outcome is not NONE nothing is written and `multiopFail` is returned; else both results are
written, `ta` last, and the status word. -/
def multiCombine (s : State) (F : Fmt) (tm ta : Fin 64) (a b c e : Enc F)
    (op2 : Word → BitVec 64 → Enc F → Enc F → KResult F) : State :=
  let m := kFmpy F s.status (s.draw 0) a b
  let q := op2 m.status (s.draw 1) c e
  if m.outcome = .none ∧ q.outcome = .none then
    ((((s.write F tm m.res).write F ta q.res).setStatus q.status).tookDraws).finishWith .none
  else s.finishWith Config.multiopFail

/-- Decode and combination of the multiple instructions (R264): the double form with `ra` field 0 is refused first
(R265), then destination index 0 is UNIMPLEMENTED (R92), then words 1..7 are refused (R98). -/
def multi (s : State) (F : Fmt) (rm1 rm2 ta ra tm : Fin 32)
    (op2 : Word → BitVec 64 → Enc F → Enc F → KResult F) : Result :=
  if F = .dbl ∧ ra = 0 then .refused .multiRaZero
  else if multiIndex F tm = 0 ∨ multiIndex F ta = 0 then .next s.unimplemented
  else if multiIndex F tm < 8 ∨ multiIndex F ta < 8 then .refused .queueDestination
  else
    withSrc s F (srcOf (multiIndex F rm1)) fun a => withSrc s F (srcOf (multiIndex F rm2)) fun b =>
      .next (multiCombine s F (multiIndex F tm) (multiIndex F ta) a b
        (s.read F (multiIndex F ta)) (s.read F (multiIndex F ra)) op2)

/-- FMPYADD (R262). -/
def execFmpyadd (fmt : Fmt) (rm1 rm2 ta ra tm : Fin 32) (s : State) : Result :=
  multi s fmt rm1 rm2 ta ra tm (kFadd fmt)

/-- FMPYSUB (R263). -/
def execFmpysub (fmt : Fmt) (rm1 rm2 ta ra tm : Fin 32) (s : State) : Result :=
  multi s fmt rm1 rm2 ta ra tm (kFsub fmt)

end Machine

end Sys2Proof
end

