-- ==== Sys2Proof/Machine/Moves.lean ====
section
/-! DEFINITION. Register moves and FID: 41_moves.md R200 to R206. A move makes no kernel call: it changes no status bit and
returns NONE (R200). -/

namespace Sys2Proof

/-- The sign bit of a format as a mask (R202 to R204). -/
def signMask (F : Fmt) : Enc F := BitVec.ofNat F.width (2 ^ (F.width - 1))

/-- FCPY's value (R201). -/
def moveCopy (F : Fmt) (x : Enc F) : Enc F := x

/-- FABS's value: the sign bit cleared (R202). -/
def moveAbs (F : Fmt) (x : Enc F) : Enc F := x &&& ~~~ signMask F

/-- FNEG's value: the sign bit flipped (R203). -/
def moveNeg (F : Fmt) (x : Enc F) : Enc F := x ^^^ signMask F

/-- FNEGABS's value: the sign bit set (R204). -/
def moveNegAbs (F : Fmt) (x : Enc F) : Enc F := x ||| signMask F

namespace Machine

/-- The move group (R200): destination test, source read, one write, NONE. The quad form is refused after the
destination-0 test (R94, R96, R205). -/
def move (s : State) (form : Form) (fmt : MoveFmt) (r t : RegSel) (f : (F : Fmt) → Enc F → Enc F) : Result :=
  match fmt with
  | .num F =>
    withDst s (form.dst F t) fun d => withSrc s F (form.src F r) fun x =>
      .next ((s.write F d (f F x)).finishWith .none)
  | .quad => if form.dstIndex t = 0 then .next s.unimplemented else .refused .quadMove

/-- FCPY (R201). -/
def execFcpy (form : Form) (fmt : MoveFmt) (r t : RegSel) (s : State) : Result := move s form fmt r t moveCopy

/-- FABS (R202). -/
def execFabs (form : Form) (fmt : MoveFmt) (r t : RegSel) (s : State) : Result := move s form fmt r t moveAbs

/-- FNEG (R203). -/
def execFneg (form : Form) (fmt : MoveFmt) (r t : RegSel) (s : State) : Result := move s form fmt r t moveNeg

/-- FNEGABS (R204). -/
def execFnegabs (form : Form) (fmt : MoveFmt) (r t : RegSel) (s : State) : Result := move s form fmt r t moveNegAbs

/-- FID, the word 0x30000000, is refused: "A model gives the word no meaning" (R206). -/
def execFid (_s : State) : Result := .refused .fid

end Machine

end Sys2Proof
end

