-- ==== Sys2Proof/Machine/Dispatch.lean ====
section
/-! DEFINITION. One arm per instruction (30_encoding.md R91: the dispatcher calls exactly one kernel or performs one move or the
pair of a multiple instruction). -/

namespace Sys2Proof.Machine

def exec (i : Instr) (s : State) : Host.Outcome State Fault Refusal :=
  match i with
  | .fcpy form fmt r t => Sys2Proof.Machine.execFcpy form fmt r t s
  | .fabs form fmt r t => Sys2Proof.Machine.execFabs form fmt r t s
  | .fsqrt form fmt r t => Sys2Proof.Machine.execFsqrt form fmt r t s
  | .frnd form fmt r t => Sys2Proof.Machine.execFrnd form fmt r t s
  | .fneg form fmt r t => Sys2Proof.Machine.execFneg form fmt r t s
  | .fnegabs form fmt r t => Sys2Proof.Machine.execFnegabs form fmt r t s
  | .fcnvff form conv r t => Sys2Proof.Machine.execFcnvff form conv r t s
  | .fcnvxf form sf df r t => Sys2Proof.Machine.execFcnvxf form sf df r t s
  | .fcnvfx form sf df r t => Sys2Proof.Machine.execFcnvfx form sf df r t s
  | .fcnvfxt form sf df r t => Sys2Proof.Machine.execFcnvfxt form sf df r t s
  | .fcnvuf form sf df r t => Sys2Proof.Machine.execFcnvuf form sf df r t s
  | .fcnvfu form sf df r t => Sys2Proof.Machine.execFcnvfu form sf df r t s
  | .fcnvfut form sf df r t => Sys2Proof.Machine.execFcnvfut form sf df r t s
  | .fcmp form fmt r1 r2 y c => Sys2Proof.Machine.execFcmp form fmt r1 r2 y c s
  | .ftest form fmt => Sys2Proof.Machine.execFtest form fmt s
  | .fadd form fmt r1 r2 t => Sys2Proof.Machine.execFadd form fmt r1 r2 t s
  | .fsub form fmt r1 r2 t => Sys2Proof.Machine.execFsub form fmt r1 r2 t s
  | .fmpy form fmt r1 r2 t => Sys2Proof.Machine.execFmpy form fmt r1 r2 t s
  | .fdiv form fmt r1 r2 t => Sys2Proof.Machine.execFdiv form fmt r1 r2 t s
  | .frem form fmt r1 r2 t => Sys2Proof.Machine.execFrem form fmt r1 r2 t s
  | .xmpyu fmt r1 r2 t => Sys2Proof.Machine.execXmpyu fmt r1 r2 t s
  | .fmpyadd fmt rm1 rm2 ta ra tm => Sys2Proof.Machine.execFmpyadd fmt rm1 rm2 ta ra tm s
  | .fmpysub fmt rm1 rm2 ta ra tm => Sys2Proof.Machine.execFmpysub fmt rm1 rm2 ta ra tm s
  | .fmpyfadd fmt rm1 rm2 ra t => Sys2Proof.Machine.execFmpyfadd fmt rm1 rm2 ra t s
  | .fmpynfadd fmt rm1 rm2 ra t => Sys2Proof.Machine.execFmpynfadd fmt rm1 rm2 ra t s
  | .fid => Sys2Proof.Machine.execFid s

end Sys2Proof.Machine
end

