-- ==== Sys2Proof/Machine/Queue.lean ====
section
/-! DEFINITION. The two entry points (70_reset_and_hazards.md R381): the dispatcher on one word (30_encoding.md R91, R93) and the
exception-queue decoder (60_exceptions.md R340 to R350). The decoder takes the open queue parameters as an argument
(R41, R341). -/

namespace Sys2Proof.Machine

/-- `dispatch(iw, fr, variant)` (R91, R93): one instruction, or UNIMPLEMENTED with nothing written. -/
def dispatchWord (iw : Word) (s : State) : Result :=
  match decode s.variant iw with
  | .ok i => exec i s
  | .error _ => .next s.unimplemented

/-! ## The destination of a slot's instruction (R346) -/

/-- A destination operand as the word it names. -/
def dstWord : DstOp → Option (Fin 64)
  | .word t => some t
  | .unimplemented => none
  | .queue => none

/-- A destination word with its format. -/
def floatDst (d : DstOp) (F : Fmt) : Option (Fin 64 × Fmt) := (dstWord d).map fun t => (t, F)

/-- The single float destination of an instruction (R346): classes 0 and 3, class 1 with a float destination, and 2E. -/
def floatDestOf : Instr → Option (Fin 64 × Fmt)
  | .fcpy form (.num F) _ t => floatDst (form.dst F t) F
  | .fcpy _ .quad _ _ => none
  | .fabs form (.num F) _ t => floatDst (form.dst F t) F
  | .fabs _ .quad _ _ => none
  | .fsqrt form F _ t => floatDst (form.dst F t) F
  | .frnd form F _ t => floatDst (form.dst F t) F
  | .fneg form (.num F) _ t => floatDst (form.dst F t) F
  | .fneg _ .quad _ _ => none
  | .fnegabs form (.num F) _ t => floatDst (form.dst F t) F
  | .fnegabs _ .quad _ _ => none
  | .fcnvff form .sglToDbl _ t => floatDst (form.dst .dbl t) .dbl
  | .fcnvff form .dblToSgl _ t => floatDst (form.dst .sgl t) .sgl
  | .fcnvxf form _ df _ t => floatDst (form.dst df t) df
  | .fcnvfx _ _ _ _ _ => none
  | .fcnvfxt _ _ _ _ _ => none
  | .fcnvuf form _ df _ t => floatDst (form.dst df t) df
  | .fcnvfu _ _ _ _ _ => none
  | .fcnvfut _ _ _ _ _ => none
  | .fcmp _ _ _ _ _ _ => none
  | .ftest _ _ => none
  | .fadd form F _ _ t => floatDst (form.dst F t) F
  | .fsub form F _ _ t => floatDst (form.dst F t) F
  | .fmpy form F _ _ t => floatDst (form.dst F t) F
  | .fdiv form F _ _ t => floatDst (form.dst F t) F
  | .frem form F _ _ t => floatDst (form.dst F t) F
  | .xmpyu _ _ _ _ => none
  | .fmpyadd _ _ _ _ _ _ => none
  | .fmpysub _ _ _ _ _ _ => none
  | .fmpyfadd F _ _ _ t => floatDst (dstOf (fusedIndex F t)) F
  | .fmpynfadd F _ _ _ t => floatDst (dstOf (fusedIndex F t)) F
  | .fid => none

/-- `dest(iw)` (R346); `none` where the rule refuses the slot. -/
def slotDest (v : Variant) (iw : Word) : Option (Fin 64 × Fmt) :=
  match decode v iw with
  | .ok i => floatDestOf i
  | .error _ => none

/-! ## One slot -/

/-- After a slot's test: go on with the next slot, or end the whole call. -/
inductive SlotStep where
  | proceed (s : State)
  | stop (r : Result)

/-- `TERM(sig, code)` (R350). -/
def term (s : State) (g : Signal) : SlotStep := .stop (.next (s.terminal g))

/-- `fr[k] <- 0` (R42). -/
def clearSlot (s : State) (k : Fin 64) : State := s.setWord k 0

/-- The end of a substitution (R343, R344): if the inexact trap is enabled the call ends with FPE_FLTRES, else I is set,
the slot cleared and the next one visited. -/
def slotInexact (s : State) (k : Fin 64) : SlotStep :=
  if enabled .I s.status then term s .fltRes
  else .proceed (clearSlot (s.setStatus (raiseFlag .I s.status)) k)

/-- The captured value of an UNDERFLOW slot that R343 admits: finite, nonzero, magnitude below `2^(emin + WRAP)`. -/
def underflowValue (F : Fmt) (w : Enc F) : Bool :=
  isFinite w && !isZero w && decide (absVal w < pow2 (F.emin + Config.wrap F))

/-- The captured value of an OVERFLOW slot that R344 admits: finite or an infinity. -/
def overflowValue (F : Fmt) (w : Enc F) : Bool := !isNaN (F := F) w

/-- The launch premise of a captured OVERFLOW or UNDERFLOW slot (R382): one whose instruction has its destination (R346)
and whose captured value `ok` admits (R343, R344) goes on with them; any other is refused. The refusal comes before the
trap enable (DEDUCED, log entry 24). -/
def withCaptured (s : State) (iw : Word) (ok : (F : Fmt) → Enc F → Bool)
    (k : Fin 64 → (F : Fmt) → Enc F → SlotStep) : SlotStep :=
  match slotDest s.variant iw with
  | none => .stop (.refused .slotDestination)
  | some (t, F) => if ok F (s.read F t) then k t F (s.read F t) else .stop (.refused .slotValue)

/-- UNDERFLOW and UNDERFLOW_INEXACT (R343): terminal if the trap is enabled, else the wrapped result of the slot's
destination is denormalised in place. -/
def underflowSlot (s : State) (k : Fin 64) (iw : Word) : SlotStep :=
  withCaptured s iw underflowValue fun t F w =>
    if enabled .U s.status then term s .fltUnd
    else
      let d := roundmag (.rat (absVal w * pow2 (-(Config.wrap F : Int)))) (F.emin - F.prec + 1) (signOf w) (rmOf s.status)
      let s' := s.write F t (enc F (signOf w) d.value)
      if d.inexact then slotInexact (s'.setStatus (raiseFlag .U s'.status)) k
      else .proceed (clearSlot s' k)

/-- OVERFLOW and OVERFLOW_INEXACT (R344): terminal if the trap is enabled, else the slot's destination receives the
overflow default. -/
def overflowSlot (s : State) (k : Fin 64) (iw : Word) : SlotStep :=
  withCaptured s iw overflowValue fun t F w =>
    if enabled .O s.status then term s .fltOvf
    else
      let s' := s.write F t (ovfDefault F (signOf w) (rmOf s.status))
      slotInexact (s'.setStatus (raiseFlag .O s'.status)) k

/-- The signal of a fused-multiply-add compound code (R345). -/
def fmaSignal : FmaKind → Signal
  | .invalid => .fltInv
  | .overflow => .fltOvf
  | .underflow => .fltUnd
  | .inexact => .fltRes
  | .overflowInexact => .fltOvf
  | .underflowInexact => .fltUnd

/-- A slot of a type other than UNIMPLEMENTED (R343 to R347). UNIMPLEMENTED here would be a re-tag of that type, which
R350 excludes. -/
def settleSlot (s : State) (k : Fin 64) (ty : ExcType) (iw : Word) : SlotStep :=
  match ty with
  | .none => .proceed (clearSlot s k)
  | .unimplemented => .stop (.fault .slotRetestBound)
  | .invalid => term s .fltInv
  | .divByZero => term s .fltDiv
  | .overflow => overflowSlot s k iw
  | .underflow => underflowSlot s k iw
  | .inexact => term s .fltRes
  | .overflowInexact => overflowSlot s k iw
  | .underflowInexact => underflowSlot s k iw
  | .fma j => term s (fmaSignal j)
  | .unrecognized => term s .illCoproc

/-- The signal of an OVERFLOW or UNDERFLOW type whose trap is enabled: "If `S.Oen = 1`: terminal" (R343, R344). -/
def enabledSignal (st : Word) (ty : ExcType) : Option Signal :=
  match ty with
  | .overflow | .overflowInexact => if enabled .O st then some .fltOvf else none
  | .underflow | .underflowInexact => if enabled .U st then some .fltUnd else none
  | .none | .unimplemented | .invalid | .divByZero | .inexact | .fma _ | .unrecognized => none

/-- A re-tagged slot (R342). Its destination holds what the engine itself has just delivered, possibly the free value of
R160, and is no captured value: an enabled trap ends the run whatever it holds (R343, R344; DEDUCED, log entry 24). -/
def settleRetagged (s : State) (k : Fin 64) (ty : ExcType) (iw : Word) : SlotStep :=
  match enabledSignal s.status ty with
  | some g => term s g
  | none => settleSlot s k ty iw

/-- The re-test of a slot after its re-tag (R342): the slot word is unpacked again. -/
def retestSlot (p : QueueParams) (s : State) (k : Fin 64) : SlotStep :=
  let (code, iw) := p.slotUnpack (s.word k)
  settleRetagged s k (p.excTypeOf code) iw

/-- UNIMPLEMENTED slot (R342): clear T, dispatch the slot's instruction again; a second UNIMPLEMENTED is terminal, any
other outcome re-tags the slot, which is tested again. -/
def redispatchSlot (p : QueueParams) (s : State) (k : Fin 64) (iw : Word) : SlotStep :=
  match dispatchWord iw (s.setT false) with
  | .next s' =>
    if s'.outcome = .unimplemented then term s' .illCoproc
    else retestSlot p (s'.setWord k (p.slotPack (p.codeOf s'.outcome (majorOf iw)) iw)) k
  | .fault r => .stop (.fault r)
  | .refused r => .stop (.refused r)

/-- One slot (R350). -/
def visitSlot (p : QueueParams) (s : State) (k : Fin 64) : SlotStep :=
  let (code, iw) := p.slotUnpack (s.word k)
  match p.excTypeOf code with
  | .unimplemented => redispatchSlot p s k iw
  | ty => settleSlot s k ty iw

/-! ## The whole decoder (R340, R350) -/

/-- Visit the slots of a list in order; after the last, T is cleared and "no signal" returned. -/
def visitSlots (p : QueueParams) : List (Fin 64) → State → Result
  | [], s => .next s.drained
  | k :: ks, s =>
    match visitSlot p s k with
    | .proceed s' => visitSlots p ks s'
    | .stop r => r

/-- The slots in arrival order: words 1 to 7 (R40, R340). -/
def slotOrder : List (Fin 64) := [1, 2, 3, 4, 5, 6, 7]

/-- `decode_queue(fr, variant)` (R350). -/
def decodeQueue (p : QueueParams) (s : State) : Result := visitSlots p slotOrder s

/-! ## Calls -/

/-- Run one call (R381). -/
def runCall (c : Call) (s : State) : Result :=
  match c with
  | .dispatch iw => dispatchWord iw s
  | .decodeQueue => decodeQueue Config.queue.val s

/-- The oldest pending call is taken and run; with none pending nothing happens (R67, R371; log entry 3). -/
def runNext (s : State) : Result :=
  match s.calls with
  | [] => .next s
  | c :: rest => runCall c { s with calls := rest }

/-- A dispatch call of word `w` put in front of the pending calls (log entry 3). -/
def issueFirst (s : State) (w : Word) : State := { s with calls := .dispatch w :: s.calls }

end Sys2Proof.Machine
end

