-- ==== Sys2Proof/Machine/Step.lean ====
section
/-! DEFINITION. One step of the machine is one whole call (00_scope.md R6; 70_reset_and_hazards.md R384, R387). -/

namespace Sys2Proof.Machine

/-- Run the oldest pending call. -/
def step (s : State) : Host.Outcome State Fault Refusal := runNext s

/-- The instruction word `w` placed where `step` takes its next instruction: a dispatch call in front of the pending
ones. Every instruction is one 32-bit word (R80), so `nbits` says nothing further. -/
def State.withFetchWord (s : State) (_nbits w : Nat) : State := issueFirst s (BitVec.ofNat 32 w)

end Sys2Proof.Machine
end

