-- ==== Sys2Proof/Machine/Assembler.lean ====
section
/-! DEFINITION. The assembler syntax of 30_encoding.md R102 with the mnemonics of 00_scope.md R17 and the condition
mnemonics of 45_compare.md R313. It gives an instruction its text; no other rule depends on it. -/

namespace Sys2Proof

/-- `SGL`, `DBL` (R102). -/
def Fmt.completer : Fmt → String
  | .sgl => "SGL"
  | .dbl => "DBL"

/-- `SGL`, `DBL`, `QUAD` (R102). -/
def MoveFmt.completer : MoveFmt → String
  | .num F => F.completer
  | .quad => "QUAD"

/-- `W`, `DW` for signed and `UW`, `UDW` for unsigned integers (R102). -/
def intCompleter (isSigned : Bool) : Fmt → String
  | .sgl => if isSigned then "W" else "UW"
  | .dbl => if isSigned then "DW" else "UDW"

/-- `%frN` (R102). -/
def regName (n : Nat) : String := "%fr" ++ toString n

/-- `%frN`, or `%frNL` and `%frNR` for a single operand of 0E or 2E (R102). -/
def selName (hasHalf : Bool) (F : Fmt) (r : RegSel) : String :=
  match hasHalf, F with
  | true, .sgl => regName r.fld ++ (if r.half then "R" else "L")
  | true, .dbl => regName r.fld
  | false, _ => regName r.fld

/-- Whether a numbering format has half-select bits (R87). -/
def Form.hasHalf : Form → Bool
  | .op0C => false
  | .op0E => true

/-- A register operand of a coprocessor format. -/
def Form.opnd (form : Form) (F : Fmt) (r : RegSel) : String := selName form.hasHalf F r

/-- A register operand of a multiple instruction: singles are FR16..FR31 with a half (R87). -/
def multiName (F : Fmt) (n : Fin 32) : String :=
  match F with
  | .sgl => selName true .sgl ⟨⟨16 + n.val % 16, by omega⟩, decide (16 ≤ n.val)⟩
  | .dbl => regName n

/-- The condition mnemonics (R313). -/
def condName (c : Fin 32) : String :=
  (["false?", "false", "?", "!<=>", "=", "=T", "?=", "!<>",
    "!?>=", "<", "?<", "!>=", "!?>", "<=", "?<=", "!>"] ++
   ["!?<=", ">", "?>", "!<=", "!?<", ">=", "?>=", "!<",
    "!?=", "<>", "!=", "!=T", "!?", "<=>", "true?", "true"]).getD c.val ""

/-- Operands separated by commas. -/
def commas (ops : List String) : String := ",".intercalate ops

/-- `MNEMONIC,completers operands` (R102). -/
def asmLine (mnemonic : String) (completers ops : List String) : String :=
  commas (mnemonic :: completers) ++ " " ++ commas ops

/-- A move's operand format; a quad move names registers as a double does. -/
def MoveFmt.opndFmt : MoveFmt → Fmt
  | .num F => F
  | .quad => .dbl

/-- Class 0 text. -/
def asmMove (m : String) (form : Form) (fmt : MoveFmt) (r t : RegSel) : String :=
  asmLine m [fmt.completer] [form.opnd fmt.opndFmt r, form.opnd fmt.opndFmt t]

/-- Class 0 kernel text. -/
def asmUnary (m : String) (form : Form) (F : Fmt) (r t : RegSel) : String :=
  asmLine m [F.completer] [form.opnd F r, form.opnd F t]

/-- Class 1 text with its two completers. -/
def asmConv (m : String) (form : Form) (cs cd : String) (sf df : Fmt) (r t : RegSel) : String :=
  asmLine m [cs, cd] [form.opnd sf r, form.opnd df t]

/-- Class 3 text. -/
def asmBinary (m : String) (form : Form) (F : Fmt) (r1 r2 t : RegSel) : String :=
  asmLine m [F.completer] [form.opnd F r1, form.opnd F r2, form.opnd F t]

/-- 06 and 26 text: `rm1,rm2,tm,ra,ta`. -/
def asmMulti (m : String) (F : Fmt) (rm1 rm2 ta ra tm : Fin 32) : String :=
  asmLine m [F.completer] [multiName F rm1, multiName F rm2, multiName F tm, multiName F ra, multiName F ta]

/-- 2E text: `rm1,rm2,ra,t`. -/
def asmFused (m : String) (F : Fmt) (rm1 rm2 ra t : RegSel) : String :=
  asmLine m [F.completer] [selName true F rm1, selName true F rm2, selName true F ra, selName true F t]

/-- The text of an instruction (R102). FID and FTEST have no operands in the rule's list. -/
def Instr.asm : Instr → String
  | .fcpy form fmt r t => asmMove "FCPY" form fmt r t
  | .fabs form fmt r t => asmMove "FABS" form fmt r t
  | .fsqrt form F r t => asmUnary "FSQRT" form F r t
  | .frnd form F r t => asmUnary "FRND" form F r t
  | .fneg form fmt r t => asmMove "FNEG" form fmt r t
  | .fnegabs form fmt r t => asmMove "FNEGABS" form fmt r t
  | .fcnvff form .sglToDbl r t => asmConv "FCNVFF" form "SGL" "DBL" .sgl .dbl r t
  | .fcnvff form .dblToSgl r t => asmConv "FCNVFF" form "DBL" "SGL" .dbl .sgl r t
  | .fcnvxf form sf df r t => asmConv "FCNVXF" form (intCompleter true sf) df.completer sf df r t
  | .fcnvfx form sf df r t => asmConv "FCNVFX" form sf.completer (intCompleter true df) sf df r t
  | .fcnvfxt form sf df r t => asmConv "FCNVFXT" form sf.completer (intCompleter true df) sf df r t
  | .fcnvuf form sf df r t => asmConv "FCNVUF" form (intCompleter false sf) df.completer sf df r t
  | .fcnvfu form sf df r t => asmConv "FCNVFU" form sf.completer (intCompleter false df) sf df r t
  | .fcnvfut form sf df r t => asmConv "FCNVFUT" form sf.completer (intCompleter false df) sf df r t
  | .fcmp form F r1 r2 _ c => asmLine "FCMP" [F.completer, condName c] [form.opnd F r1, form.opnd F r2]
  | .ftest _ _ => "FTEST"
  | .fadd form F r1 r2 t => asmBinary "FADD" form F r1 r2 t
  | .fsub form F r1 r2 t => asmBinary "FSUB" form F r1 r2 t
  | .fmpy form F r1 r2 t => asmBinary "FMPY" form F r1 r2 t
  | .fdiv form F r1 r2 t => asmBinary "FDIV" form F r1 r2 t
  | .frem form F r1 r2 t => asmBinary "FREM" form F r1 r2 t
  | .xmpyu F r1 r2 t => asmBinary "XMPYU" .op0E F r1 r2 t
  | .fmpyadd F rm1 rm2 ta ra tm => asmMulti "FMPYADD" F rm1 rm2 ta ra tm
  | .fmpysub F rm1 rm2 ta ra tm => asmMulti "FMPYSUB" F rm1 rm2 ta ra tm
  | .fmpyfadd F rm1 rm2 ra t => asmFused "FMPYFADD" F rm1 rm2 ra t
  | .fmpynfadd F rm1 rm2 ra t => asmFused "FMPYNFADD" F rm1 rm2 ra t
  | .fid => "FID"

end Sys2Proof
end

