-- ==== Sys2Proof/Safety.lean ====
section
/-! DEFINITION. The terms that claims about the machine are written in: which exceptions an outcome names, which bits of
the status word an instruction may change, which words it writes, what delivering a result leaves, and when a run is
safe. -/

namespace Sys2Proof

/-- The exception kinds an outcome names (R330). -/
def FpOutcome.names : FpOutcome → List Exc
  | .none => []
  | .invalid => [.V]
  | .divByZero => [.Z]
  | .overflow => [.O]
  | .underflow => [.U]
  | .inexact => [.I]
  | .unimplemented => []
  | .overflowInexact => [.O, .I]
  | .underflowInexact => [.U, .I]

/-- From `st` to `st'` no bit changes, but that a flag of `may` may have become 1 (R33, R36). -/
def OnlyRaises (may : List Exc) (st st' : Word) : Prop :=
  ∀ b, b < 32 → bitAt st' b = bitAt st b ∨ (bitAt st' b = true ∧ ∃ e ∈ may, b = e.flagBit)

/-- The flag-or-trap rule (R332): only flags of `may` are raised, and only those whose trap is disabled; the outcome names
only kinds of `report` whose trap is enabled and whose flag the call leaves alone, and is not UNIMPLEMENTED. -/
structure FlagOrTrap (may report : List Exc) (st : Word) (o : FpOutcome) (st' : Word) : Prop where
  raises : OnlyRaises may st st'
  raisedDisabled : ∀ e, flagSet e st = false → flagSet e st' = true → enabled e st = false
  named : ∀ e ∈ o.names, e ∈ report ∧ enabled e st = true ∧ flagSet e st' = flagSet e st
  implemented : o ≠ .unimplemented

/-- The flags an instruction's rule names (the "Flags" lines of 41_moves.md to 45_compare.md). -/
def Instr.mayRaise : Instr → List Exc
  | .fcpy _ _ _ _ => []
  | .fabs _ _ _ _ => []
  | .fsqrt _ _ _ _ => [.V, .I]
  | .frnd _ _ _ _ => [.V, .I]
  | .fneg _ _ _ _ => []
  | .fnegabs _ _ _ _ => []
  | .fcnvff _ .sglToDbl _ _ => [.V]
  | .fcnvff _ .dblToSgl _ _ => [.V, .O, .U, .I]
  | .fcnvxf _ _ _ _ _ => [.I]
  | .fcnvfx _ _ _ _ _ => [.V, .I]
  | .fcnvfxt _ _ _ _ _ => [.V, .I]
  | .fcnvuf _ _ _ _ _ => [.I]
  | .fcnvfu _ _ _ _ _ => [.V, .I]
  | .fcnvfut _ _ _ _ _ => [.V, .I]
  | .fcmp _ _ _ _ _ _ => [.V]
  | .ftest _ _ => []
  | .fadd _ _ _ _ _ => [.V, .O, .U, .I]
  | .fsub _ _ _ _ _ => [.V, .O, .U, .I]
  | .fmpy _ _ _ _ _ => [.V, .O, .U, .I]
  | .fdiv _ _ _ _ _ => [.V, .Z, .O, .U, .I]
  | .frem _ _ _ _ _ => [.V]
  | .xmpyu _ _ _ _ => []
  | .fmpyadd _ _ _ _ _ _ => [.V, .O, .U, .I]
  | .fmpysub _ _ _ _ _ _ => [.V, .O, .U, .I]
  | .fmpyfadd _ _ _ _ _ => [.V, .O, .U, .I]
  | .fmpynfadd _ _ _ _ _ => [.V, .O, .U, .I]
  | .fid => []

/-- The exception kinds an instruction may report in its outcome (R331, R335): those of its flags, but FREM reports
UNDERFLOW without ever setting U (R225) and the multiple instructions report none (R262). -/
def Instr.mayReport : Instr → List Exc
  | .frem _ _ _ _ _ => [.V, .U]
  | .fmpyadd _ _ _ _ _ _ => []
  | .fmpysub _ _ _ _ _ _ => []
  | .fcpy f m r t => (Instr.fcpy f m r t).mayRaise
  | .fabs f m r t => (Instr.fabs f m r t).mayRaise
  | .fsqrt f m r t => (Instr.fsqrt f m r t).mayRaise
  | .frnd f m r t => (Instr.frnd f m r t).mayRaise
  | .fneg f m r t => (Instr.fneg f m r t).mayRaise
  | .fnegabs f m r t => (Instr.fnegabs f m r t).mayRaise
  | .fcnvff f c r t => (Instr.fcnvff f c r t).mayRaise
  | .fcnvxf f a b r t => (Instr.fcnvxf f a b r t).mayRaise
  | .fcnvfx f a b r t => (Instr.fcnvfx f a b r t).mayRaise
  | .fcnvfxt f a b r t => (Instr.fcnvfxt f a b r t).mayRaise
  | .fcnvuf f a b r t => (Instr.fcnvuf f a b r t).mayRaise
  | .fcnvfu f a b r t => (Instr.fcnvfu f a b r t).mayRaise
  | .fcnvfut f a b r t => (Instr.fcnvfut f a b r t).mayRaise
  | .fcmp f m r1 r2 y c => (Instr.fcmp f m r1 r2 y c).mayRaise
  | .ftest f m => (Instr.ftest f m).mayRaise
  | .fadd f m r1 r2 t => (Instr.fadd f m r1 r2 t).mayRaise
  | .fsub f m r1 r2 t => (Instr.fsub f m r1 r2 t).mayRaise
  | .fmpy f m r1 r2 t => (Instr.fmpy f m r1 r2 t).mayRaise
  | .fdiv f m r1 r2 t => (Instr.fdiv f m r1 r2 t).mayRaise
  | .xmpyu m r1 r2 t => (Instr.xmpyu m r1 r2 t).mayRaise
  | .fmpyfadd m a b c t => (Instr.fmpyfadd m a b c t).mayRaise
  | .fmpynfadd m a b c t => (Instr.fmpynfadd m a b c t).mayRaise
  | .fid => []

/-- Whether an instruction is FCMP, the only one that writes C (R35). -/
def Instr.isCompare : Instr → Bool
  | .fcmp _ _ _ _ _ _ => true
  | .fcpy _ _ _ _ => false
  | .fabs _ _ _ _ => false
  | .fsqrt _ _ _ _ => false
  | .frnd _ _ _ _ => false
  | .fneg _ _ _ _ => false
  | .fnegabs _ _ _ _ => false
  | .fcnvff _ _ _ _ => false
  | .fcnvxf _ _ _ _ _ => false
  | .fcnvfx _ _ _ _ _ => false
  | .fcnvfxt _ _ _ _ _ => false
  | .fcnvuf _ _ _ _ _ => false
  | .fcnvfu _ _ _ _ _ => false
  | .fcnvfut _ _ _ _ _ => false
  | .ftest _ _ => false
  | .fadd _ _ _ _ _ => false
  | .fsub _ _ _ _ _ => false
  | .fmpy _ _ _ _ _ => false
  | .fdiv _ _ _ _ _ => false
  | .frem _ _ _ _ _ => false
  | .xmpyu _ _ _ _ => false
  | .fmpyadd _ _ _ _ _ _ => false
  | .fmpysub _ _ _ _ _ _ => false
  | .fmpyfadd _ _ _ _ _ => false
  | .fmpynfadd _ _ _ _ _ => false
  | .fid => false

/-- The words an operand of a format at index `i` occupies (R12, R23). -/
def operandWords (F : Fmt) (i : Fin 64) : List (Fin 64) :=
  match F with
  | .sgl => [i]
  | .dbl => [i, i + 1]

/-- The words a destination operand names; none when the instruction writes nothing (R92, R98). -/
def dstWords (F : Fmt) (d : DstOp) : List (Fin 64) :=
  match d with
  | .word i => operandWords F i
  | .unimplemented => []
  | .queue => []

/-- The data words an instruction writes, from the same operand decoding its meaning uses (R87, R94, R95, R260, R264). -/
def Instr.writes : Instr → List (Fin 64)
  | .fcpy form (.num F) _ t => dstWords F (form.dst F t)
  | .fcpy _ .quad _ _ => []
  | .fabs form (.num F) _ t => dstWords F (form.dst F t)
  | .fabs _ .quad _ _ => []
  | .fsqrt form F _ t => dstWords F (form.dst F t)
  | .frnd form F _ t => dstWords F (form.dst F t)
  | .fneg form (.num F) _ t => dstWords F (form.dst F t)
  | .fneg _ .quad _ _ => []
  | .fnegabs form (.num F) _ t => dstWords F (form.dst F t)
  | .fnegabs _ .quad _ _ => []
  | .fcnvff form .sglToDbl _ t => dstWords .dbl (form.dst .dbl t)
  | .fcnvff form .dblToSgl _ t => dstWords .sgl (form.dst .sgl t)
  | .fcnvxf form _ df _ t => dstWords df (form.dst df t)
  | .fcnvfx form _ df _ t => dstWords df (form.dst df t)
  | .fcnvfxt form _ df _ t => dstWords df (form.dst df t)
  | .fcnvuf form _ df _ t => dstWords df (form.dst df t)
  | .fcnvfu form _ df _ t => dstWords df (form.dst df t)
  | .fcnvfut form _ df _ t => dstWords df (form.dst df t)
  | .fcmp _ _ _ _ _ _ => []
  | .ftest _ _ => []
  | .fadd form F _ _ t => dstWords F (form.dst F t)
  | .fsub form F _ _ t => dstWords F (form.dst F t)
  | .fmpy form F _ _ t => dstWords F (form.dst F t)
  | .fdiv form F _ _ t => dstWords F (form.dst F t)
  | .frem form F _ _ t => dstWords F (form.dst F t)
  | .xmpyu _ _ _ _ => []
  | .fmpyadd F _ _ ta _ tm => operandWords F (multiIndex F tm) ++ operandWords F (multiIndex F ta)
  | .fmpysub F _ _ ta _ tm => operandWords F (multiIndex F tm) ++ operandWords F (multiIndex F ta)
  | .fmpyfadd F _ _ _ t => dstWords F (dstOf (fusedIndex F t))
  | .fmpynfadd F _ _ _ t => dstWords F (dstOf (fusedIndex F t))
  | .fid => []

/-- The destination indices before any double alignment (R87, R92). -/
def Instr.dstIndices : Instr → List (Fin 64)
  | .fcpy form _ _ t => [form.dstIndex t]
  | .fabs form _ _ t => [form.dstIndex t]
  | .fsqrt form _ _ t => [form.dstIndex t]
  | .frnd form _ _ t => [form.dstIndex t]
  | .fneg form _ _ t => [form.dstIndex t]
  | .fnegabs form _ _ t => [form.dstIndex t]
  | .fcnvff form _ _ t => [form.dstIndex t]
  | .fcnvxf form _ _ _ t => [form.dstIndex t]
  | .fcnvfx form _ _ _ t => [form.dstIndex t]
  | .fcnvfxt form _ _ _ t => [form.dstIndex t]
  | .fcnvuf form _ _ _ t => [form.dstIndex t]
  | .fcnvfu form _ _ _ t => [form.dstIndex t]
  | .fcnvfut form _ _ _ t => [form.dstIndex t]
  | .fcmp _ _ _ _ _ _ => []
  | .ftest _ _ => []
  | .fadd form _ _ _ t => [form.dstIndex t]
  | .fsub form _ _ _ t => [form.dstIndex t]
  | .fmpy form _ _ _ t => [form.dstIndex t]
  | .fdiv form _ _ _ t => [form.dstIndex t]
  | .frem form _ _ _ t => [form.dstIndex t]
  | .xmpyu _ _ _ t => [Form.op0E.dstIndex t]
  | .fmpyadd F _ _ ta _ tm => [multiIndex F tm, multiIndex F ta]
  | .fmpysub F _ _ ta _ tm => [multiIndex F tm, multiIndex F ta]
  | .fmpyfadd F _ _ _ t => [fusedIndex F t]
  | .fmpynfadd F _ _ _ t => [fusedIndex F t]
  | .fid => []

/-- The destination indices after double alignment, of the forms that write one (R95, R98): none for XMPYU and the quad
moves. -/
def Instr.alignedDsts : Instr → List (Fin 64)
  | .fcpy form (.num F) _ t => [form.aligned F t]
  | .fcpy _ .quad _ _ => []
  | .fabs form (.num F) _ t => [form.aligned F t]
  | .fabs _ .quad _ _ => []
  | .fsqrt form F _ t => [form.aligned F t]
  | .frnd form F _ t => [form.aligned F t]
  | .fneg form (.num F) _ t => [form.aligned F t]
  | .fneg _ .quad _ _ => []
  | .fnegabs form (.num F) _ t => [form.aligned F t]
  | .fnegabs _ .quad _ _ => []
  | .fcnvff form .sglToDbl _ t => [form.aligned .dbl t]
  | .fcnvff form .dblToSgl _ t => [form.aligned .sgl t]
  | .fcnvxf form _ df _ t => [form.aligned df t]
  | .fcnvfx form _ df _ t => [form.aligned df t]
  | .fcnvfxt form _ df _ t => [form.aligned df t]
  | .fcnvuf form _ df _ t => [form.aligned df t]
  | .fcnvfu form _ df _ t => [form.aligned df t]
  | .fcnvfut form _ df _ t => [form.aligned df t]
  | .fcmp _ _ _ _ _ _ => []
  | .ftest _ _ => []
  | .fadd form F _ _ t => [form.aligned F t]
  | .fsub form F _ _ t => [form.aligned F t]
  | .fmpy form F _ _ t => [form.aligned F t]
  | .fdiv form F _ _ t => [form.aligned F t]
  | .frem form F _ _ t => [form.aligned F t]
  | .xmpyu _ _ _ _ => []
  | .fmpyadd F _ _ ta _ tm => [multiIndex F tm, multiIndex F ta]
  | .fmpysub F _ _ ta _ tm => [multiIndex F tm, multiIndex F ta]
  | .fmpyfadd F _ _ _ t => [fusedIndex F t]
  | .fmpynfadd F _ _ _ t => [fusedIndex F t]
  | .fid => []

/-- The source operands of an instruction that reads any (R87, R88, R94, R95). -/
def Instr.sources : Instr → List SrcOp
  | .fcpy form (.num F) r _ => [form.src F r]
  | .fcpy _ .quad _ _ => []
  | .fabs form (.num F) r _ => [form.src F r]
  | .fabs _ .quad _ _ => []
  | .fsqrt form F r _ => [form.src F r]
  | .frnd form F r _ => [form.src F r]
  | .fneg form (.num F) r _ => [form.src F r]
  | .fneg _ .quad _ _ => []
  | .fnegabs form (.num F) r _ => [form.src F r]
  | .fnegabs _ .quad _ _ => []
  | .fcnvff form .sglToDbl r _ => [form.src .sgl r]
  | .fcnvff form .dblToSgl r _ => [form.src .dbl r]
  | .fcnvxf form sf _ r _ => [form.src sf r]
  | .fcnvfx form sf _ r _ => [form.src sf r]
  | .fcnvfxt form sf _ r _ => [form.src sf r]
  | .fcnvuf form sf _ r _ => [form.src sf r]
  | .fcnvfu form sf _ r _ => [form.src sf r]
  | .fcnvfut form sf _ r _ => [form.src sf r]
  | .fcmp form F r1 r2 _ _ => [form.src F r1, form.src F r2]
  | .ftest _ _ => []
  | .fadd form F r1 r2 _ => [form.src F r1, form.src F r2]
  | .fsub form F r1 r2 _ => [form.src F r1, form.src F r2]
  | .fmpy form F r1 r2 _ => [form.src F r1, form.src F r2]
  | .fdiv form F r1 r2 _ => [form.src F r1, form.src F r2]
  | .frem form F r1 r2 _ => [form.src F r1, form.src F r2]
  | .xmpyu _ _ _ _ => []
  | .fmpyadd F rm1 rm2 _ _ _ => [srcOf (multiIndex F rm1), srcOf (multiIndex F rm2)]
  | .fmpysub F rm1 rm2 _ _ _ => [srcOf (multiIndex F rm1), srcOf (multiIndex F rm2)]
  | .fmpyfadd F a b c _ => [srcOf (fusedIndex F a), srcOf (fusedIndex F b), srcOf (fusedIndex F c)]
  | .fmpynfadd F a b c _ => [srcOf (fusedIndex F a), srcOf (fusedIndex F b), srcOf (fusedIndex F c)]
  | .fid => []

/-- The double form of a multiple instruction with `ra` field 0 (R265). -/
def Instr.raZero : Instr → Bool
  | .fmpyadd F _ _ _ ra _ => F == .dbl && ra == 0
  | .fmpysub F _ _ _ ra _ => F == .dbl && ra == 0
  | .fcpy _ _ _ _ => false
  | .fabs _ _ _ _ => false
  | .fsqrt _ _ _ _ => false
  | .frnd _ _ _ _ => false
  | .fneg _ _ _ _ => false
  | .fnegabs _ _ _ _ => false
  | .fcnvff _ _ _ _ => false
  | .fcnvxf _ _ _ _ _ => false
  | .fcnvfx _ _ _ _ _ => false
  | .fcnvfxt _ _ _ _ _ => false
  | .fcnvuf _ _ _ _ _ => false
  | .fcnvfu _ _ _ _ _ => false
  | .fcnvfut _ _ _ _ _ => false
  | .fcmp _ _ _ _ _ _ => false
  | .ftest _ _ => false
  | .fadd _ _ _ _ _ => false
  | .fsub _ _ _ _ _ => false
  | .fmpy _ _ _ _ _ => false
  | .fdiv _ _ _ _ _ => false
  | .frem _ _ _ _ _ => false
  | .xmpyu _ _ _ _ => false
  | .fmpyfadd _ _ _ _ _ => false
  | .fmpynfadd _ _ _ _ _ => false
  | .fid => false

/-- The bits of an instruction word the decoder does not read (R99). -/
def ignoredBits (v : Variant) (w : Word) : List Nat :=
  let bit14 : List Nat := if v = .pa11 then [14] else []
  let bit26 : List Nat := if v = .pa11 then [26] else []
  match field w 0 5, field w 21 22 with
  | 0x0C, 0 => [11, 12, 13, 14, 15, 23, 24, 25, 26]
  | 0x0C, 1 => [11, 12, 13] ++ bit14 ++ [23, 24, 25, 26]
  | 0x0C, 2 => [23, 24, 25] ++ bit26
  | 0x0C, 3 => [23, 24, 25, 26]
  | 0x0E, 0 => [11, 12, 13, 14, 15, 23, 26]
  | 0x0E, 1 => [11, 12, 13] ++ bit14 ++ [23, 26]
  | 0x0E, 2 => [23, 25] ++ bit26
  | 0x0E, 3 => if field w 16 18 = 2 then [26] else [23, 26]
  | _, _ => []

/-! ## What a kernel result must be -/

/-- `u` is the real magnitude `a` rounded to a multiple of `2^q` in mode `m`, the sign being `s` (R150). At most one `u`
is. -/
structure IsRounding (m : RMode) (s : Bool) (q : Int) (a : ℝ) (u : ℚ) : Prop where
  multiple : ∃ k : Nat, u = k * pow2 q
  near : |(u : ℝ) - a| < (pow2 q : ℚ)
  nearest : m = .rn → |(u : ℝ) - a| ≤ (pow2 q / 2 : ℚ)
  even : m = .rn → |(u : ℝ) - a| = (pow2 q / 2 : ℚ) → ∃ k : Nat, u = (2 * k : Nat) * pow2 q
  towardZero : m = .rz → (u : ℝ) ≤ a
  towardPlus : m = .rp → if s = true then (u : ℝ) ≤ a else a ≤ (u : ℝ)
  towardMinus : m = .rmi → if s = true then a ≤ (u : ℝ) else (u : ℝ) ≤ a

/-- A result `x` that is inexact when `ix` (`inexact_only` of R151; R157), `st` being the status word so far. -/
def IsRounded {F : Fmt} (st : Word) (x : Enc F) (ix : Prop) (k : KResult F) : Prop :=
  k.res = x ∧
  (¬ ix → k.outcome = .none ∧ k.status = st) ∧
  (ix → enabled .I st = true → k.outcome = .inexact ∧ k.status = st) ∧
  (ix → enabled .I st = false → k.outcome = .none ∧ k.status = raiseFlag .I st)

/-- A result with no exception: value `x`, NONE, status unchanged. -/
def IsClean {F : Fmt} (st : Word) (x : Enc F) (k : KResult F) : Prop :=
  k.res = x ∧ k.outcome = .none ∧ k.status = st

/-- The invalid operation with default `dflt` (R165); trapped, nothing is said of the result. -/
def IsInvalid {F : Fmt} (st : Word) (dflt : Enc F) (k : KResult F) : Prop :=
  (enabled .V st = true → k.outcome = .invalid ∧ k.status = st) ∧
  (enabled .V st = false → k.res = dflt ∧ k.outcome = .none ∧ k.status = raiseFlag .V st)

/-- Division by zero with the infinity of sign `s` (R166); trapped, nothing is said of the result. -/
def IsDivZero {F : Fmt} (st : Word) (s : Bool) (k : KResult F) : Prop :=
  (enabled .Z st = true → k.outcome = .divByZero ∧ k.status = st) ∧
  (enabled .Z st = false → k.res = infOf F s ∧ k.outcome = .none ∧ k.status = raiseFlag .Z st)

/-- The finish of an exact result (R151): for an unstated wrapped value (R160), some free value. -/
def IsFinished {F : Fmt} (st : Word) (r : ℚ) (zs : Bool) (k : KResult F) : Prop :=
  ∃ u, k = finish F st u r zs

/-- No operand of a list is a NaN. -/
def noNaN {F : Fmt} (ops : List (Enc F)) : Bool := ops.all fun x => !isNaN x

/-- The NaN rule (R146, R144): with a signaling operand the first one, quieted, by the invalid operation (the quieted value
open where only the signaling bit is set); otherwise the first quiet one, unchanged. -/
def IsNanResult {F : Fmt} (st : Word) (ops : List (Enc F)) (k : KResult F) : Prop :=
  (∀ x, ops.find? isSNaN = some x →
    ∃ q : Enc F, (fracOf x ≠ 2 ^ (F.fbits - 1) → q = x &&& ~~~ sigMask F) ∧ IsInvalid st q k) ∧
  (∀ x, ops.find? isSNaN = none → ops.find? isQNaN = some x → IsClean st x k)

namespace Machine

/-- The value a source operand reads: Z is zero (R24), a word or pair is read (R25), the refused form reads nothing
(R98). -/
def srcVal (s : State) (F : Fmt) : SrcOp → Option (Enc F)
  | .zero => some 0
  | .word i => some (s.read F i)
  | .status => none

/-- What delivering a kernel's result to `d` leaves (R220): the result in the destination, the kernel's status word and
outcome, and every other word, the variant and the pending calls as they were. -/
structure Delivered (s t : State) {F : Fmt} (d : Fin 64) (k : KResult F) : Prop where
  result : t.read F d = k.res
  status : t.status = k.status
  outcome : t.returned = .outcome k.outcome
  others : ∀ i, i ≠ 0 → i ∉ operandWords F d → t.word i = s.word i
  variant : t.variant = s.variant
  calls : t.calls = s.calls

/-- Nothing is written: the register file, the variant and the pending calls are as they were. -/
structure WritesNothing (s t : State) : Prop where
  words : ∀ i, t.word i = s.word i
  variant : t.variant = s.variant
  calls : t.calls = s.calls

/-- `exec i s` completes and delivers to `d` a result of which `P` holds. -/
def CompletesWith (i : Instr) (s : State) (F : Fmt) (d : Fin 64) (P : KResult F → Prop) : Prop :=
  ∃ (t : State) (k : KResult F), exec i s = .next t ∧ Delivered s t d k ∧ P k

/-- `exec i s` returns UNIMPLEMENTED having written nothing (R91, R334). -/
def CompletesUnimplemented (i : Instr) (s : State) : Prop :=
  ∃ t, exec i s = .next t ∧ t.returned = .outcome .unimplemented ∧ WritesNothing s t

/-- What the status word of `s` keeps of an earlier status word `r` under variant `v`, whatever ran between: the variant;
no sticky flag lost (R33); RM, the enables and the reserved bits as they were (R27, R30, R36); under PA11 bits 6..20
too (R30, R316). -/
structure StatusSince (v : Variant) (r : Word) (s : State) : Prop where
  variant : s.variant = v
  sticky : ∀ e, flagSet e r = true → flagSet e s.status = true
  mode : ∀ b, 21 ≤ b → b < 32 → b ≠ tBit → bitAt s.status b = bitAt r b
  other : v = .pa11 → ∀ b, 6 ≤ b → b ≤ 20 → bitAt s.status b = bitAt r b

/-- The exception type of slot `k` (R41). -/
def slotType (p : QueueParams) (s : State) (k : Fin 64) : ExcType := p.excTypeOf (p.slotUnpack (s.word k)).1

/-- The instruction word of slot `k` (R41). -/
def slotInstr (p : QueueParams) (s : State) (k : Fin 64) : Word := (p.slotUnpack (s.word k)).2

/-- Slot `k` is one of words 1 to 7 (R40). -/
def isSlot (k : Fin 64) : Prop := 1 ≤ k.val ∧ k.val ≤ 7

/-- What `TERM` leaves (R349, R350): the signal value, T set, everything else as it was. -/
structure Terminated (s t : State) (g : Signal) : Prop where
  signal : t.returned = .signal (BitVec.ofNat 32 (g.sig * 2 ^ 24 + g.code))
  pending : bitAt t.status tBit = true
  status : ∀ b, b < 32 → b ≠ tBit → bitAt t.status b = bitAt s.status b
  words : ∀ i, i ≠ 0 → t.word i = s.word i
  variant : t.variant = s.variant
  calls : t.calls = s.calls

/-- A safe result: not a fault. -/
def Safe (r : Result) : Prop := ∀ f, r ≠ .fault f

end Machine

end Sys2Proof
end

