-- ==== Sys2Proof/Certificates/Slice0/Obligations.lean ====
section
/-! DEFINITION. The statements for the provers, one `def Obligations.<Name> : Prop` each, in the order of OBLIGATIONS.json. A
docstring names the rule a statement formalises; where it says "the model's choice" the clause rests on a log entry. -/

open Sys2Proof Sys2Proof.Machine

/-! ## Encoding -/

/-- R82 to R86: under either variant, decoding the encoder's word of a well-formed instruction gives it back, with every
operand at every value the encoding admits. -/
def Obligations.DecodeOfEncode : Prop :=
  ∀ (v : Variant) (i : Instr), i.wf v = true → decode v (encode v i) = .ok i

/-- R82 to R84, R87, R311: what the decoder gives is well-formed, for every word. -/
def Obligations.DecodedIsWellFormed : Prop :=
  ∀ (v : Variant) (w : Word) (i : Instr), decode v w = .ok i → i.wf v = true

/-- A few of the decode vectors of 95_test_vectors.md (T-D1, T-D3, T-D4, T-D6, T-D8, T-D9, T-D12, T-D18, T-D19), the words
written out bit by bit from R82, R83, R85, R86. -/
def Obligations.KnownWordsDecode : Prop :=
  decode .pa20 0b00110000100001010000111000000110#32 = .ok (.fadd .op0C .dbl ⟨4, false⟩ ⟨5, false⟩ ⟨6, false⟩) ∧
  decode .pa20 0b00111000100001010101011011000110#32 = .ok (.fmpy .op0E .sgl ⟨4, true⟩ ⟨5, true⟩ ⟨6, true⟩) ∧
  decode .pa11 0b00110001000000001000100000001001#32 = .ok (.fsqrt .op0C .dbl ⟨8, false⟩ ⟨9, false⟩) ∧
  decode .pa20 0b00111000100000010000101001000110#32 = .ok (.fcnvfx .op0E .dbl .sgl ⟨4, false⟩ ⟨6, true⟩) ∧
  decode .pa11 0b00111000100001010000010010000100#32 = .ok (.fcmp .op0E .sgl ⟨4, true⟩ ⟨5, false⟩ 0 4) ∧
  decode .pa20 0b00011000100001010011000111001000#32 = .ok (.fmpyadd .dbl 4 5 6 7 8) ∧
  decode .pa20 0b10111000100001010010110000100111#32 =
    .ok (.fmpynfadd .dbl ⟨4, false⟩ ⟨5, false⟩ ⟨6, false⟩ ⟨7, false⟩) ∧
  decode .pa11 0b00110000100000101010001000000110#32 = .ok (.fcnvxf .op0C .sgl .dbl ⟨4, false⟩ ⟨6, false⟩) ∧
  decode .pa20 0b00110000100000101010001000000110#32 = .ok (.fcnvuf .op0C .sgl .dbl ⟨4, false⟩ ⟨6, false⟩) ∧
  decode .pa20 0b00110000000000000000000000000000#32 = .ok .fid

/-- R99: two words, neither the FID word (R94), that differ only in bits the decoder does not read decode alike. -/
def Obligations.IgnoredBitsDecodeAlike : Prop :=
  ∀ (v : Variant) (w w' : Word), w ≠ 0x30000000#32 → w' ≠ 0x30000000#32 →
    (∀ b, b < 32 → b ∉ ignoredBits v w → bitAt w' b = bitAt w b) → decode v w' = decode v w

/-- R81, R84, R91, R94, R95, R96, R289: the words that are no instruction. The dispatcher returns UNIMPLEMENTED for each of
them and writes nothing. -/
def Obligations.ReservedEncodingsAreUnimplemented : Prop :=
  ∀ (s : State) (w : Word),
    let op := field w 0 5
    let cop := op = 0x0C ∨ op = 0x0E
    let cls := field w 21 22
    let sub := field w 16 18
    let fmt := field w 19 20
    let df := field w 17 18
    ((op ≠ 0x0C ∧ op ≠ 0x0E ∧ op ≠ 0x06 ∧ op ≠ 0x26 ∧ op ≠ 0x2E) ∨
      (cop ∧ cls = 0 ∧ w ≠ 0x30000000#32 ∧ (sub < 2 ∨ fmt = 2 ∨ ((sub = 4 ∨ sub = 5) ∧ fmt = 3))) ∨
      (cop ∧ cls = 1 ∧ (2 ≤ fmt ∨ 2 ≤ df ∨ (s.variant = .pa20 ∧ field w 14 16 = 4) ∨
        (s.variant = .pa20 ∧ field w 14 16 = 0 ∧ fmt = df) ∨ (s.variant = .pa11 ∧ field w 15 16 = 0 ∧ fmt = df))) ∨
      (cop ∧ cls = 2 ∧ s.variant = .pa11 ∧ 2 ≤ sub) ∨
      (op = 0x0C ∧ cls = 2 ∧ 2 ≤ fmt ∧ (s.variant = .pa20 → bitAt w 26 = false) ∧ (s.variant = .pa11 → sub = 0)) ∨
      (cop ∧ cls = 3 ∧ 5 ≤ sub) ∨ (op = 0x0C ∧ cls = 3 ∧ 2 ≤ fmt)) →
    ∃ t, dispatchWord w s = .next t ∧ t.returned = .outcome .unimplemented ∧ WritesNothing s t

/-! ## Steps and calls -/

/-- R91, R381: when the oldest pending call is a dispatch whose word decodes to `i`, a step is `exec i` with that call
taken; and `withFetchWord` makes a word the next instruction. That calls wait in a list is the model's choice (log
entry 3). -/
def Obligations.StepRunsDecodedInstruction : Prop :=
  (∀ (s : State) (w : Word) (rest : List Call) (i : Instr), s.calls = .dispatch w :: rest →
    decode s.variant w = .ok i → step s = exec i { s with calls := rest }) ∧
  (∀ (s : State) (n w : Nat) (i : Instr), decode s.variant (BitVec.ofNat 32 w) = .ok i →
    step (s.withFetchWord n w) = exec i s)

/-- R91, R381: the other steps: a word that is no instruction returns UNIMPLEMENTED; a queue call runs the decoder with
this machine's (open, lawful) parameters; with no call pending nothing changes (the model's choice, log entry 3). -/
def Obligations.StepRunsOldestCall : Prop :=
  (∀ (s : State) (w : Word) (rest : List Call) (e : Reject), s.calls = .dispatch w :: rest →
    decode s.variant w = .error e → step s = .next ({ s with calls := rest } : State).unimplemented) ∧
  (∀ (s : State) (rest : List Call), s.calls = .decodeQueue :: rest →
    step s = decodeQueue Config.queue.val { s with calls := rest }) ∧
  Config.queue.val.Lawful ∧
  (∀ s : State, s.calls = [] → step s = .next s)

/-- The start state. The block has no reset (R48, R380): the zero words, PA20, no call and no returned value are the
model's choices (log entries 1 to 4). -/
def Obligations.ResetStateValues : Prop :=
  (∀ i : Fin 64, State.reset.word i = 0#32) ∧ State.reset.variant = .pa20 ∧ State.reset.calls = [] ∧
    State.reset.returned = .nothing

/-- The start state meets the invariant of `StepKeepsStatusSince` (rests on log entries 1 and 2, the model's choices). -/
def Obligations.ResetStatusSince : Prop := StatusSince .pa20 0#32 State.reset

/-- R27, R30, R33, R36, R316: a step of any kind, a whole queue run included, loses no sticky flag of the status word and
changes neither RM, nor an enable, nor a reserved bit, nor (under PA11) bits 6..20, nor the variant. -/
def Obligations.StepKeepsStatusSince : Prop :=
  ∀ (v : Variant) (r : Word) (s t : State), StatusSince v r s → step s = .next t → StatusSince v r t

/-! ## Frames and outcomes of every instruction -/

/-- R20, R27, R36, R47: an instruction that completes changes no word but the status word and the words of its destinations,
none of them a slot (R25), keeps the variant and the pending calls, and ends with an outcome. -/
def Obligations.InstructionWordFrame : Prop :=
  ∀ (i : Instr) (s t : State), exec i s = .next t →
    (∀ j, j ≠ 0 → j ∉ i.writes → t.word j = s.word j) ∧
    (∀ j, isSlot j → t.word j = s.word j) ∧
    t.variant = s.variant ∧ t.calls = s.calls ∧ ∃ o, t.returned = .outcome o

/-- R27, R30, R33, R34, R35, R36, R316: an instruction that completes changes no bit of the status word but, from 0 to 1,
the flags its rule names; FCMP also C and, under PA20, bits 6..20. -/
def Obligations.InstructionStatusFrame : Prop :=
  ∀ (i : Instr) (s t : State), exec i s = .next t →
    (i.isCompare = false → OnlyRaises i.mayRaise s.status t.status) ∧
    (i.isCompare = true → ∀ b, b < 32 → b ≠ cBit → ¬ (s.variant = .pa20 ∧ 6 ≤ b ∧ b ≤ 20) →
      bitAt t.status b = bitAt s.status b ∨ (b = Exc.V.flagBit ∧ bitAt t.status b = true))

/-- R167, R331, R332, R335: an outcome names only exceptions the instruction can raise and whose trap was enabled at the
start, and their flags are not set by it; a flag is raised only when its trap was disabled. -/
def Obligations.FlagOrTrapOfEveryInstruction : Prop :=
  ∀ (i : Instr) (s t : State), exec i s = .next t →
    (∀ e ∈ t.outcome.names, e ∈ i.mayReport ∧ enabled e s.status = true ∧ flagSet e t.status = flagSet e s.status) ∧
    (∀ e, flagSet e s.status = false → flagSet e t.status = true → enabled e s.status = false)

/-- R91, R334: a dispatch that returns UNIMPLEMENTED has written nothing, whatever the word. -/
def Obligations.UnimplementedWritesNothing : Prop :=
  ∀ (w : Word) (s t : State), dispatchWord w s = .next t → t.returned = .outcome .unimplemented → WritesNothing s t

/-! ## Operands -/

/-- R92, R24: a destination index of 0, before any double alignment, makes the instruction return UNIMPLEMENTED with no
write (for the double multiples with `ra` field 0 the refusal of R265 comes first, R264). For a fused double with
destination field 0 and half bit 1 this is the model's reading of R260, against R98 (DEDUCED, log entry 13). -/
def Obligations.DestinationZeroIsUnimplemented : Prop :=
  ∀ (i : Instr) (s : State), (0 : Fin 64) ∈ i.dstIndices → i.raZero = false → CompletesUnimplemented i s

/-- R25, R98: an instruction one of whose destinations lies in words 0..7 after alignment (index 0 before it apart, R92;
the double multiples with `ra` field 0 apart, R265) is refused; so is one with a double 0E source of field 0 and half
bit 1. -/
def Obligations.QueueAndStatusOperandsAreRefused : Prop :=
  ∀ (i : Instr) (s : State), (0 : Fin 64) ∉ i.dstIndices →
    (∀ d ∈ i.alignedDsts, d.val < 8 → i.raZero = false → exec i s = .refused .queueDestination) ∧
    (SrcOp.status ∈ i.sources → ∃ r : Refusal, exec i s = .refused r)

/-- R24, R25, R87, R88: what a source operand reads. Index 0 reads zero, not the status word; every other index, 1..7 (a
raw slot word) included, reads its word or pair; the double 0E source of field 0 and half bit 1 reads nothing. That the
fused double source of field 0 and half bit 1 reads zero is the model's reading of R260, against R98 (DEDUCED, log
entry 14). -/
def Obligations.SourceOperandReads : Prop :=
  ∀ (s : State) (f : Fin 32) (h : Bool),
    let word (n : Nat) : Word := s.word (Fin.ofNat 64 n)
    let pair (n : Nat) : BitVec 64 := word n ++ word (n + 1)
    srcVal s .sgl (Form.op0C.src .sgl ⟨f, h⟩) = some (if f = 0 then 0#32 else word (2 * f)) ∧
    srcVal s .dbl (Form.op0C.src .dbl ⟨f, h⟩) = some (if f = 0 then 0#64 else pair (2 * f)) ∧
    srcVal s .sgl (Form.op0E.src .sgl ⟨f, h⟩) =
      some (if f = 0 ∧ h = false then 0#32 else word (2 * f + h.toNat)) ∧
    srcVal s .dbl (Form.op0E.src .dbl ⟨f, h⟩) =
      (if f = 0 then (if h then none else some 0#64) else some (pair (2 * f))) ∧
    srcVal s .sgl (srcOf (fusedIndex .sgl ⟨f, h⟩)) =
      some (if f = 0 ∧ h = false then 0#32 else word (2 * f + h.toNat)) ∧
    srcVal s .dbl (srcOf (fusedIndex .dbl ⟨f, h⟩)) = some (if f = 0 then 0#64 else pair (2 * f)) ∧
    srcVal s .sgl (srcOf (multiIndex .sgl f)) = some (word (2 * (16 + f % 16) + f / 16)) ∧
    srcVal s .dbl (srcOf (multiIndex .dbl f)) = some (if f = 0 then 0#64 else pair (2 * f))

/-- R11: the four bit-field primitives, in MSB-0 numbering. -/
def Obligations.BitFieldPrimitives : Prop :=
  ∀ (value w : Word) (start len b : Nat), 0 < len → start + len ≤ 32 → b < 32 →
    (extract start len w).toNat = field w start (start + len - 1) ∧
    (signedExtract start len w).toInt =
      (if bitAt w start then (field w start (start + len - 1) : Int) - 2 ^ len else field w start (start + len - 1)) ∧
    bitAt (mask start len w) b = (decide (start ≤ b ∧ b < start + len) && bitAt w b) ∧
    bitAt (deposit value start len w) b =
      (if start ≤ b ∧ b < start + len then bitAt value (b + 32 - (start + len)) else bitAt w b)

/-! ## Moves, refused and unimplemented forms -/

/-- R201 to R204: FCPY, FABS, FNEG, FNEGABS complete for every readable source and data destination, move the bit pattern
with the sign bit kept, cleared, flipped or set, change no bit of the status word and return NONE. -/
def Obligations.MovesCompleteAndMove : Prop :=
  ∀ (s : State) (form : Form) (r t : RegSel) (d : Fin 64),
    (∀ x : Word, form.dst .sgl t = .word d → srcVal s .sgl (form.src .sgl r) = some x →
      CompletesWith (.fcpy form (.num .sgl) r t) s .sgl d (IsClean s.status x) ∧
      CompletesWith (.fabs form (.num .sgl) r t) s .sgl d (IsClean s.status (x &&& 0x7FFFFFFF#32)) ∧
      CompletesWith (.fneg form (.num .sgl) r t) s .sgl d (IsClean s.status (x ^^^ 0x80000000#32)) ∧
      CompletesWith (.fnegabs form (.num .sgl) r t) s .sgl d (IsClean s.status (x ||| 0x80000000#32))) ∧
    (∀ x : BitVec 64, form.dst .dbl t = .word d → srcVal s .dbl (form.src .dbl r) = some x →
      CompletesWith (.fcpy form (.num .dbl) r t) s .dbl d (IsClean s.status x) ∧
      CompletesWith (.fabs form (.num .dbl) r t) s .dbl d (IsClean s.status (x &&& 0x7FFFFFFFFFFFFFFF#64)) ∧
      CompletesWith (.fneg form (.num .dbl) r t) s .dbl d (IsClean s.status (x ^^^ 0x8000000000000000#64)) ∧
      CompletesWith (.fnegabs form (.num .dbl) r t) s .dbl d (IsClean s.status (x ||| 0x8000000000000000#64)))

/-- R97, R205, R265, R315, R316: the refused forms, each under its own name. A quad move with destination index 0 is
UNIMPLEMENTED first (R92, R94). -/
def Obligations.RefusedForms : Prop :=
  ∀ (s : State),
    exec .fid s = .refused .fid ∧
    (∀ form, exec (.ftest form 0) s = .refused .ftest) ∧
    (∀ form F r1 r2 y c, y ≠ 0 → exec (.fcmp form F r1 r2 y c) s = .refused .compareQueueForm) ∧
    (∀ (r1 r2 t : RegSel), t.half = false → t.fld ≠ 0 → exec (.xmpyu .sgl r1 r2 t) s = .refused .xmpyu) ∧
    (∀ (form : Form) (r t : RegSel), form.dstIndex t ≠ 0 →
      exec (.fcpy form .quad r t) s = .refused .quadMove ∧ exec (.fabs form .quad r t) s = .refused .quadMove ∧
      exec (.fneg form .quad r t) s = .refused .quadMove ∧ exec (.fnegabs form .quad r t) s = .refused .quadMove) ∧
    (∀ rm1 rm2 ta tm, exec (.fmpyadd .dbl rm1 rm2 ta 0 tm) s = .refused .multiRaZero ∧
      exec (.fmpysub .dbl rm1 rm2 ta 0 tm) s = .refused .multiRaZero)

/-- R206: FID stops, for every state; every other 0C class-0 word with sub 0 or 1 returns UNIMPLEMENTED. -/
def Obligations.FidStops : Prop :=
  ∀ s : State, exec .fid s = .refused .fid ∧ dispatchWord 0x30000000#32 s = .refused .fid ∧
    ∀ w : Word, w ≠ 0x30000000#32 → field w 0 5 = 0x0C → field w 21 22 = 0 → field w 16 18 < 2 →
      ∃ t, dispatchWord w s = .next t ∧ t.returned = .outcome .unimplemented ∧ WritesNothing s t

/-- R229, R315: FTEST is refused in its single-format encoding and completes with UNIMPLEMENTED in the others. XMPYU
completes with UNIMPLEMENTED for format 1 and for an odd destination index; format 0 with an even destination is refused
(destination index 0 is UNIMPLEMENTED by R92, before R229's refusal in the order of R95's pseudocode, log entry 17). -/
def Obligations.FtestAndXmpyuForms : Prop :=
  (∀ (s : State) (form : Form) (fmt : Fin 4),
    (fmt = 0 → exec (.ftest form fmt) s = .refused .ftest) ∧
    (fmt ≠ 0 → CompletesUnimplemented (.ftest form fmt) s)) ∧
  (∀ (s : State) (r1 r2 t : RegSel),
    CompletesUnimplemented (.xmpyu .dbl r1 r2 t) s ∧
    (t.single.val % 2 = 1 → CompletesUnimplemented (.xmpyu .sgl r1 r2 t) s) ∧
    (t.single.val % 2 = 0 → t.single ≠ 0 → exec (.xmpyu .sgl r1 r2 t) s = .refused .xmpyu) ∧
    (t.single = 0 → CompletesUnimplemented (.xmpyu .sgl r1 r2 t) s))

/-! ## Completion of the kernels (R220) -/

/-- R220: FADD, FSUB, FMPY, FDIV, FREM, FSQRT and FRND complete for all readable sources and every data destination,
delivering the kernel's result, status and outcome and changing nothing else. The kernels' values are in `FaddRule` to
`FrndRule`. -/
def Obligations.ArithmeticCompletes : Prop :=
  ∀ (s : State) (form : Form) (F : Fmt) (r1 r2 t : RegSel) (d : Fin 64) (x y : Enc F), form.dst F t = .word d →
    srcVal s F (form.src F r1) = some x →
    (srcVal s F (form.src F r2) = some y →
      CompletesWith (.fadd form F r1 r2 t) s F d (fun k => ∃ u, k = kFadd F s.status u x y) ∧
      CompletesWith (.fsub form F r1 r2 t) s F d (fun k => ∃ u, k = kFsub F s.status u x y) ∧
      CompletesWith (.fmpy form F r1 r2 t) s F d (fun k => ∃ u, k = kFmpy F s.status u x y) ∧
      CompletesWith (.fdiv form F r1 r2 t) s F d (fun k => ∃ u, k = kFdiv F s.status u x y) ∧
      CompletesWith (.frem form F r1 r2 t) s F d (fun k => ∃ u, k = kFrem F s.status u x y)) ∧
    CompletesWith (.fsqrt form F r1 t) s F d (fun k => ∃ u, k = kFsqrt F s.status u x) ∧
    CompletesWith (.frnd form F r1 t) s F d (fun k => ∃ u, k = kFrnd F s.status u x)

/-- R280 to R288: the seven conversions complete for every readable source and data destination. FCNVFX and FCNVFU round in
the current mode, FCNVFXT and FCNVFUT toward zero; FCNVUF, FCNVFU and FCNVFUT are unsigned. -/
def Obligations.ConversionsComplete : Prop :=
  (∀ (s : State) (form : Form) (r t : RegSel) (d : Fin 64) (x : Enc .sgl), form.dst .dbl t = .word d →
    srcVal s .sgl (form.src .sgl r) = some x →
    CompletesWith (.fcnvff form .sglToDbl r t) s .dbl d (fun k => ∃ u, k = kCnvSD s.status u x)) ∧
  (∀ (s : State) (form : Form) (r t : RegSel) (d : Fin 64) (x : Enc .dbl), form.dst .sgl t = .word d →
    srcVal s .dbl (form.src .dbl r) = some x →
    CompletesWith (.fcnvff form .dblToSgl r t) s .sgl d (fun k => ∃ u v, k = kCnvDS s.status u v x)) ∧
  (∀ (s : State) (form : Form) (F G : Fmt) (r t : RegSel) (d : Fin 64) (x : Enc F), form.dst G t = .word d →
    srcVal s F (form.src F r) = some x →
    CompletesWith (.fcnvxf form F G r t) s G d (fun k => ∃ u, k = kCnvXF F G true s.status u x) ∧
    CompletesWith (.fcnvuf form F G r t) s G d (fun k => ∃ u, k = kCnvXF F G false s.status u x) ∧
    CompletesWith (.fcnvfx form F G r t) s G d (fun k => ∃ u, k = kCnvFX F G true (rmOf s.status) s.status u x) ∧
    CompletesWith (.fcnvfxt form F G r t) s G d (fun k => ∃ u, k = kCnvFX F G true .rz s.status u x) ∧
    CompletesWith (.fcnvfu form F G r t) s G d (fun k => ∃ u, k = kCnvFX F G false (rmOf s.status) s.status u x) ∧
    CompletesWith (.fcnvfut form F G r t) s G d (fun k => ∃ u, k = kCnvFX F G false .rz s.status u x))

/-- R260, R261: FMPYFADD and FMPYNFADD complete for every source and every data destination. -/
def Obligations.FusedCompletes : Prop :=
  ∀ (s : State) (F : Fmt) (rm1 rm2 ra t : RegSel) (d : Fin 64) (x y z : Enc F), dstOf (fusedIndex F t) = .word d →
    srcVal s F (srcOf (fusedIndex F rm1)) = some x → srcVal s F (srcOf (fusedIndex F rm2)) = some y →
    srcVal s F (srcOf (fusedIndex F ra)) = some z →
    CompletesWith (.fmpyfadd F rm1 rm2 ra t) s F d (fun k => ∃ u, k = kFma F false s.status u x y z) ∧
    CompletesWith (.fmpynfadd F rm1 rm2 ra t) s F d (fun k => ∃ u, k = kFma F true s.status u x y z)

/-- R262, R263, R264: FMPYADD and FMPYSUB complete for every data destination pair (the double forms with `ra` field 0
apart, R265). If neither half reports an exception both results are written, `ta` last, with the flags of both halves;
otherwise nothing is written and UNIMPLEMENTED is returned. -/
def Obligations.MultipleComplete : Prop :=
  ∀ (s : State) (F : Fmt) (rm1 rm2 ta ra tm : Fin 32) (a b : Enc F), ¬ (F = .dbl ∧ ra = 0) →
    8 ≤ (multiIndex F tm).val → 8 ≤ (multiIndex F ta).val →
    srcVal s F (srcOf (multiIndex F rm1)) = some a → srcVal s F (srcOf (multiIndex F rm2)) = some b →
    ∀ (i : Instr) (op2 : Word → BitVec 64 → Enc F → Enc F → KResult F),
      (i = .fmpyadd F rm1 rm2 ta ra tm ∧ op2 = kFadd F) ∨ (i = .fmpysub F rm1 rm2 ta ra tm ∧ op2 = kFsub F) →
      ∃ (t : State) (u v : BitVec 64), exec i s = .next t ∧
        let m := kFmpy F s.status u a b
        let q := op2 m.status v (s.read F (multiIndex F ta)) (s.read F (multiIndex F ra))
        (m.outcome = .none → q.outcome = .none →
          t.returned = .outcome .none ∧ t.status = q.status ∧ t.read F (multiIndex F ta) = q.res ∧
          (tm ≠ ta → t.read F (multiIndex F tm) = m.res) ∧
          (∀ j, j ≠ 0 → j ∉ operandWords F (multiIndex F tm) → j ∉ operandWords F (multiIndex F ta) →
            t.word j = s.word j)) ∧
        (m.outcome ≠ .none ∨ q.outcome ≠ .none → t.returned = .outcome .unimplemented ∧ WritesNothing s t)

/-- R266: (a) FMPYADD and FMPYSUB write both destinations and the status word, or nothing; (b) each half is the ordinary
kernel, the second on the status word the first left; (c) FMA differs from multiply-then-add on the triple of R260. -/
def Obligations.MultipleAllOrNothing : Prop :=
  (∀ (s t : State) (F : Fmt) (rm1 rm2 ta ra tm : Fin 32) (i : Instr)
    (op2 : Word → BitVec 64 → Enc F → Enc F → KResult F),
    (i = .fmpyadd F rm1 rm2 ta ra tm ∧ op2 = kFadd F) ∨ (i = .fmpysub F rm1 rm2 ta ra tm ∧ op2 = kFsub F) →
    exec i s = .next t →
    (t.returned = .outcome .unimplemented ∧ WritesNothing s t) ∨
    (t.returned = .outcome .none ∧ ∃ (a b : Enc F) (u v : BitVec 64),
      srcVal s F (srcOf (multiIndex F rm1)) = some a ∧ srcVal s F (srcOf (multiIndex F rm2)) = some b ∧
      let m := kFmpy F s.status u a b
      let q := op2 m.status v (s.read F (multiIndex F ta)) (s.read F (multiIndex F ra))
      m.outcome = .none ∧ q.outcome = .none ∧ t.status = q.status ∧ t.read F (multiIndex F ta) = q.res ∧
        (tm ≠ ta → t.read F (multiIndex F tm) = m.res))) ∧
  (∀ u v : BitVec 64,
    (kFma .sgl false 0 u 0x3F800800#32 0x3F800800#32 0xBF800000#32).res = 0x3A000400#32 ∧
    (kFadd .sgl 0 v (kFmpy .sgl 0 u 0x3F800800#32 0x3F800800#32).res 0xBF800000#32).res = 0x3A000000#32)

/-- R312, R314, R316: FCMP with `y = 0` completes for all readable sources, writes no register, sets C to the condition on
the relation (even when INVALID is trapped), raises V or reports INVALID exactly when the compare is invalid, and leaves
every other status bit alone (under PA20 bits 6..20 are open). -/
def Obligations.FcmpCompletes : Prop :=
  ∀ (s : State) (form : Form) (F : Fmt) (r1 r2 : RegSel) (c : Fin 32) (x y : Enc F),
    srcVal s F (form.src F r1) = some x → srcVal s F (form.src F r2) = some y →
    ∃ t, exec (.fcmp form F r1 r2 0 c) s = .next t ∧
      (∀ j, j ≠ 0 → t.word j = s.word j) ∧ t.variant = s.variant ∧ t.calls = s.calls ∧
      bitAt t.status 5 = (match relOf x y with
        | .greater => c.val.testBit 4
        | .less => c.val.testBit 3
        | .equal => c.val.testBit 2
        | .unordered => c.val.testBit 1) ∧
      (∀ b, b < 32 → b ≠ 0 → b ≠ 5 → ¬ (s.variant = .pa20 ∧ 6 ≤ b ∧ b ≤ 20) → bitAt t.status b = bitAt s.status b) ∧
      (let bad := (isNaN x = true ∨ isNaN y = true) ∧ (isSNaN x = true ∨ isSNaN y = true ∨ c.val.testBit 0 = true)
       (bad → enabled .V s.status = true → t.returned = .outcome .invalid ∧ bitAt t.status 0 = bitAt s.status 0) ∧
       (bad → enabled .V s.status = false → t.returned = .outcome .none ∧ bitAt t.status 0 = true) ∧
       (¬ bad → t.returned = .outcome .none ∧ bitAt t.status 0 = bitAt s.status 0))

/-! ## The kernels -/

/-- R310: the relation of two operands of one format. Finite values compare by value, denormals and both zeros included;
infinities lie beyond every finite value. -/
def Obligations.RelationRule : Prop :=
  ∀ (F : Fmt) (x y : Enc F),
    (isNaN x = true ∨ isNaN y = true → relOf x y = .unordered) ∧
    (isFinite x = true → isFinite y = true →
      relOf x y = if val x = val y then .equal else if val x < val y then .less else .greater) ∧
    (isInf x = true → isFinite y = true → relOf x y = if signOf x then .less else .greater) ∧
    (isFinite x = true → isInf y = true → relOf x y = if signOf y then .greater else .less) ∧
    (isInf x = true → isInf y = true →
      relOf x y = if signOf x = signOf y then .equal else if signOf x then .less else .greater)

/-- R221: FADD. -/
def Obligations.FaddRule : Prop :=
  ∀ (F : Fmt) (st : Word) (u : BitVec 64) (x y : Enc F),
    let k := kFadd F st u x y
    IsNanResult st [x, y] k ∧
    (noNaN [x, y] = true →
      (isInf x = true → isInf y = true → signOf x ≠ signOf y → IsInvalid st (Config.defaultNaN F) k) ∧
      (isInf x = true → isInf y = true → signOf x = signOf y → IsClean st x k) ∧
      (isInf x = true → isInf y = false → IsClean st x k) ∧
      (isInf x = false → isInf y = true → IsClean st y k) ∧
      (isInf x = false → isInf y = false →
        IsFinished st (val x + val y)
          (if isZero x = true ∧ isZero y = true ∧ signOf x = signOf y then signOf x else decide (rmOf st = .rmi)) k))

/-- R222: FSUB. The NaN returned is not negated. -/
def Obligations.FsubRule : Prop :=
  ∀ (F : Fmt) (st : Word) (u : BitVec 64) (x y : Enc F),
    let k := kFsub F st u x y
    IsNanResult st [x, y] k ∧
    (noNaN [x, y] = true →
      (isInf x = true → isInf y = true → signOf x = signOf y → IsInvalid st (Config.defaultNaN F) k) ∧
      (isInf x = true → isInf y = true → signOf x ≠ signOf y → IsClean st x k) ∧
      (isInf x = true → isInf y = false → IsClean st x k) ∧
      (isInf x = false → isInf y = true → IsClean st (infOf F (!signOf y)) k) ∧
      (isInf x = false → isInf y = false →
        IsFinished st (val x - val y)
          (if isZero x = true ∧ isZero y = true ∧ signOf x ≠ signOf y then signOf x else decide (rmOf st = .rmi)) k))

/-- R223: FMPY. -/
def Obligations.FmpyRule : Prop :=
  ∀ (F : Fmt) (st : Word) (u : BitVec 64) (x y : Enc F),
    let k := kFmpy F st u x y
    let s := signOf x ^^ signOf y
    IsNanResult st [x, y] k ∧
    (noNaN [x, y] = true →
      ((isInf x = true ∧ isZero y = true) ∨ (isZero x = true ∧ isInf y = true) →
        IsInvalid st (Config.defaultNaN F) k) ∧
      (isInf x = true → isZero y = false → IsClean st (infOf F s) k) ∧
      (isZero x = false → isInf y = true → IsClean st (infOf F s) k) ∧
      (isInf x = false → isInf y = false → IsFinished st (val x * val y) s k))

/-- R224, R166: FDIV. -/
def Obligations.FdivRule : Prop :=
  ∀ (F : Fmt) (st : Word) (u : BitVec 64) (x y : Enc F),
    let k := kFdiv F st u x y
    let s := signOf x ^^ signOf y
    IsNanResult st [x, y] k ∧
    (noNaN [x, y] = true →
      (isInf x = true → isInf y = true → IsInvalid st (Config.defaultNaN F) k) ∧
      (isZero x = true → isZero y = true → IsInvalid st (Config.defaultNaN F) k) ∧
      (isInf x = true → isInf y = false → IsClean st (infOf F s) k) ∧
      (isInf x = false → isInf y = true → IsClean st (zeroOf F s) k) ∧
      (isInf x = false → isZero x = false → isZero y = true → IsDivZero st s k) ∧
      (isInf x = false → isInf y = false → isZero y = false → IsFinished st (val x / val y) s k))

/-- R225: FREM. `n` is the integer nearest the quotient, even on a tie. -/
def Obligations.FremRule : Prop :=
  ∀ (F : Fmt) (st : Word) (u : BitVec 64) (x y : Enc F),
    let k := kFrem F st u x y
    IsNanResult st [x, y] k ∧
    (noNaN [x, y] = true →
      (isInf x = true ∨ isZero y = true → IsInvalid st (Config.defaultNaN F) k) ∧
      (isInf x = false → isInf y = true → IsClean st x k) ∧
      (isInf x = false → isZero x = true → isZero y = false → IsClean st x k) ∧
      (isInf x = false → isInf y = false → isZero x = false → isZero y = false →
        ∀ n : Int, |val x / val y - n| ≤ 1 / 2 → (|val x / val y - n| = 1 / 2 → n % 2 = 0) →
          IsFinished st (val x - n * val y) (signOf x) k))

/-- R225: for finite nonzero operands the remainder is exact: no flag changes, the outcome is NONE or, for a tiny
remainder with the underflow trap enabled, UNDERFLOW; a NONE result has exactly the value `x - n*y`, at most half of
`y` in magnitude. -/
def Obligations.RemainderIsExact : Prop :=
  ∀ (F : Fmt) (st : Word) (u : BitVec 64) (x y : Enc F), isFinite x = true → isFinite y = true → isZero x = false →
    isZero y = false →
    let k := kFrem F st u x y
    k.status = st ∧ (k.outcome = .none ∨ (k.outcome = .underflow ∧ enabled .U st = true)) ∧
    (k.outcome = .none → isFinite k.res = true ∧ |val k.res| ≤ |val y| / 2 ∧ ∃ n : Int, val k.res = val x - n * val y)

/-- R226: FSQRT. A positive finite operand gives its real square root rounded once to `p` bits in the current mode; it
neither overflows nor underflows. -/
def Obligations.FsqrtRule : Prop :=
  ∀ (F : Fmt) (st : Word) (u : BitVec 64) (x : Enc F),
    let k := kFsqrt F st u x
    IsNanResult st [x] k ∧
    (isNaN x = false →
      (isZero x = true → IsClean st x k) ∧
      (isZero x = false → signOf x = true → IsInvalid st (Config.defaultNaN F) k) ∧
      (isInf x = true → signOf x = false → IsClean st x k) ∧
      (isFinite x = true → isZero x = false → signOf x = false →
        ∀ (e : Int) (w : ℚ), ((pow2 e : ℚ) : ℝ) ≤ √(val x : ℝ) → √(val x : ℝ) < ((pow2 (e + 1) : ℚ) : ℝ) →
          IsRounding (rmOf st) false (e - F.prec + 1) √(val x : ℝ) w →
          IsRounded st (enc F false w) ((w : ℝ) ≠ √(val x : ℝ)) k))

/-- R227: FRND. -/
def Obligations.FrndRule : Prop :=
  ∀ (F : Fmt) (st : Word) (u : BitVec 64) (x : Enc F),
    let k := kFrnd F st u x
    IsNanResult st [x] k ∧
    (isNaN x = false →
      (isInf x = true ∨ isZero x = true → IsClean st x k) ∧
      (isFinite x = true → isZero x = false →
        ∀ n : Nat, IsRounding (rmOf st) (signOf x) 0 (|val x| : ℚ) n →
          IsRounded st (enc F (signOf x) n) ((n : ℚ) ≠ |val x|) k))

/-- R260, R261: the fused kernels. `neg` negates the product; a NaN result is not negated. -/
def Obligations.FmaRule : Prop :=
  ∀ (F : Fmt) (neg : Bool) (st : Word) (u : BitVec 64) (x y z : Enc F),
    let k := kFma F neg st u x y z
    let sp := signOf x ^^ signOf y ^^ neg
    let zeroTimesInf := (isInf x = true ∧ isZero y = true) ∨ (isZero x = true ∧ isInf y = true)
    IsNanResult st [x, y, z] k ∧
    (noNaN [x, y, z] = true →
      (zeroTimesInf → IsInvalid st (Config.defaultNaN F) k) ∧
      (¬ zeroTimesInf → isInf x = true ∨ isInf y = true → isInf z = true → signOf z ≠ sp →
        IsInvalid st (Config.defaultNaN F) k) ∧
      (¬ zeroTimesInf → isInf x = true ∨ isInf y = true → ¬ (isInf z = true ∧ signOf z ≠ sp) →
        IsClean st (infOf F sp) k) ∧
      (isInf x = false → isInf y = false → isInf z = true → IsClean st z k) ∧
      (isInf x = false → isInf y = false → isInf z = false →
        IsFinished st ((if neg then -(val x * val y) else val x * val y) + val z)
          (if val x * val y = 0 ∧ isZero z = true ∧ sp = signOf z then sp else decide (rmOf st = .rmi)) k))

/-- R281: FCNVFF single to double. -/
def Obligations.SingleToDoubleRule : Prop :=
  ∀ (st : Word) (u : BitVec 64) (x : Enc .sgl),
    let k := kCnvSD st u x
    (isSNaN x = true → ∃ q : Enc .dbl,
      (fracOf x ≠ 2 ^ 22 → q = pack .dbl (signOf x) 2047 ((fracOf x - 2 ^ 22) * 2 ^ 29)) ∧ IsInvalid st q k) ∧
    (isQNaN x = true → IsClean st (pack .dbl (signOf x) 2047 (fracOf x * 2 ^ 29)) k) ∧
    (isInf x = true → IsClean st (infOf .dbl (signOf x)) k) ∧
    (isFinite x = true → k.outcome = .none ∧ k.status = st ∧ isFinite k.res = true ∧ signOf k.res = signOf x ∧
      val k.res = val x)

/-- R282: FCNVFF double to single. -/
def Obligations.DoubleToSingleRule : Prop :=
  ∀ (st : Word) (u v : BitVec 64) (x : Enc .dbl),
    let k := kCnvDS st u v x
    (isSNaN x = true → ∃ q : Enc .sgl,
      (let f := fracOf x - 2 ^ 51
       fracOf x ≠ 2 ^ 51 →
        (f / 2 ^ 29 ≠ 0 → q = pack .sgl (signOf x) 255 (f / 2 ^ 29)) ∧ (f / 2 ^ 29 = 0 → isQNaN q = true)) ∧
      IsInvalid st q k) ∧
    (isQNaN x = true → ∃ q : Enc .sgl,
      (fracOf x / 2 ^ 29 ≠ 0 → q = pack .sgl (signOf x) 255 (fracOf x / 2 ^ 29)) ∧
      (fracOf x / 2 ^ 29 = 0 → isQNaN q = true) ∧ IsClean st q k) ∧
    (isInf x = true → IsClean st (infOf .sgl (signOf x)) k) ∧
    (isZero x = true → IsClean st (zeroOf .sgl (signOf x)) k) ∧
    (isFinite x = true → isZero x = false → IsFinished st (val x) (signOf x) k)

/-- R283, R284: integer to float, signed (two's complement) or unsigned: zero gives +0; any other integer is rounded once
to `p` bits in the current mode, and no conversion overflows or underflows. -/
def Obligations.IntegerToFloatRule : Prop :=
  ∀ (F G : Fmt) (isSigned : Bool) (st : Word) (u : BitVec 64) (n : Enc F),
    let k := kCnvXF F G isSigned st u n
    let v : Int := if isSigned then n.toInt else n.toNat
    (v = 0 → IsClean st (zeroOf G false) k) ∧
    (∀ (e : Int) (w : ℚ), pow2 e ≤ |(v : ℚ)| → |(v : ℚ)| < pow2 (e + 1) →
      IsRounding (rmOf st) (decide (v < 0)) (e - G.prec + 1) (|(v : ℚ)| : ℚ) w →
      IsRounded st (enc G (decide (v < 0)) w) (w ≠ |(v : ℚ)|) k)

/-- R285 to R288: float to integer in mode `m`. A NaN, an infinity or a rounded value out of range is invalid, with the
default chosen by the operand's sign; the range is judged on the rounded integer. -/
def Obligations.FloatToIntegerRule : Prop :=
  ∀ (F G : Fmt) (isSigned : Bool) (m : RMode) (st : Word) (u : BitVec 64) (x : Enc F),
    let k := kCnvFX F G isSigned m st u x
    let top : Int := if isSigned then 2 ^ (G.width - 1) - 1 else 2 ^ G.width - 1
    let bottom : Int := if isSigned then -2 ^ (G.width - 1) else 0
    let dflt : Enc G := BitVec.ofInt G.width (if signOf x then bottom else top)
    (isNaN x = true ∨ isInf x = true → IsInvalid st dflt k) ∧
    (isZero x = true → IsClean st 0 k) ∧
    (isFinite x = true → isZero x = false →
      ∀ a : Nat, IsRounding m (signOf x) 0 (|val x| : ℚ) a →
        let n : Int := if signOf x then -a else a
        (bottom ≤ n → n ≤ top → IsRounded st (BitVec.ofInt G.width n) ((a : ℚ) ≠ |val x|) k) ∧
        (¬ (bottom ≤ n ∧ n ≤ top) → IsInvalid st dflt k))

/-! ## Rounding and finishing -/

/-- R150: `roundmag` returns the rounding, and `ix` tells whether it changed the magnitude. -/
def Obligations.RoundmagRounds : Prop :=
  ∀ (a : ℚ) (q : Int) (s : Bool) (m : RMode), 0 < a →
    IsRounding m s q (a : ℚ) (roundmag (.rat a) q s m).value ∧
    ((roundmag (.rat a) q s m).inexact = true ↔ (roundmag (.rat a) q s m).value ≠ a)

/-- R151, R152, R154 to R157, R160, R161: `finish` of an exact result `r`. `w` is `|r|` rounded to `p` bits with unbounded
exponent, `d` is `|r|` rounded to the subnormal quantum. -/
def Obligations.FinishRule : Prop :=
  ∀ (F : Fmt) (st : Word) (u : BitVec 64) (r : ℚ) (zs : Bool) (e : Int) (w d : ℚ),
    let k := finish F st u r zs
    let s := decide (r < 0)
    (r = 0 → IsClean st (zeroOf F zs) k) ∧
    (pow2 e ≤ |r| → |r| < pow2 (e + 1) → IsRounding (rmOf st) s (e - F.prec + 1) (|r| : ℚ) w →
      IsRounding (rmOf st) s (F.emin - F.prec + 1) (|r| : ℚ) d →
      (pow2 (F.emax + 1) ≤ w → enabled .O st = true →
        (pow2 F.emin ≤ w * pow2 (-(Config.wrap F : Int)) → w * pow2 (-(Config.wrap F : Int)) < pow2 (F.emax + 1) →
          k.res = enc F s (w * pow2 (-(Config.wrap F : Int)))) ∧
        (w = |r| → k.outcome = .overflow ∧ k.status = st) ∧
        (w ≠ |r| → enabled .I st = true → k.outcome = .overflowInexact ∧ k.status = st) ∧
        (w ≠ |r| → enabled .I st = false → k.outcome = .overflow ∧ k.status = raiseFlag .I st)) ∧
      (pow2 (F.emax + 1) ≤ w → enabled .O st = false →
        k.res = ovfDefault F s (rmOf st) ∧
        (enabled .I st = true → k.outcome = .inexact ∧ k.status = raiseFlag .O st) ∧
        (enabled .I st = false → k.outcome = .none ∧ k.status = raiseFlag .I (raiseFlag .O st))) ∧
      (w < pow2 F.emin → enabled .U st = true →
        (pow2 F.emin ≤ w * pow2 (Config.wrap F : Int) → w * pow2 (Config.wrap F : Int) < pow2 (F.emax + 1) →
          k.res = enc F s (w * pow2 (Config.wrap F : Int))) ∧
        (w = |r| → k.outcome = .underflow ∧ k.status = st) ∧
        (w ≠ |r| → enabled .I st = true → k.outcome = .underflowInexact ∧ k.status = st) ∧
        (w ≠ |r| → enabled .I st = false → k.outcome = .underflow ∧ k.status = raiseFlag .I st)) ∧
      (w < pow2 F.emin → enabled .U st = false →
        k.res = enc F s d ∧
        (d = |r| → k.outcome = .none ∧ k.status = st) ∧
        (d ≠ |r| → enabled .I st = true → k.outcome = .inexact ∧ k.status = raiseFlag .U st) ∧
        (d ≠ |r| → enabled .I st = false → k.outcome = .none ∧ k.status = raiseFlag .I (raiseFlag .U st))) ∧
      (pow2 F.emin ≤ w → w < pow2 (F.emax + 1) → IsRounded st (enc F s w) (w ≠ |r|) k))

/-- R153: the overflow default by mode and sign. -/
def Obligations.OverflowDefaults : Prop :=
  (ovfDefault .sgl false .rn = 0x7F800000#32 ∧ ovfDefault .sgl true .rn = 0xFF800000#32) ∧
  (ovfDefault .sgl false .rz = 0x7F7FFFFF#32 ∧ ovfDefault .sgl true .rz = 0xFF7FFFFF#32) ∧
  (ovfDefault .sgl false .rp = 0x7F800000#32 ∧ ovfDefault .sgl true .rp = 0xFF7FFFFF#32) ∧
  (ovfDefault .sgl false .rmi = 0x7F7FFFFF#32 ∧ ovfDefault .sgl true .rmi = 0xFF800000#32) ∧
  (ovfDefault .dbl false .rn = 0x7FF0000000000000#64 ∧ ovfDefault .dbl true .rn = 0xFFF0000000000000#64) ∧
  (ovfDefault .dbl false .rz = 0x7FEFFFFFFFFFFFFF#64 ∧ ovfDefault .dbl true .rz = 0xFFEFFFFFFFFFFFFF#64) ∧
  (ovfDefault .dbl false .rp = 0x7FF0000000000000#64 ∧ ovfDefault .dbl true .rp = 0xFFEFFFFFFFFFFFFF#64) ∧
  (ovfDefault .dbl false .rmi = 0x7FEFFFFFFFFFFFFF#64 ∧ ovfDefault .dbl true .rmi = 0xFFF0000000000000#64)

/-- R168: a result that neither overflows nor is reported as an underflow is a finite encoding whose value lies within
half a unit in the last place of the exact result under RN, and on the side the mode names, less than one unit away,
under the others. `q` is the result's quantum; `w` is `|r|` rounded with unbounded exponent. -/
def Obligations.RoundingBound : Prop :=
  ∀ (F : Fmt) (st : Word) (u : BitVec 64) (r : ℚ) (zs : Bool) (e : Int) (w : ℚ), pow2 e ≤ |r| → |r| < pow2 (e + 1) →
    IsRounding (rmOf st) (decide (r < 0)) (e - F.prec + 1) (|r| : ℚ) w → w < pow2 (F.emax + 1) →
    ¬ (enabled .U st = true ∧ w < pow2 F.emin) →
    let k := finish F st u r zs
    let q := max e F.emin - F.prec + 1
    isFinite k.res = true ∧ |val k.res - r| < pow2 q ∧
    (rmOf st = .rn → |val k.res - r| ≤ pow2 q / 2) ∧
    (rmOf st = .rz → |val k.res| ≤ |r|) ∧
    (rmOf st = .rp → r ≤ val k.res) ∧
    (rmOf st = .rmi → val k.res ≤ r)

/-- R160: for FADD, FSUB, FMPY, FDIV, FREM and the fused kernels a wrapped result is always in the normal range, so the
value delivered with an OVERFLOW or UNDERFLOW outcome is never the free value. -/
def Obligations.WrappedResultsAreDetermined : Prop :=
  ∀ (F : Fmt) (st : Word) (u u' : BitVec 64) (x y z : Enc F) (neg : Bool), isFinite x = true → isFinite y = true →
    isFinite z = true →
    ∀ op ∈ [fun v => kFadd F st v x y, fun v => kFsub F st v x y, fun v => kFmpy F st v x y, fun v => kFdiv F st v x y,
      fun v => kFrem F st v x y, fun v => kFma F neg st v x y z],
      (Exc.O ∈ (op u).outcome.names ∨ Exc.U ∈ (op u).outcome.names) → op u = op u'

/-- R144: `quiet` of a signaling NaN with a fraction bit below the signaling bit clears that bit and keeps the sign and
every other fraction bit, and the result is a quiet NaN; where that bit is the only fraction bit, the result is any value
(every value is the result for some free value `u`). -/
def Obligations.QuietRule : Prop :=
  ∀ (F : Fmt) (x : Enc F), isSNaN x = true →
    (fracOf x ≠ 2 ^ (F.fbits - 1) → ∀ u : BitVec 64, isQNaN (quiet u x) = true ∧ expOf (quiet u x) = expOf x ∧
      signOf (quiet u x) = signOf x ∧ fracOf (quiet u x) = fracOf x - 2 ^ (F.fbits - 1)) ∧
    (fracOf x = 2 ^ (F.fbits - 1) → ∀ v : Enc F, ∃ u : BitVec 64, quiet u x = v)

/-- R228: for finite operands FADD and FMPY give the same state with their sources exchanged; with two NaN operands
they need not. -/
def Obligations.AddAndMultiplyCommute : Prop :=
  (∀ (s : State) (form : Form) (F : Fmt) (r1 r2 t : RegSel) (x y : Enc F),
    srcVal s F (form.src F r1) = some x → srcVal s F (form.src F r2) = some y → isFinite x = true → isFinite y = true →
    exec (.fadd form F r1 r2 t) s = exec (.fadd form F r2 r1 t) s ∧
    exec (.fmpy form F r1 r2 t) s = exec (.fmpy form F r2 r1 t) s) ∧
  (∃ x y : Enc .sgl, isNaN x = true ∧ isNaN y = true ∧ ∀ (st : Word) (u : BitVec 64),
    kFadd .sgl st u x y ≠ kFadd .sgl st u y x ∧ kFmpy .sgl st u x y ≠ kFmpy .sgl st u y x)

/-- R290: a normal single converted to double and back is itself, with NONE and no flag; a word integer converted to
double and back, in any mode, is itself, exactly. -/
def Obligations.ConversionRoundTrips : Prop :=
  (∀ (st : Word) (u u' v : BitVec 64) (x : Enc .sgl), isNormal x = true →
    kCnvDS st u' v (kCnvSD st u x).res = KResult.clean st x ∧ (kCnvSD st u x).outcome = .none ∧
      (kCnvSD st u x).status = st) ∧
  (∀ (st : Word) (u u' : BitVec 64) (m : RMode) (n : Enc .sgl),
    (kCnvXF .sgl .dbl true st u n).outcome = .none ∧ (kCnvXF .sgl .dbl true st u n).status = st ∧
      kCnvFX .dbl .sgl true m st u' (kCnvXF .sgl .dbl true st u n).res = KResult.clean st n)

/-- R317, R313: the condition is `16 G + 8 L + 4 E + 2 U + X`; on operands that are no NaN exactly one of G, L, E holds, so
`c` and `c XOR 0x1C` give complementary results, whatever the rounding mode. -/
def Obligations.CompareComplementLaw : Prop :=
  (∀ (c : Fin 32), condHolds c .greater = c.val.testBit 4 ∧ condHolds c .less = c.val.testBit 3 ∧
    condHolds c .equal = c.val.testBit 2 ∧ condHolds c .unordered = c.val.testBit 1) ∧
  (∀ (F : Fmt) (x y : Enc F) (c : Fin 32) (st st' : Word), isNaN x = false → isNaN y = false →
    relOf x y ≠ .unordered ∧
    bitAt (kFcmp st x y c).2 5 = bitAt (kFcmp st' x y c).2 5 ∧
    bitAt (kFcmp st x y c).2 5 = !bitAt (kFcmp st' x y (Fin.ofNat 32 (c.val ^^^ 0x1C))).2 5)

/-! ## The exception queue -/

/-- R42, R347: a NONE slot is cleared and the decoder goes on; nothing else changes. -/
def Obligations.NoneSlotIsCleared : Prop :=
  ∀ (p : QueueParams) (s : State) (k : Fin 64), isSlot k → slotType p s k = .none →
    ∃ t, visitSlot p s k = .proceed t ∧ t.word k = 0 ∧ (∀ j, j ≠ k → t.word j = s.word j) ∧ t.variant = s.variant ∧
      t.calls = s.calls

/-- R345, R347, R348: the terminal types end the run with their signal; the slots and the register file are left as they
are, T apart. The returned values are `sig * 2^24 + code`. -/
def Obligations.TerminalSlotsSignal : Prop :=
  ∀ (p : QueueParams) (s : State) (k : Fin 64) (ty : ExcType) (n : Word), slotType p s k = ty →
    (ty, n) ∈ ([(.invalid, 0x08000007#32), (.fma .invalid, 0x08000007#32), (.divByZero, 0x08000003#32),
      (.inexact, 0x08000006#32), (.fma .inexact, 0x08000006#32), (.fma .overflow, 0x08000004#32),
      (.fma .overflowInexact, 0x08000004#32), (.fma .underflow, 0x08000005#32), (.fma .underflowInexact, 0x08000005#32),
      (.unrecognized, 0x04000007#32)] : List (ExcType × Word)) →
    ∃ (g : Signal) (t : State), visitSlot p s k = .stop (.next t) ∧ Terminated s t g ∧ t.returned = .signal n

/-- R342: an UNIMPLEMENTED slot clears T and dispatches its instruction again. A second UNIMPLEMENTED ends the run with
SIGILL and writes nothing but T; a refusal is a refusal here; with any other outcome the slot is re-tagged, keeping its
instruction word, and tested again with what the dispatch wrote. A re-tag with an OVERFLOW or UNDERFLOW type is terminal
(R343, R344: the dispatch reports one only if its trap is enabled, R332), whatever the dispatch delivered: that R382's
refusal of implausible values does not reach it is the model's reading (DEDUCED, log entry 24). -/
def Obligations.UnimplementedSlotIsRedispatched : Prop :=
  ∀ (p : QueueParams), p.Lawful → ∀ (s : State) (k : Fin 64), isSlot k → slotType p s k = .unimplemented →
    (∀ r, dispatchWord (slotInstr p s k) (s.setT false) = .refused r → visitSlot p s k = .stop (.refused r)) ∧
    (∀ t, dispatchWord (slotInstr p s k) (s.setT false) = .next t → t.returned = .outcome .unimplemented →
      ∃ t', visitSlot p s k = .stop (.next t') ∧ Terminated s t' .illCoproc) ∧
    (∀ t o, dispatchWord (slotInstr p s k) (s.setT false) = .next t → t.returned = .outcome o → o ≠ .unimplemented →
      let t' := t.setWord k (p.slotPack (p.codeOf o (majorOf (slotInstr p s k))) (slotInstr p s k))
      slotInstr p t' k = slotInstr p s k ∧
      ∃ ty, retagType o (majorOf (slotInstr p s k)) = some ty ∧ slotType p t' k = ty ∧
        (ty = .overflow ∨ ty = .overflowInexact →
          ∃ u, visitSlot p s k = .stop (.next u) ∧ Terminated t' u .fltOvf) ∧
        (ty = .underflow ∨ ty = .underflowInexact →
          ∃ u, visitSlot p s k = .stop (.next u) ∧ Terminated t' u .fltUnd) ∧
        (ty ∉ [ExcType.overflow, .overflowInexact, .underflow, .underflowInexact] →
          visitSlot p s k = visitSlot p t' k))

/-- R343, R346, R382: a captured UNDERFLOW or UNDERFLOW_INEXACT slot. `w` is the captured value, `d` its unwrapped magnitude
rounded to the subnormal quantum. That a slot without a destination, or with an implausible captured value, is refused
also when its trap is enabled is the model's reading of R382 (DEDUCED, log entry 24). -/
def Obligations.UnderflowSlotDenormalizes : Prop :=
  ∀ (p : QueueParams) (s : State) (k : Fin 64), isSlot k →
    slotType p s k = .underflow ∨ slotType p s k = .underflowInexact →
    (slotDest s.variant (slotInstr p s k) = none → visitSlot p s k = .stop (.refused .slotDestination)) ∧
    (∀ (i : Fin 64) (F : Fmt), slotDest s.variant (slotInstr p s k) = some (i, F) →
      let w := s.read F i
      let plausible := isFinite w = true ∧ isZero w = false ∧ |val w| < pow2 (F.emin + Config.wrap F)
      (¬ plausible → visitSlot p s k = .stop (.refused .slotValue)) ∧
      (plausible → enabled .U s.status = true → ∃ t, visitSlot p s k = .stop (.next t) ∧ Terminated s t .fltUnd) ∧
      (plausible → enabled .U s.status = false → ∀ d : ℚ,
        IsRounding (rmOf s.status) (signOf w) (F.emin - F.prec + 1) (|val w| * pow2 (-(Config.wrap F : Int)) : ℚ) d →
        let exact := d = |val w| * pow2 (-(Config.wrap F : Int))
        (exact → ∃ t, visitSlot p s k = .proceed t ∧ t.status = s.status ∧ t.word k = 0 ∧
          t.read F i = enc F (signOf w) d ∧ ∀ j, j ≠ k → j ∉ operandWords F i → t.word j = s.word j) ∧
        (¬ exact → enabled .I s.status = false → ∃ t, visitSlot p s k = .proceed t ∧
          t.status = raiseFlag .I (raiseFlag .U s.status) ∧ t.word k = 0 ∧ t.read F i = enc F (signOf w) d ∧
          ∀ j, j ≠ 0 → j ≠ k → j ∉ operandWords F i → t.word j = s.word j) ∧
        (¬ exact → enabled .I s.status = true → ∃ t, visitSlot p s k = .stop (.next t) ∧
          t.returned = .signal 0x08000006#32 ∧ t.status = putBit tBit true (raiseFlag .U s.status) ∧
          t.read F i = enc F (signOf w) d ∧ ∀ j, j ≠ 0 → j ∉ operandWords F i → t.word j = s.word j)))

/-- R344, R346, R382: a captured OVERFLOW or OVERFLOW_INEXACT slot receives the overflow default of its captured sign. That a slot
without a destination, or with a captured NaN, is refused also when its trap is enabled is the model's reading of R382
(DEDUCED, log entry 24). -/
def Obligations.OverflowSlotSubstitutes : Prop :=
  ∀ (p : QueueParams) (s : State) (k : Fin 64), isSlot k →
    slotType p s k = .overflow ∨ slotType p s k = .overflowInexact →
    (slotDest s.variant (slotInstr p s k) = none → visitSlot p s k = .stop (.refused .slotDestination)) ∧
    (∀ (i : Fin 64) (F : Fmt), slotDest s.variant (slotInstr p s k) = some (i, F) →
      (isNaN (s.read F i) = true → visitSlot p s k = .stop (.refused .slotValue)) ∧
      (isNaN (s.read F i) = false → enabled .O s.status = true →
        ∃ t, visitSlot p s k = .stop (.next t) ∧ Terminated s t .fltOvf) ∧
      (isNaN (s.read F i) = false → enabled .O s.status = false →
        let x := ovfDefault F (signOf (s.read F i)) (rmOf s.status)
        (enabled .I s.status = false → ∃ t, visitSlot p s k = .proceed t ∧
          t.status = raiseFlag .I (raiseFlag .O s.status) ∧ t.word k = 0 ∧ t.read F i = x ∧
          ∀ j, j ≠ 0 → j ≠ k → j ∉ operandWords F i → t.word j = s.word j) ∧
        (enabled .I s.status = true → ∃ t, visitSlot p s k = .stop (.next t) ∧
          t.returned = .signal 0x08000006#32 ∧ t.status = putBit tBit true (raiseFlag .O s.status) ∧ t.read F i = x ∧
          ∀ j, j ≠ 0 → j ∉ operandWords F i → t.word j = s.word j)))

/-- R346: the destination of a slot's instruction, for a word that decodes: classes 0 and 3, class 1 with a float
destination, and 2E, each with the destination the dispatcher writes; 06, 26, class 2 and the conversions to integers
have none. (None also where the dispatcher writes none, the model's reading, log entry 16.) -/
def Obligations.SlotDestinationRule : Prop :=
  ∀ (v : Variant) (w : Word) (i : Instr), decode v w = .ok i →
    (∀ (d : Fin 64) (F : Fmt), slotDest v w = some (d, F) → i.writes = operandWords F d ∧ 8 ≤ d.val) ∧
    (∀ (form : Form) (F : Fmt) (r1 r2 t : RegSel) (d : Fin 64), form.dst F t = .word d →
      (i = .fadd form F r1 r2 t ∨ i = .fsub form F r1 r2 t ∨ i = .fmpy form F r1 r2 t ∨ i = .fdiv form F r1 r2 t ∨
        i = .frem form F r1 r2 t ∨ i = .fsqrt form F r1 t ∨ i = .frnd form F r1 t ∨ i = .fcpy form (.num F) r1 t ∨
        i = .fabs form (.num F) r1 t ∨ i = .fneg form (.num F) r1 t ∨ i = .fnegabs form (.num F) r1 t ∨
        (∃ sf, i = .fcnvxf form sf F r1 t ∨ i = .fcnvuf form sf F r1 t) ∨
        (F = .dbl ∧ i = .fcnvff form .sglToDbl r1 t) ∨ (F = .sgl ∧ i = .fcnvff form .dblToSgl r1 t)) →
      slotDest v w = some (d, F)) ∧
    (∀ (F : Fmt) (a b c t : RegSel) (d : Fin 64), dstOf (fusedIndex F t) = .word d →
      i = .fmpyfadd F a b c t ∨ i = .fmpynfadd F a b c t → slotDest v w = some (d, F)) ∧
    (field w 0 5 = 0x06 ∨ field w 0 5 = 0x26 ∨
      ((field w 0 5 = 0x0C ∨ field w 0 5 = 0x0E) ∧ field w 21 22 = 2) → slotDest v w = none) ∧
    (∀ form sf df r t, i = .fcnvfx form sf df r t ∨ i = .fcnvfxt form sf df r t ∨ i = .fcnvfu form sf df r t ∨
      i = .fcnvfut form sf df r t → slotDest v w = none)

/-- R340, R348, R349: a queue run that answers a state either drained every slot (signal 0, T clear, slots 1 to 7 all
zero) or ended with one of the six signals and T set. -/
def Obligations.QueueEndsCleanOrTerminal : Prop :=
  ∀ (p : QueueParams), p.Lawful → ∀ (s t : State), decodeQueue p s = .next t →
    (t.returned = .signal 0 ∧ bitAt t.status tBit = false ∧ ∀ k, isSlot k → t.word k = 0) ∨
    (bitAt t.status tBit = true ∧ ∃ g : Signal, t.returned = .signal (BitVec.ofNat 32 (g.sig * 2 ^ 24 + g.code)))

/-- R361: when a run ends with a signal, some slot `k` decided it: at `k` the decoder stopped with the returned state; the
slots below `k` had been cleared; `k` held what it held at the start of the run, and the slots above keep their words. -/
def Obligations.FirstTerminalSlotDecides : Prop :=
  ∀ (p : QueueParams), p.Lawful → ∀ (s t : State), decodeQueue p s = .next t → bitAt t.status tBit = true →
    ∃ (k : Fin 64) (s' : State), isSlot k ∧ visitSlot p s' k = .stop (.next t) ∧
      (∀ j, isSlot j → k ≤ j → s'.word j = s.word j) ∧
      (∀ j, isSlot j → j < k → t.word j = 0) ∧ (∀ j, isSlot j → k < j → t.word j = s.word j)

/-- R350: a re-tag never produces type UNIMPLEMENTED, so the decoder never runs into its re-test bound: no step faults. -/
def Obligations.NothingFaults : Prop :=
  (∀ (p : QueueParams), p.Lawful → ∀ s : State, Safe (decodeQueue p s)) ∧ (∀ (i : Instr) (s : State), Safe (exec i s)) ∧
    (∀ s : State, Safe (step s))
end

