-- ==== Sys2Proof/Laws/Bits.lean ====
section
/-! SUPPORT. The bit primitives, bit by bit: what `deposit` and `putBit` change, and that fields and flags are functions
of the bits they name. -/

namespace Sys2Proof

theorem getLsbD_fieldMask (start len i : Nat) (h : start + len ≤ 32) :
    (fieldMask start len).getLsbD i = decide (32 - start - len ≤ i ∧ i < 32 - start) := by
  rw [fieldMask, BitVec.getLsbD_shiftLeft, BitVec.getLsbD_setWidth, BitVec.getLsbD_allOnes]
  rw [Bool.eq_iff_iff]
  simp only [Bool.and_eq_true, Bool.not_eq_true', decide_eq_true_eq, decide_eq_false_iff_not]
  omega

/-- `deposit` writes its field and nothing else. -/
theorem bitAt_deposit (v w : Word) (start len b : Nat) (h : start + len ≤ 32) (hb : b < 32) :
    bitAt (deposit v start len w) b =
      if start ≤ b ∧ b < start + len then v.getLsbD (start + len - 1 - b) else bitAt w b := by
  have hi : 31 - b < 32 := by omega
  simp only [bitAt, deposit, BitVec.getLsbD_or, BitVec.getLsbD_and, BitVec.getLsbD_not, BitVec.getLsbD_shiftLeft,
    getLsbD_fieldMask start len _ h, hi, decide_true, Bool.true_and]
  by_cases hc : start ≤ b ∧ b < start + len
  · have h1 : 32 - start - len ≤ 31 - b ∧ 31 - b < 32 - start := by omega
    have h2 : ¬ 31 - b < 32 - start - len := by omega
    have h3 : 31 - b - (32 - start - len) = start + len - 1 - b := by omega
    rw [if_pos hc, decide_eq_true h1, h3]
    simp [h2]
  · have h1 : ¬(32 - start - len ≤ 31 - b ∧ 31 - b < 32 - start) := by omega
    rw [if_neg hc, decide_eq_false h1]
    simp

/-- `putBit` writes one bit and no other. -/
theorem bitAt_putBit (w : Word) (b c : Nat) (v : Bool) (hb : b < 32) (hc : c < 32) :
    bitAt (putBit b v w) c = if c = b then v else bitAt w c := by
  rw [putBit, bitAt_deposit _ _ _ _ _ (by omega) hc]
  by_cases h : c = b
  · subst h
    cases v <;> simp
  · rw [if_neg (by omega), if_neg h]

@[simp] theorem bitAt_putBit_self (w : Word) (b : Nat) (v : Bool) (hb : b < 32) : bitAt (putBit b v w) b = v := by
  rw [bitAt_putBit w b b v hb hb, if_pos rfl]

theorem bitAt_putBit_ne (w : Word) {b c : Nat} (v : Bool) (hb : b < 32) (hc : c < 32) (h : c ≠ b) :
    bitAt (putBit b v w) c = bitAt w c := by
  rw [bitAt_putBit w b c v hb hc, if_neg h]

/-- A word is its 32 bits. -/
theorem word_ext {w w' : Word} (h : ∀ b, b < 32 → bitAt w b = bitAt w' b) : w = w' := by
  apply BitVec.eq_of_getLsbD_eq
  intro i hi
  have h1 := h (31 - i) (by omega)
  have h2 : 31 - (31 - i) = i := by omega
  simpa [bitAt, h2] using h1

/-- A field is a function of the bits it names. -/
theorem field_congr {w w' : Word} {a c : Nat} (hac : a ≤ c) (hc : c < 32)
    (h : ∀ b, a ≤ b → b ≤ c → bitAt w b = bitAt w' b) : field w a c = field w' a c := by
  apply Nat.eq_of_testBit_eq
  intro i
  simp only [field, Nat.testBit_mod_two_pow, Nat.testBit_div_two_pow]
  by_cases hi : i < c - a + 1
  · have h1 := h (c - i) (by omega) (by omega)
    have h2 : 31 - (c - i) = i + (31 - c) := by omega
    simp only [bitAt, BitVec.getLsbD, h2] at h1
    simp [hi, h1]
  · simp [hi]

/-- A one-bit field is the bit. -/
theorem field_bit (w : Word) (b : Nat) : field w b b = (bitAt w b).toNat := by
  simp only [field, bitAt, BitVec.getLsbD, Nat.sub_self, Nat.zero_add, Nat.pow_one]
  rw [Nat.testBit_eq_decide_div_mod_eq]
  have h := Nat.mod_two_eq_zero_or_one (w.toNat / 2 ^ (31 - b))
  rcases h with h | h <;> simp [h]

/-- A field is below 2 to its length. -/
theorem field_lt (w : Word) (a b : Nat) : field w a b < 2 ^ (b - a + 1) := Nat.mod_lt _ (by positivity)

theorem rmOf_congr {w w' : Word} (h1 : bitAt w 21 = bitAt w' 21) (h2 : bitAt w 22 = bitAt w' 22) :
    rmOf w = rmOf w' := by
  have h : field w 21 22 = field w' 21 22 := by
    apply field_congr (by omega) (by omega)
    intro b hb hb'
    rcases (by omega : b = 21 ∨ b = 22) with rfl | rfl <;> assumption
  simp only [rmOf, h]

theorem Exc.flagBit_lt (e : Exc) : e.flagBit < 5 := by cases e <;> decide

theorem Exc.enableBit_ge (e : Exc) : 27 ≤ e.enableBit := by cases e <;> decide

theorem Exc.enableBit_lt (e : Exc) : e.enableBit < 32 := by cases e <;> decide

theorem Exc.flagBit_inj {e f : Exc} (h : e.flagBit = f.flagBit) : e = f := by cases e <;> cases f <;> simp_all [Exc.flagBit]

/-- Raising a flag sets its bit and no other. -/
theorem bitAt_raiseFlag (e : Exc) (st : Word) {b : Nat} (hb : b < 32) :
    bitAt (raiseFlag e st) b = if b = e.flagBit then true else bitAt st b :=
  bitAt_putBit st e.flagBit b true (by have := e.flagBit_lt; omega) hb

@[simp] theorem flagSet_raiseFlag (e f : Exc) (st : Word) :
    flagSet f (raiseFlag e st) = (decide (f = e) || flagSet f st) := by
  rw [flagSet, bitAt_raiseFlag e st (by have := f.flagBit_lt; omega)]
  by_cases h : f = e
  · simp [h]
  · have : f.flagBit ≠ e.flagBit := fun h' => h (Exc.flagBit_inj h')
    simp [h, this, flagSet]

@[simp] theorem enabled_raiseFlag (e f : Exc) (st : Word) : enabled f (raiseFlag e st) = enabled f st := by
  rw [enabled, bitAt_raiseFlag e st f.enableBit_lt, if_neg, enabled]
  have := e.flagBit_lt
  have := f.enableBit_ge
  omega

@[simp] theorem rmOf_raiseFlag (e : Exc) (st : Word) : rmOf (raiseFlag e st) = rmOf st := by
  have := e.flagBit_lt
  apply rmOf_congr <;> rw [bitAt_raiseFlag e st (by omega), if_neg (by omega)]

end Sys2Proof
end

