-- ==== Sys2Proof/Laws/Decode.lean ====
section
/-! SUPPORT. The fields of the encoder's words, one lemma per instruction format (30_encoding.md R82, R83, R85, R86). -/

namespace Sys2Proof

theorem toNat_ofNat_word {n : Nat} (h : n < 2 ^ 32) : (BitVec.ofNat 32 n).toNat = n := by
  rw [BitVec.toNat_ofNat]
  exact Nat.mod_eq_of_lt h

theorem bitAt_of_field {w : Word} {b : Nat} {v : Bool} (h : field w b b = v.toNat) : bitAt w b = v := by
  rw [field_bit] at h
  cases hb : bitAt w b <;> cases v <;> simp_all

theorem Form.code_lt (form : Form) : form.code < 64 := by cases form <;> decide

theorem Fmt.code_lt (F : Fmt) : F.code < 2 := by cases F <;> decide

theorem halfBit_lt (r : RegSel) : r.halfBit < 2 := by
  unfold RegSel.halfBit
  cases r.half <;> decide

theorem regField_eq {w : Word} {a b : Nat} {f : Fin 32} (h : field w a b = f) : regField w a b = f := by
  rw [regField, h]
  exact Fin.ext (Nat.mod_eq_of_lt f.isLt)

/-- A word whose sub-op field is not that of the FID word is not the FID word. -/
theorem ne_fid_of_field {w : Word} {a b : Nat} (h : field w a b ≠ field 0x30000000#32 a b) : w ≠ 0x30000000#32 := by
  rintro rfl
  exact h rfl

section Class0
variable (form : Form) (sub fmt : Nat) (r t : RegSel)

theorem class0_fields (hs : sub < 8) (hf : fmt < 4) :
    let w := encodeClass0 form sub fmt r t
    field w 0 5 = form.code ∧ field w 6 10 = r.fld ∧ field w 16 18 = sub ∧ field w 19 20 = fmt ∧ field w 21 22 = 0 ∧
      bitAt w 24 = r.half ∧ bitAt w 25 = t.half ∧ field w 27 31 = t.fld := by
  intro w
  have h1 := form.code_lt
  have h2 := r.fld.isLt
  have h3 := t.fld.isLt
  have h4 := halfBit_lt r
  have h5 := halfBit_lt t
  have hw : w.toNat = form.code * 2 ^ 26 + r.fld * 2 ^ 21 + sub * 2 ^ 13 + fmt * 2 ^ 11
    + r.halfBit * 2 ^ 7 + t.halfBit * 2 ^ 6 + t.fld := toNat_ofNat_word (by omega)
  refine ⟨?_, ?_, ?_, ?_, ?_, bitAt_of_field (show _ = r.halfBit from ?_), bitAt_of_field (show _ = t.halfBit from ?_), ?_⟩ <;>
    rw [field, hw] <;> omega

end Class0

theorem class1_fields (form : Form) (sub sf df : Nat) (r t : RegSel) (hs : sub < 8) (hsf : sf < 4) (hdf : df < 4) :
    let w := encodeClass1 form sub sf df r t
    field w 0 5 = form.code ∧ field w 6 10 = r.fld ∧ field w 14 16 = sub ∧ field w 15 16 = sub % 4 ∧ field w 17 18 = df ∧
      field w 19 20 = sf ∧ field w 21 22 = 1 ∧ bitAt w 24 = r.half ∧ bitAt w 25 = t.half ∧ field w 27 31 = t.fld := by
  intro w
  have h1 := form.code_lt
  have h2 := r.fld.isLt
  have h3 := t.fld.isLt
  have h4 := halfBit_lt r
  have h5 := halfBit_lt t
  have hw : w.toNat = form.code * 2 ^ 26 + r.fld * 2 ^ 21 + sub * 2 ^ 15 + df * 2 ^ 13 + sf * 2 ^ 11
    + 1 * 2 ^ 9 + r.halfBit * 2 ^ 7 + t.halfBit * 2 ^ 6 + t.fld := toNat_ofNat_word (by omega)
  refine ⟨?_, ?_, ?_, ?_, ?_, ?_, ?_, bitAt_of_field (show _ = r.halfBit from ?_), bitAt_of_field (show _ = t.halfBit from ?_),
    ?_⟩ <;> rw [field, hw] <;> omega

theorem class2_fields (form : Form) (r1 r2 : RegSel) (y fmt n c : Nat) (hy : y < 8)
    (hf : fmt < 2 ∨ (r2.half = false ∧ fmt < 4)) (hn : n < 2) (hc : c < 32) :
    let w := encodeClass2 form r1 r2 y fmt n c
    field w 0 5 = form.code ∧ field w 6 10 = r1.fld ∧ field w 11 15 = r2.fld ∧ field w 16 18 = y ∧
      field w 19 20 = r2.halfBit * 2 + fmt ∧ (fmt < 2 → bitAt w 19 = r2.half) ∧ (fmt < 2 → field w 20 20 = fmt) ∧
      field w 21 22 = 2 ∧ bitAt w 24 = r1.half ∧ field w 26 26 = n ∧ field w 27 31 = c := by
  intro w
  have h1 := form.code_lt
  have h2 := r1.fld.isLt
  have h3 := r2.fld.isLt
  have h4 := halfBit_lt r1
  have h5 := halfBit_lt r2
  have h6 : r2.halfBit * 2 + fmt < 4 := by
    rcases hf with h | ⟨h, h'⟩
    · omega
    · simp only [RegSel.halfBit, h, Bool.toNat_false]
      omega
  have hw : w.toNat = form.code * 2 ^ 26 + r1.fld * 2 ^ 21 + r2.fld * 2 ^ 16 + y * 2 ^ 13 + r2.halfBit * 2 ^ 12
    + fmt * 2 ^ 11 + 2 * 2 ^ 9 + r1.halfBit * 2 ^ 7 + n * 2 ^ 5 + c := toNat_ofNat_word (by omega)
  refine ⟨?_, ?_, ?_, ?_, ?_, fun _ => bitAt_of_field (show _ = r2.halfBit from ?_), fun _ => ?_, ?_,
    bitAt_of_field (show _ = r1.halfBit from ?_), ?_, ?_⟩ <;> rw [field, hw] <;> omega

theorem class3_fields (form : Form) (sub x : Nat) (F : Fmt) (r1 r2 t : RegSel) (hs : sub < 8) (hx : x < 2) :
    let w := encodeClass3 form sub x F r1 r2 t
    field w 0 5 = form.code ∧ field w 6 10 = r1.fld ∧ field w 11 15 = r2.fld ∧ field w 16 18 = sub ∧
      field w 19 20 = r2.halfBit * 2 + F.code ∧ bitAt w 19 = r2.half ∧ field w 20 20 = F.code ∧ field w 21 22 = 3 ∧
      field w 23 23 = x ∧ bitAt w 24 = r1.half ∧ bitAt w 25 = t.half ∧ field w 27 31 = t.fld := by
  intro w
  have h1 := form.code_lt
  have h2 := r1.fld.isLt
  have h3 := r2.fld.isLt
  have h4 := halfBit_lt r1
  have h5 := halfBit_lt r2
  have h6 := F.code_lt
  have h7 := halfBit_lt t
  have h8 := t.fld.isLt
  have hw : w.toNat = form.code * 2 ^ 26 + r1.fld * 2 ^ 21 + r2.fld * 2 ^ 16 + sub * 2 ^ 13 + r2.halfBit * 2 ^ 12
    + F.code * 2 ^ 11 + 3 * 2 ^ 9 + x * 2 ^ 8 + r1.halfBit * 2 ^ 7 + t.halfBit * 2 ^ 6 + t.fld :=
    toNat_ofNat_word (by omega)
  refine ⟨?_, ?_, ?_, ?_, ?_, bitAt_of_field (show _ = r2.halfBit from ?_), ?_, ?_, ?_,
    bitAt_of_field (show _ = r1.halfBit from ?_), bitAt_of_field (show _ = t.halfBit from ?_), ?_⟩ <;>
    rw [field, hw] <;> omega

theorem multi_fields (op : Nat) (F : Fmt) (rm1 rm2 ta ra tm : Fin 32) (ho : op < 64) :
    let w := encodeMulti op F rm1 rm2 ta ra tm
    field w 0 5 = op ∧ field w 6 10 = rm1 ∧ field w 11 15 = rm2 ∧ field w 16 20 = ta ∧ field w 21 25 = ra ∧
      field w 26 26 = 1 - F.code ∧ field w 27 31 = tm := by
  intro w
  have h1 := rm1.isLt
  have h2 := rm2.isLt
  have h3 := ta.isLt
  have h4 := ra.isLt
  have h5 := tm.isLt
  have hw : w.toNat = op * 2 ^ 26 + rm1 * 2 ^ 21 + rm2 * 2 ^ 16 + ta * 2 ^ 11 + ra * 2 ^ 6 + (1 - F.code) * 2 ^ 5 + tm :=
    toNat_ofNat_word (by omega)
  refine ⟨?_, ?_, ?_, ?_, ?_, ?_, ?_⟩ <;> rw [field, hw] <;> omega

theorem fused_fields (neg : Nat) (F : Fmt) (rm1 rm2 ra t : RegSel) (hn : neg < 2) :
    let w := encodeFused neg F rm1 rm2 ra t
    field w 0 5 = 0x2E ∧ field w 6 10 = rm1.fld ∧ field w 11 15 = rm2.fld ∧
      field w 16 18 * 4 + field w 21 22 = ra.fld ∧ bitAt w 19 = rm2.half ∧ field w 20 20 = F.code ∧ bitAt w 23 = ra.half ∧
      bitAt w 24 = rm1.half ∧ bitAt w 25 = t.half ∧ field w 26 26 = neg ∧ field w 27 31 = t.fld := by
  intro w
  have h1 := rm1.fld.isLt
  have h2 := rm2.fld.isLt
  have h3 := ra.fld.isLt
  have h4 := t.fld.isLt
  have h5 := halfBit_lt rm1
  have h6 := halfBit_lt rm2
  have h7 := halfBit_lt ra
  have h8 := halfBit_lt t
  have h9 := F.code_lt
  have hw : w.toNat = 0x2E * 2 ^ 26 + rm1.fld * 2 ^ 21 + rm2.fld * 2 ^ 16 + (ra.fld.val / 4) * 2 ^ 13
    + rm2.halfBit * 2 ^ 12 + F.code * 2 ^ 11 + (ra.fld.val % 4) * 2 ^ 9 + ra.halfBit * 2 ^ 8
    + rm1.halfBit * 2 ^ 7 + t.halfBit * 2 ^ 6 + neg * 2 ^ 5 + t.fld := toNat_ofNat_word (by omega)
  have hdm := Nat.div_add_mod ra.fld.val 4
  have hm := Nat.mod_lt ra.fld.val (by norm_num : 4 > 0)
  have hd : ra.fld.val / 4 < 8 := by omega
  generalize ra.fld.val / 4 = hi at *
  generalize ra.fld.val % 4 = lo at *
  refine ⟨?_, ?_, ?_, ?_, bitAt_of_field (show _ = rm2.halfBit from ?_), ?_, bitAt_of_field (show _ = ra.halfBit from ?_),
    bitAt_of_field (show _ = rm1.halfBit from ?_), bitAt_of_field (show _ = t.halfBit from ?_), ?_, ?_⟩
  case refine_4 =>
    have hhi : field w 16 18 = hi := by
      clear hdm h3
      rw [field, hw]
      omega
    have hlo : field w 21 22 = lo := by
      clear hdm h3
      rw [field, hw]
      omega
    rw [hhi, hlo]
    omega
  all_goals
    clear hdm h3
    rw [field, hw]
    omega

/-! ## Operands read back -/

theorem decodeSel_eq {form : Form} {w : Word} {a b h : Nat} {r : RegSel} (hwf : r.wf form = true)
    (hf : field w a b = r.fld) (hh : form = .op0E → bitAt w h = r.half) : decodeSel form w a b h = r := by
  unfold decodeSel
  rw [regField_eq hf]
  cases form with
  | op0C =>
    have : r.half = false := by simpa [RegSel.wf] using hwf
    cases r
    simp_all
  | op0E =>
    rw [hh rfl]

theorem decodeFmt_code (F : Fmt) : decodeFmt F.code = .ok F := by cases F <;> rfl

theorem decodeMoveFmt_code (m : MoveFmt) : decodeMoveFmt m.code = .ok m := by
  cases m with
  | num F => cases F <;> rfl
  | quad => rfl

theorem MoveFmt.code_lt (m : MoveFmt) : m.code < 4 := by
  cases m with
  | num F => cases F <;> decide
  | quad => decide

/-- A word of major opcode 0C or 0E that is not the FID word decodes by `decodeCop` (R93). -/
theorem decode_cop {v : Variant} {form : Form} {w : Word} (h0 : w ≠ 0x30000000#32) (h : field w 0 5 = form.code) :
    decode v w = decodeCop v form w := by
  rw [decode, if_neg h0, h]
  cases form <;> rfl

theorem except_map_ok {α β : Type} {x : Except Reject α} {f : α → β} {b : β} (h : x.map f = .ok b) : ∃ a, x = .ok a ∧ b = f a := by
  cases x with
  | error e => cases h
  | ok a => cases h; exact ⟨a, rfl, rfl⟩

theorem decodeSel_wf (form : Form) (w : Word) (a b h : Nat) : (decodeSel form w a b h).wf form = true := by
  cases form <;> rfl

end Sys2Proof
end

