-- ==== Sys2Proof/Laws/Numerics.lean ====
section
/-! SUPPORT. Exact arithmetic behind the rounding rules (40_numerics.md R150, R151): powers of two, the binary logarithm,
and what `roundmag` returns on a rational magnitude. -/

namespace Sys2Proof

theorem pow2_eq (z : Int) : pow2 z = (2 : ℚ) ^ z := by
  cases z with
  | ofNat n => simp [pow2]
  | negSucc n => simp [pow2, zpow_negSucc]

theorem pow2_pos (z : Int) : 0 < pow2 z := by
  rw [pow2_eq]
  positivity

theorem pow2_ne_zero (z : Int) : pow2 z ≠ 0 := (pow2_pos z).ne'

theorem pow2_add (a b : Int) : pow2 (a + b) = pow2 a * pow2 b := by
  simp only [pow2_eq]
  exact zpow_add₀ (by norm_num) a b

theorem pow2_sub (a b : Int) : pow2 (a - b) = pow2 a / pow2 b := by
  simp only [pow2_eq]
  exact zpow_sub₀ (by norm_num) a b

theorem pow2_neg (a : Int) : pow2 (-a) = (pow2 a)⁻¹ := by
  simp only [pow2_eq, zpow_neg]

theorem pow2_zero : pow2 0 = 1 := by simp [pow2_eq]

theorem pow2_succ (a : Int) : pow2 (a + 1) = 2 * pow2 a := by
  rw [pow2_add, mul_comm]
  simp [pow2_eq]

theorem pow2_le {a b : Int} : pow2 a ≤ pow2 b ↔ a ≤ b := by
  simp only [pow2_eq]
  exact zpow_le_zpow_iff_right₀ (by norm_num)

theorem pow2_lt {a b : Int} : pow2 a < pow2 b ↔ a < b := by
  simp only [pow2_eq]
  exact zpow_lt_zpow_iff_right₀ (by norm_num)

theorem pow2_nat (n : Nat) : pow2 n = ((2 ^ n : Nat) : ℚ) := rfl

/-- A positive rational lies in the binade of its logarithm (R151). -/
theorem ilog2_spec {a : ℚ} (ha : 0 < a) : pow2 (ilog2 a) ≤ a ∧ a < pow2 (ilog2 a + 1) := by
  have hn : 0 < a.num := Rat.num_pos.2 ha
  have hn0 : a.num.natAbs ≠ 0 := by omega
  have hd0 : a.den ≠ 0 := a.den_nz
  have hn1 := Nat.log2_self_le hn0
  have hn2 := @Nat.lt_log2_self a.num.natAbs
  have hd1 := Nat.log2_self_le hd0
  have hd2 := @Nat.lt_log2_self a.den
  generalize hln : a.num.natAbs.log2 = ln at *
  generalize hld : a.den.log2 = ld at *
  have haq : a * (a.den : ℚ) = (a.num.natAbs : ℚ) := by
    rw [Rat.mul_den_eq_num]
    rw [← Int.cast_natCast a.num.natAbs, Int.natAbs_of_nonneg hn.le]
  have hdpos : (0 : ℚ) < a.den := by exact_mod_cast a.den_pos
  have e1 : pow2 ln ≤ (a.num.natAbs : ℚ) := by rw [pow2_nat]; exact_mod_cast hn1
  have e2 : (a.num.natAbs : ℚ) < pow2 (ln + 1) := by
    have : ((ln : Int) + 1) = ((ln + 1 : Nat) : Int) := by push_cast; rfl
    rw [this, pow2_nat]; exact_mod_cast hn2
  have e3 : pow2 ld ≤ (a.den : ℚ) := by rw [pow2_nat]; exact_mod_cast hd1
  have e4 : (a.den : ℚ) < pow2 (ld + 1) := by
    have : ((ld : Int) + 1) = ((ld + 1 : Nat) : Int) := by push_cast; rfl
    rw [this, pow2_nat]; exact_mod_cast hd2
  have hlo : pow2 ((ln : Int) - ld - 1) ≤ a := by
    have h1 : pow2 ((ln : Int) - ld - 1) * pow2 (ld + 1) = pow2 ln := by
      rw [← pow2_add]; congr 1; ring
    have h2 : pow2 ((ln : Int) - ld - 1) * (a.den : ℚ) ≤ a * a.den := by
      calc pow2 ((ln : Int) - ld - 1) * (a.den : ℚ)
          ≤ pow2 ((ln : Int) - ld - 1) * pow2 (ld + 1) := by
            exact mul_le_mul_of_nonneg_left e4.le (pow2_pos _).le
        _ = pow2 ln := h1
        _ ≤ _ := by rw [haq]; exact e1
    exact le_of_mul_le_mul_right h2 hdpos
  have hhi : a < pow2 ((ln : Int) - ld + 1) := by
    have h1 : pow2 ((ln : Int) - ld + 1) * pow2 ld = pow2 (ln + 1) := by
      rw [← pow2_add]; congr 1; ring
    have h2 : a * a.den < pow2 ((ln : Int) - ld + 1) * (a.den : ℚ) := by
      calc a * a.den < pow2 (ln + 1) := by rw [haq]; exact e2
        _ = pow2 ((ln : Int) - ld + 1) * pow2 ld := h1.symm
        _ ≤ _ := mul_le_mul_of_nonneg_left e3 (pow2_pos _).le
    exact lt_of_mul_lt_mul_right h2 hdpos.le
  simp only [ilog2, hln, hld]
  split
  · rename_i h
    exact ⟨h, hhi⟩
  · rename_i h
    refine ⟨hlo, ?_⟩
    rw [show (ln : Int) - ld - 1 + 1 = ln - ld by ring]
    exact not_le.1 h

/-- The binade determines the logarithm. -/
theorem ilog2_eq {a : ℚ} {e : Int} (h1 : pow2 e ≤ a) (h2 : a < pow2 (e + 1)) : ilog2 a = e := by
  have ha : 0 < a := (pow2_pos e).trans_le h1
  obtain ⟨h3, h4⟩ := ilog2_spec ha
  have h5 := pow2_lt.1 (h1.trans_lt h4)
  have h6 := pow2_lt.1 (h3.trans_lt h2)
  omega

theorem pow2_le_iff_le_ilog2 {a : ℚ} (ha : 0 < a) {e : Int} : pow2 e ≤ a ↔ e ≤ ilog2 a := by
  obtain ⟨h1, h2⟩ := ilog2_spec ha
  constructor
  · intro h
    have := pow2_lt.1 (h.trans_lt h2)
    omega
  · intro h
    exact (pow2_le.2 h).trans h1

/-! ## Rounding a rational magnitude -/

/-- `lo = floor(n)` of R150 for a nonnegative rational. -/
theorem floor_spec {n : ℚ} (hn : 0 ≤ n) : ((n.floor.toNat : Nat) : ℚ) ≤ n ∧ n < (n.floor.toNat : Nat) + 1 := by
  have h0 : 0 ≤ n.floor := Rat.le_floor_iff.2 (by simpa using hn)
  have h1 : ((n.floor.toNat : Nat) : ℚ) = (n.floor : ℚ) := by
    have : ((n.floor.toNat : Nat) : Int) = n.floor := Int.toNat_of_nonneg h0
    exact_mod_cast congrArg (Int.cast : Int → ℚ) this
  rw [h1]
  exact ⟨Rat.floor_le n, by exact_mod_cast Rat.lt_floor_add_one n⟩

/-- What `roundmag` knows of a rational magnitude at quantum `2^q`: the multiple below it, and whether it takes that one
or the next by the mode's rule (R150). -/
theorem roundmag_rat (a : ℚ) (ha : 0 ≤ a) (q : Int) (s : Bool) (m : RMode) :
    ∃ lo k : Nat, (lo : ℚ) * pow2 q ≤ a ∧ a < (lo + 1) * pow2 q ∧
      (roundmag (.rat a) q s m).value = k * pow2 q ∧
      ((roundmag (.rat a) q s m).inexact = false ↔ a = lo * pow2 q) ∧
      (a = lo * pow2 q → k = lo) ∧ (k = lo ∨ k = lo + 1) ∧
      (m = .rn → (k = lo → a ≤ (lo + 1 / 2) * pow2 q) ∧ (k = lo + 1 → (lo + 1 / 2) * pow2 q ≤ a) ∧
        (a = (lo + 1 / 2) * pow2 q → k % 2 = 0)) ∧
      (m = .rz → k = lo) ∧
      (m = .rp → (k = lo + 1 ↔ s = false ∧ a ≠ lo * pow2 q)) ∧
      (m = .rmi → (k = lo + 1 ↔ s = true ∧ a ≠ lo * pow2 q)) := by
  have hq := pow2_pos q
  set n : ℚ := a * pow2 (-q) with hn
  have hn0 : 0 ≤ n := mul_nonneg ha (pow2_pos _).le
  have han : a = n * pow2 q := by
    rw [hn, pow2_neg]
    field_simp
  obtain ⟨h1, h2⟩ := floor_spec hn0
  set lo : Nat := n.floor.toNat with hlo
  have hiff : a = lo * pow2 q ↔ n - lo = 0 := by
    rw [han, mul_left_inj' hq.ne', sub_eq_zero]
  have hhalf : ∀ c : ℚ, a ≤ (lo + c) * pow2 q ↔ n - lo ≤ c := by
    intro c
    rw [han, mul_le_mul_iff_left₀ hq]
    constructor <;> intro h <;> linarith
  have hhalf' : ∀ c : ℚ, (lo + c) * pow2 q ≤ a ↔ c ≤ n - lo := by
    intro c
    rw [han, mul_le_mul_iff_left₀ hq]
    constructor <;> intro h <;> linarith
  have hval : (roundmag (.rat a) q s m).value =
      ((if roundsUp m s lo (fracClass (n - lo)) = true then lo + 1 else lo : Nat) : ℚ) * pow2 q := rfl
  have hix : (roundmag (.rat a) q s m).inexact = (fracClass (n - lo) != .zero) := rfl
  clear_value lo n
  generalize hf : n - lo = f at *
  generalize hfc : fracClass f = c at *
  have hcase : (c = .zero ∧ f = 0) ∨ (c = .low ∧ f ≠ 0 ∧ f < 1 / 2) ∨ (c = .half ∧ f = 1 / 2) ∨ (c = .high ∧ 1 / 2 < f) := by
    subst hfc
    unfold fracClass
    by_cases h0 : f = 0
    · exact .inl ⟨if_pos h0, h0⟩
    · rw [if_neg h0]
      by_cases h1 : f < 1 / 2
      · exact .inr (.inl ⟨if_pos h1, h0, h1⟩)
      · rw [if_neg h1]
        by_cases h2 : f = 1 / 2
        · exact .inr (.inr (.inl ⟨if_pos h2, h2⟩))
        · exact .inr (.inr (.inr ⟨if_neg h2, lt_of_le_of_ne (not_lt.1 h1) (Ne.symm h2)⟩))
  have hz : c = .zero ↔ f = 0 := by
    rcases hcase with ⟨rfl, h⟩ | ⟨rfl, h⟩ | ⟨rfl, h⟩ | ⟨rfl, h⟩
    · simp [h]
    · simp [h.1]
    · simp [h]
    · refine ⟨fun h' => (by cases h'), fun h' => ?_⟩
      rw [h'] at h
      norm_num at h
  have hmid : a = (lo + 1 / 2) * pow2 q ↔ f = 1 / 2 :=
    ⟨fun h => le_antisymm ((hhalf _).1 h.le) ((hhalf' _).1 h.ge), fun h => le_antisymm ((hhalf _).2 h.le) ((hhalf' _).2 h.ge)⟩
  refine ⟨lo, if roundsUp m s lo c = true then lo + 1 else lo, ?_, ?_, hval, ?_, ?_, ?_, ?_, ?_, ?_, ?_⟩
  · rw [han]
    exact mul_le_mul_of_nonneg_right h1 hq.le
  · rw [han]
    exact mul_lt_mul_of_pos_right h2 hq
  · rw [hix, hiff, ← hz]
    cases c <;> decide
  · intro h
    rw [hz.2 (hiff.1 h)]
    cases m <;> cases s <;> rfl
  · by_cases h : roundsUp m s lo c = true
    · exact .inr (if_pos h)
    · exact .inl (if_neg h)
  · rintro rfl
    rw [hhalf, hhalf', hmid]
    rcases hcase with ⟨rfl, h⟩ | ⟨rfl, h⟩ | ⟨rfl, h⟩ | ⟨rfl, h⟩
    · rw [h]
      refine ⟨fun _ => by norm_num, fun hk => ?_, fun h' => by norm_num at h'⟩
      rw [if_neg (by simp [roundsUp])] at hk
      omega
    · refine ⟨fun _ => h.2.le, fun hk => ?_, fun h' => absurd h' h.2.ne⟩
      rw [if_neg (by simp [roundsUp])] at hk
      omega
    · refine ⟨fun _ => h.le, fun _ => h.ge, fun _ => ?_⟩
      by_cases hodd : lo % 2 = 1
      · rw [if_pos (by simp [roundsUp, hodd])]
        omega
      · rw [if_neg (by simp [roundsUp]; omega)]
        omega
    · refine ⟨fun hk => ?_, fun _ => h.le, fun h' => absurd h' h.ne'⟩
      rw [if_pos (by simp [roundsUp])] at hk
      omega
  · rintro rfl
    exact if_neg (by simp [roundsUp])
  · rintro rfl
    rw [ne_eq, hiff, ← hz]
    cases s <;> cases c <;> simp [roundsUp]
  · rintro rfl
    rw [ne_eq, hiff, ← hz]
    cases s <;> cases c <;> simp [roundsUp]

/-- A multiple of the quantum is returned unchanged, exactly. -/
theorem roundmag_exact (k : Nat) (q : Int) (s : Bool) (m : RMode) :
    roundmag (.rat (k * pow2 q)) q s m = ⟨k * pow2 q, false⟩ := by
  have hq := pow2_pos q
  obtain ⟨lo, k', h1, h2, hv, hix, hk, -⟩ :=
    roundmag_rat (k * pow2 q) (mul_nonneg (Nat.cast_nonneg k) hq.le) q s m
  have h3 : (lo : ℚ) ≤ k := le_of_mul_le_mul_right h1 hq
  have h4 : (k : ℚ) < lo + 1 := lt_of_mul_lt_mul_right h2 hq.le
  have h5 : k = lo := by
    have : lo ≤ k := by exact_mod_cast h3
    have : k < lo + 1 := by exact_mod_cast h4
    omega
  subst h5
  have h6 := hk rfl
  subst h6
  cases hr : roundmag (.rat (k' * pow2 q)) q s m with
  | mk v ix =>
    rw [hr] at hv hix
    simp only at hv hix
    rw [hv]
    simpa using hix

/-- The rounded value is one of the two multiples of the quantum around the magnitude. -/
theorem roundmag_between (a : ℚ) (ha : 0 ≤ a) (q : Int) (s : Bool) (m : RMode) :
    ∃ lo k : Nat, (lo : ℚ) * pow2 q ≤ a ∧ a < (lo + 1) * pow2 q ∧
      (roundmag (.rat a) q s m).value = k * pow2 q ∧ lo ≤ k ∧ k ≤ lo + 1 := by
  obtain ⟨lo, k, h1, h2, h3, -, -, h4, -⟩ := roundmag_rat a ha q s m
  exact ⟨lo, k, h1, h2, h3, by omega, by omega⟩

/-- Inexact means changed: `ix = (u != a)` (R151). -/
theorem roundmag_inexact_iff (a : ℚ) (ha : 0 ≤ a) (q : Int) (s : Bool) (m : RMode) :
    (roundmag (.rat a) q s m).inexact = true ↔ (roundmag (.rat a) q s m).value ≠ a := by
  have hq := pow2_pos q
  obtain ⟨lo, k, h1, h2, hv, hix, hk, hk2, -⟩ := roundmag_rat a ha q s m
  rw [← not_iff_not, not_ne_iff, Bool.not_eq_true, hix, hv]
  constructor
  · intro h
    rw [hk h, h]
  · intro h
    rcases hk2 with rfl | rfl
    · exact h.symm
    · rw [← h] at h2
      push_cast at h2
      exact absurd h2 (lt_irrefl _)

end Sys2Proof
end

