-- ==== Sys2Proof/Laws/Encoding.lean ====
section
/-! SUPPORT. Encodings and their exact values: the fields of an assembled encoding, representable magnitudes, and that
`enc` and `absVal` invert each other (40_numerics.md R141, R142, R158). -/

namespace Sys2Proof

/-! ## Fields -/

theorem toNat_pack (F : Fmt) (s : Bool) {e fr : Nat} (he : e < 2 ^ F.ebits) (hf : fr < 2 ^ F.fbits) :
    (pack F s e fr).toNat = s.toNat * 2 ^ (F.ebits + F.fbits) + e * 2 ^ F.fbits + fr := by
  cases F <;> cases s <;>
    simp only [pack, Fmt.ebits, Fmt.fbits, Fmt.width, BitVec.toNat_ofNat, Bool.toNat_true, Bool.toNat_false] at * <;>
    omega

theorem expOf_pack (F : Fmt) (s : Bool) {e fr : Nat} (he : e < 2 ^ F.ebits) (hf : fr < 2 ^ F.fbits) :
    expOf (pack F s e fr) = e := by
  rw [expOf, toNat_pack F s he hf]
  cases F <;> cases s <;> simp only [Fmt.ebits, Fmt.fbits, Bool.toNat_true, Bool.toNat_false] at * <;> omega

theorem fracOf_pack (F : Fmt) (s : Bool) {e fr : Nat} (he : e < 2 ^ F.ebits) (hf : fr < 2 ^ F.fbits) :
    fracOf (pack F s e fr) = fr := by
  rw [fracOf, toNat_pack F s he hf]
  cases F <;> cases s <;> simp only [Fmt.ebits, Fmt.fbits, Bool.toNat_true, Bool.toNat_false] at * <;> omega

theorem signOf_pack (F : Fmt) (s : Bool) {e fr : Nat} (he : e < 2 ^ F.ebits) (hf : fr < 2 ^ F.fbits) :
    signOf (pack F s e fr) = s := by
  rw [signOf, BitVec.msb_eq_decide, toNat_pack F s he hf]
  cases F <;> cases s <;> simp only [Fmt.ebits, Fmt.fbits, Fmt.width, Bool.toNat_true, Bool.toNat_false] at *
  · exact decide_eq_false (by omega)
  · exact decide_eq_true (by omega)
  · exact decide_eq_false (by omega)
  · exact decide_eq_true (by omega)

theorem expOf_lt {F : Fmt} (x : Enc F) : expOf x < 2 ^ F.ebits := Nat.mod_lt _ (by positivity)

theorem fracOf_lt {F : Fmt} (x : Enc F) : fracOf x < 2 ^ F.fbits := Nat.mod_lt _ (by positivity)

/-- An encoding is its sign, exponent field and fraction (R141). -/
theorem pack_fields {F : Fmt} (x : Enc F) : pack F (signOf x) (expOf x) (fracOf x) = x := by
  apply BitVec.eq_of_toNat_eq
  rw [toNat_pack F _ (expOf_lt x) (fracOf_lt x), signOf, BitVec.msb_eq_decide, expOf, fracOf]
  have hx := x.isLt
  cases F <;> simp only [Fmt.ebits, Fmt.fbits, Fmt.width] at *
  · by_cases h : 2 ^ (32 - 1) ≤ x.toNat <;> simp only [h, decide_true, decide_false, Bool.toNat_true, Bool.toNat_false] <;>
      omega
  · by_cases h : 2 ^ (64 - 1) ≤ x.toNat <;> simp only [h, decide_true, decide_false, Bool.toNat_true, Bool.toNat_false] <;>
      omega

theorem enc_ext {F : Fmt} {x y : Enc F} (hs : signOf x = signOf y) (he : expOf x = expOf y) (hf : fracOf x = fracOf y) :
    x = y := by
  rw [← pack_fields x, ← pack_fields y, hs, he, hf]

/-! ## Representable magnitudes -/

/-- A magnitude a format represents exactly: at most `p` bits above the least quantum, below `2^(emax + 1)` (R142). -/
def Representable (F : Fmt) (v : ℚ) : Prop :=
  ∃ (m : Nat) (q : Int), v = m * pow2 q ∧ m < 2 ^ F.prec ∧ F.emin - F.fbits ≤ q ∧ v < pow2 (F.emax + 1)

theorem Fmt.bias_pos (F : Fmt) : 0 < F.bias := by cases F <;> decide

theorem Fmt.maxExp_eq (F : Fmt) : (F.maxExp : Int) = F.emax + F.bias + 1 := by cases F <;> decide

/-- A positive magnitude below `2^(q + p)` and a multiple of `2^q` is a multiple of the quantum of its binade. -/
theorem quantum_le {p : Nat} {v : ℚ} {m : Nat} {q : Int} (hv : 0 < v) (h : v = m * pow2 q) (hm : m < 2 ^ p) :
    ilog2 v - p + 1 ≤ q := by
  obtain ⟨h1, -⟩ := ilog2_spec hv
  have h2 : v < pow2 (p + q) := by
    rw [h, pow2_add, pow2_nat]
    exact mul_lt_mul_of_pos_right (by exact_mod_cast hm) (pow2_pos q)
  have := pow2_lt.1 (h1.trans_lt h2)
  omega

/-- A multiple of a power of two is a multiple of every smaller one. -/
theorem mul_pow2_rescale (m : Nat) {q q' : Int} (h : q' ≤ q) :
    (m : ℚ) * pow2 q = ((m * 2 ^ (q - q').toNat : Nat) : ℚ) * pow2 q' := by
  have h1 : ((q - q').toNat : Int) = q - q' := Int.toNat_of_nonneg (by omega)
  rw [Nat.cast_mul, ← pow2_nat, h1, mul_assoc, ← pow2_add]
  congr 2
  ring

theorem floor_natCast (n : Nat) : ((n : ℚ)).floor.toNat = n := by
  have h : ((n : ℚ)).floor = n := Rat.floor_intCast n
  rw [h, Int.toNat_natCast]

theorem pow2_mul_cancel (x : ℚ) (q : Int) : x * pow2 q * pow2 (-q) = x := by
  rw [pow2_neg, mul_assoc, mul_inv_cancel₀ (pow2_ne_zero q), mul_one]

/-- `|val(x)|` of a finite encoding, whatever its class (R142). -/
theorem absVal_pack (F : Fmt) (s : Bool) {e fr : Nat} (he : e < 2 ^ F.ebits) (hf : fr < 2 ^ F.fbits) :
    absVal (pack F s e fr) =
      if e = 0 then (fr : ℚ) * pow2 (F.emin - F.fbits) else ((2 ^ F.fbits + fr : Nat) : ℚ) * pow2 ((e : Int) - F.bias - F.fbits) := by
  rw [absVal, expOf_pack F s he hf, fracOf_pack F s he hf]
  split
  · split
    · rename_i h
      rw [h]
      simp
    · rfl
  · rfl

/-- `enc` represents a representable magnitude exactly (R158). -/
theorem enc_spec (F : Fmt) (s : Bool) {v : ℚ} (hv0 : 0 ≤ v) (hv : Representable F v) :
    absVal (enc F s v) = v ∧ signOf (enc F s v) = s ∧ isFinite (enc F s v) = true := by
  obtain ⟨m, q, h, hm, hq, hlt⟩ := hv
  have hmx : 0 < F.maxExp := by cases F <;> decide
  have hmxlt : F.maxExp < 2 ^ F.ebits := by cases F <;> decide
  have hpos : 0 < 2 ^ F.fbits := by positivity
  have hpow : 0 < 2 ^ F.ebits := by positivity
  by_cases h0 : v = 0
  · rw [enc, if_pos h0, zeroOf, absVal_pack F s hpow hpos, signOf_pack F s hpow hpos, isFinite, expOf_pack F s hpow hpos]
    refine ⟨by simp [h0], rfl, ?_⟩
    simp [bne, hmx.ne]
  · have hvpos : 0 < v := lt_of_le_of_ne hv0 (Ne.symm h0)
    by_cases hsub : v < pow2 F.emin
    · have hK := mul_pow2_rescale m hq
      rw [← h] at hK
      generalize m * 2 ^ (q - (F.emin - F.fbits)).toNat = K at hK
      have hfl : (v * pow2 (F.fbits - F.emin)).floor.toNat = K := by
        rw [hK, show ((F.fbits : Int) - F.emin) = -(F.emin - F.fbits) by ring, pow2_mul_cancel, floor_natCast]
      have hKlt : K < 2 ^ F.fbits := by
        have h1 : (K : ℚ) * pow2 (F.emin - F.fbits) < (2 ^ F.fbits : Nat) * pow2 (F.emin - F.fbits) := by
          rw [← hK, ← pow2_nat, ← pow2_add]
          calc v < pow2 F.emin := hsub
            _ = _ := by congr 1; ring
        exact_mod_cast lt_of_mul_lt_mul_right h1 (pow2_pos _).le
      rw [enc, if_neg h0, if_pos hsub, hfl, absVal_pack F s hpow hKlt, signOf_pack F s hpow hKlt, isFinite,
        expOf_pack F s hpow hKlt, if_pos rfl, hK]
      refine ⟨rfl, rfl, ?_⟩
      simp [bne, hmx.ne]
    · have hge : pow2 F.emin ≤ v := not_lt.1 hsub
      have he1 : F.emin ≤ ilog2 v := (pow2_le_iff_le_ilog2 hvpos).1 hge
      obtain ⟨hb1, hb2⟩ := ilog2_spec hvpos
      have he2 : ilog2 v ≤ F.emax := by
        have := pow2_lt.1 (hb1.trans_lt hlt)
        omega
      have hq' : ilog2 v - F.fbits ≤ q := by
        have := quantum_le hvpos h hm
        simp only [Fmt.prec] at this
        push_cast at this
        omega
      have hK := mul_pow2_rescale m hq'
      rw [← h] at hK
      generalize hKd : m * 2 ^ (q - (ilog2 v - F.fbits)).toNat = K at hK
      have hfl : (v * pow2 (F.fbits - ilog2 v)).floor.toNat = K := by
        rw [hK, show ((F.fbits : Int) - ilog2 ((K : ℚ) * pow2 (ilog2 v - F.fbits))) = -(ilog2 v - F.fbits) by rw [← hK]; ring,
          pow2_mul_cancel, floor_natCast]
      have hK1 : 2 ^ F.fbits ≤ K := by
        have h1 : ((2 ^ F.fbits : Nat) : ℚ) * pow2 (ilog2 v - F.fbits) ≤ K * pow2 (ilog2 v - F.fbits) := by
          rw [← hK, ← pow2_nat, ← pow2_add]
          calc _ = pow2 (ilog2 v) := by congr 1; ring
            _ ≤ v := hb1
        exact_mod_cast le_of_mul_le_mul_right h1 (pow2_pos _)
      have hK2 : K - 2 ^ F.fbits < 2 ^ F.fbits := by
        have h1 : (K : ℚ) * pow2 (ilog2 v - F.fbits) < ((2 ^ (F.fbits + 1) : Nat) : ℚ) * pow2 (ilog2 v - F.fbits) := by
          rw [← hK, ← pow2_nat, ← pow2_add]
          calc v < pow2 (ilog2 v + 1) := hb2
            _ = _ := by congr 1; push_cast; ring
        have h2 : K < 2 ^ (F.fbits + 1) := by exact_mod_cast lt_of_mul_lt_mul_right h1 (pow2_pos _).le
        rw [pow_succ] at h2
        omega
      have heb : F.emin = 1 - (F.bias : Int) := rfl
      have hebx : F.emax = (F.bias : Int) := rfl
      have hbp := F.bias_pos
      have hEc : (((ilog2 v + F.bias).toNat : Nat) : Int) = ilog2 v + F.bias := Int.toNat_of_nonneg (by omega)
      have hE0 : (ilog2 v + F.bias).toNat ≠ 0 := by omega
      have hmaxI := F.maxExp_eq
      have hElt : (ilog2 v + F.bias).toNat < F.maxExp := by omega
      have hElt2 := hElt.trans hmxlt
      rw [enc, if_neg h0, if_neg hsub]
      simp only [hfl]
      rw [absVal_pack F s hElt2 hK2, signOf_pack F s hElt2 hK2, isFinite, expOf_pack F s hElt2 hK2, if_neg hE0]
      refine ⟨?_, rfl, by simpa [bne] using hElt.ne⟩
      rw [Nat.add_sub_cancel' hK1, hEc]
      calc (K : ℚ) * pow2 (ilog2 v + F.bias - F.bias - F.fbits) = K * pow2 (ilog2 v - F.fbits) := by congr 2; ring
        _ = v := hK.symm

/-- The value of a finite encoding is representable (R142). -/
theorem representable_absVal {F : Fmt} (x : Enc F) (hx : isFinite x = true) : Representable F (absVal x) := by
  have hf := fracOf_lt x
  have he := expOf_lt x
  have hm : expOf x ≠ F.maxExp := by simpa [isFinite, bne] using hx
  have hpx : (F.prec : Int) = F.fbits + 1 := by simp [Fmt.prec]
  have hle : F.emin + 1 ≤ F.emax := by cases F <;> decide
  rw [← pack_fields x, absVal_pack F _ he hf]
  by_cases h0 : expOf x = 0
  · rw [if_pos h0]
    refine ⟨fracOf x, F.emin - F.fbits, rfl, ?_, le_refl _, ?_⟩
    · rw [Fmt.prec, pow_succ]
      omega
    · calc (fracOf x : ℚ) * pow2 (F.emin - F.fbits) < ((2 ^ F.fbits : Nat) : ℚ) * pow2 (F.emin - F.fbits) :=
            mul_lt_mul_of_pos_right (by exact_mod_cast hf) (pow2_pos _)
        _ = pow2 F.emin := by rw [← pow2_nat, ← pow2_add]; congr 1; ring
        _ < _ := pow2_lt.2 (by omega)
  · rw [if_neg h0]
    have hb := F.bias_pos
    have hmx := F.maxExp_eq
    have hElt : expOf x < F.maxExp := by
      have : F.maxExp = 2 ^ F.ebits - 1 := rfl
      omega
    have heb : F.emin = 1 - (F.bias : Int) := rfl
    have hebx : F.emax = (F.bias : Int) := rfl
    refine ⟨2 ^ F.fbits + fracOf x, (expOf x : Int) - F.bias - F.fbits, rfl, ?_, by omega, ?_⟩
    · rw [Fmt.prec, pow_succ]
      omega
    · calc ((2 ^ F.fbits + fracOf x : Nat) : ℚ) * pow2 ((expOf x : Int) - F.bias - F.fbits)
          < ((2 ^ (F.fbits + 1) : Nat) : ℚ) * pow2 ((expOf x : Int) - F.bias - F.fbits) := by
            refine mul_lt_mul_of_pos_right ?_ (pow2_pos _)
            exact_mod_cast (by rw [pow_succ]; omega : 2 ^ F.fbits + fracOf x < 2 ^ (F.fbits + 1))
        _ = pow2 ((expOf x : Int) - F.bias + 1) := by rw [← pow2_nat, ← pow2_add]; congr 1; push_cast; ring
        _ ≤ _ := pow2_le.2 (by omega)

theorem absVal_nonneg {F : Fmt} (x : Enc F) : 0 ≤ absVal x := by
  unfold absVal
  split
  · split
    · exact le_refl _
    · exact mul_nonneg (by positivity) (pow2_pos _).le
  · exact mul_nonneg (by positivity) (pow2_pos _).le

theorem absVal_eq_zero {F : Fmt} (x : Enc F) : absVal x = 0 ↔ isZero x = true := by
  unfold absVal isZero
  by_cases he : expOf x = 0
  · by_cases hf : fracOf x = 0
    · simp [he, hf]
    · simp [he, hf, pow2_ne_zero]
  · have : ((2 ^ F.fbits + fracOf x : Nat) : ℚ) ≠ 0 := by
      have : 0 < 2 ^ F.fbits := by positivity
      exact_mod_cast (by omega : 2 ^ F.fbits + fracOf x ≠ 0)
    simp only [he, if_false]
    simp [he, pow2_ne_zero]
    exact_mod_cast this

/-- Sign and magnitude determine a finite encoding. -/
theorem finite_ext {F : Fmt} {x y : Enc F} (hs : signOf x = signOf y)
    (hv : absVal x = absVal y) : x = y := by
  have key : ∀ z : Enc F, (expOf z = 0 ∧ absVal z = fracOf z * pow2 (F.emin - F.fbits) ∧ absVal z < pow2 F.emin) ∨
      (expOf z ≠ 0 ∧ absVal z = ((2 ^ F.fbits + fracOf z : Nat) : ℚ) * pow2 ((expOf z : Int) - F.bias - F.fbits) ∧
        ilog2 (absVal z) = (expOf z : Int) - F.bias ∧ pow2 F.emin ≤ absVal z) := by
    intro z
    have hf := fracOf_lt z
    have h := absVal_pack F (signOf z) (expOf_lt z) hf
    rw [pack_fields] at h
    by_cases h0 : expOf z = 0
    · rw [if_pos h0] at h
      refine .inl ⟨h0, h, ?_⟩
      rw [h]
      calc (fracOf z : ℚ) * pow2 (F.emin - F.fbits) < ((2 ^ F.fbits : Nat) : ℚ) * pow2 (F.emin - F.fbits) :=
            mul_lt_mul_of_pos_right (by exact_mod_cast hf) (pow2_pos _)
        _ = pow2 F.emin := by rw [← pow2_nat, ← pow2_add]; congr 1; ring
    · rw [if_neg h0] at h
      have h1 : pow2 ((expOf z : Int) - F.bias) ≤ absVal z := by
        rw [h]
        calc pow2 ((expOf z : Int) - F.bias) = ((2 ^ F.fbits : Nat) : ℚ) * pow2 ((expOf z : Int) - F.bias - F.fbits) := by
              rw [← pow2_nat, ← pow2_add]; congr 1; ring
          _ ≤ _ := mul_le_mul_of_nonneg_right (by exact_mod_cast Nat.le_add_right _ _) (pow2_pos _).le
      have h2 : absVal z < pow2 ((expOf z : Int) - F.bias + 1) := by
        rw [h]
        calc ((2 ^ F.fbits + fracOf z : Nat) : ℚ) * pow2 ((expOf z : Int) - F.bias - F.fbits)
            < ((2 ^ (F.fbits + 1) : Nat) : ℚ) * pow2 ((expOf z : Int) - F.bias - F.fbits) := by
              refine mul_lt_mul_of_pos_right ?_ (pow2_pos _)
              exact_mod_cast (by rw [pow_succ]; omega : 2 ^ F.fbits + fracOf z < 2 ^ (F.fbits + 1))
          _ = _ := by rw [← pow2_nat, ← pow2_add]; congr 1; push_cast; ring
      refine .inr ⟨h0, h, ilog2_eq h1 h2, ?_⟩
      have heb : F.emin = 1 - (F.bias : Int) := rfl
      exact (pow2_le.2 (by omega)).trans h1
  rcases key x with ⟨hx0, hx1, hx2⟩ | ⟨hx0, hx1, hx2, hx3⟩ <;> rcases key y with ⟨hy0, hy1, hy2⟩ | ⟨hy0, hy1, hy2, hy3⟩
  · refine enc_ext hs (by rw [hx0, hy0]) ?_
    rw [hx1, hy1, mul_left_inj' (pow2_ne_zero _)] at hv
    exact_mod_cast hv
  · rw [hv] at hx2
    exact absurd hx2 (not_lt.2 hy3)
  · rw [← hv] at hy2
    exact absurd hy2 (not_lt.2 hx3)
  · have he : expOf x = expOf y := by
      rw [hv] at hx2
      omega
    refine enc_ext hs he ?_
    rw [hx1, hy1, he, mul_left_inj' (pow2_ne_zero _)] at hv
    have : 2 ^ F.fbits + fracOf x = 2 ^ F.fbits + fracOf y := by exact_mod_cast hv
    omega

/-- `enc` gives a finite encoding back from its sign and magnitude. -/
theorem enc_absVal {F : Fmt} (x : Enc F) (hx : isFinite x = true) : enc F (signOf x) (absVal x) = x := by
  obtain ⟨h1, h2, -⟩ := enc_spec F (signOf x) (absVal_nonneg x) (representable_absVal x hx)
  exact finite_ext h2 h1

/-! ## Classes -/

theorem finite_of_not {F : Fmt} {x : Enc F} (hi : isInf x = false) (hn : isNaN x = false) : isFinite x = true := by
  unfold isInf isNaN isFinite at *
  by_cases he : expOf x = F.maxExp
  · by_cases hf : fracOf x = 0 <;> simp [he, hf] at hi hn
  · simp [he]

end Sys2Proof
end

