-- ==== Sys2Proof/Laws/Flags.lean ====
section
/-! SUPPORT. The flag-or-trap rule of the shared pieces every kernel is made of: the status word they return differs from
the one they were given only by raised flags of disabled traps, and the outcome names only enabled kinds. -/

namespace Sys2Proof

theorem OnlyRaises.refl (may : List Exc) (st : Word) : OnlyRaises may st st := fun _ _ => .inl rfl

theorem OnlyRaises.raise {may : List Exc} {st st' : Word} (h : OnlyRaises may st st') {e : Exc} (he : e ∈ may) :
    OnlyRaises may st (raiseFlag e st') := by
  intro b hb
  rw [bitAt_raiseFlag e st' hb]
  by_cases hbe : b = e.flagBit
  · rw [if_pos hbe]
    exact .inr ⟨rfl, e, he, hbe⟩
  · rw [if_neg hbe]
    exact h b hb

theorem OnlyRaises.mono {may may' : List Exc} {st st' : Word} (h : OnlyRaises may st st')
    (hs : ∀ e ∈ may, e ∈ may') : OnlyRaises may' st st' := fun b hb =>
  (h b hb).imp_right fun ⟨h1, e, he, h2⟩ => ⟨h1, e, hs e he, h2⟩

theorem OnlyRaises.trans {may : List Exc} {a b c : Word} (h : OnlyRaises may a b) (h' : OnlyRaises may b c) :
    OnlyRaises may a c := by
  intro i hi
  rcases h' i hi with h2 | h2
  · rcases h i hi with h1 | h1
    · exact .inl (h2.trans h1)
    · exact .inr ⟨h2.trans h1.1, h1.2⟩
  · exact .inr h2

/-- Above the flags nothing changes. -/
theorem OnlyRaises.bit_eq {may : List Exc} {st st' : Word} (h : OnlyRaises may st st') {b : Nat} (h5 : 5 ≤ b)
    (hb : b < 32) : bitAt st' b = bitAt st b := by
  rcases h b hb with h1 | ⟨-, e, -, rfl⟩
  · exact h1
  · have := e.flagBit_lt
    omega

theorem OnlyRaises.flag_eq {may : List Exc} {st st' : Word} (h : OnlyRaises may st st') {e : Exc} (he : e ∉ may) :
    flagSet e st' = flagSet e st := by
  rcases h e.flagBit (by have := e.flagBit_lt; omega) with h1 | ⟨-, f, hf, hfe⟩
  · exact h1
  · exact absurd (Exc.flagBit_inj hfe ▸ hf) he

/-- A set flag stays set (R33). -/
theorem OnlyRaises.sticky {may : List Exc} {st st' : Word} (h : OnlyRaises may st st') {e : Exc}
    (he : flagSet e st = true) : flagSet e st' = true := by
  rcases h e.flagBit (by have := e.flagBit_lt; omega) with h1 | ⟨h1, -⟩
  · exact h1.trans he
  · exact h1

theorem OnlyRaises.enabled_eq {may : List Exc} {st st' : Word} (h : OnlyRaises may st st') (e : Exc) :
    enabled e st' = enabled e st :=
  h.bit_eq (by have := e.enableBit_ge; omega) e.enableBit_lt

theorem OnlyRaises.rmOf_eq {may : List Exc} {st st' : Word} (h : OnlyRaises may st st') : rmOf st' = rmOf st :=
  rmOf_congr (h.bit_eq (by omega) (by omega)) (h.bit_eq (by omega) (by omega))

theorem OnlyRaises.nil_eq {st st' : Word} (h : OnlyRaises [] st st') : st' = st :=
  word_ext fun b hb => (h b hb).resolve_right (by simp)

theorem FlagOrTrap.none (may report : List Exc) (st : Word) : FlagOrTrap may report st .none st where
  raises := .refl may st
  raisedDisabled e h1 h2 := by rw [h1] at h2; cases h2
  named e he := by simp [FpOutcome.names] at he
  implemented := by decide

/-- A further disabled kind raised after a flag-or-trap result that does not name it. -/
theorem FlagOrTrap.raise {may report : List Exc} {st st' : Word} {o : FpOutcome} (h : FlagOrTrap may report st o st')
    {e : Exc} (he : e ∈ may) (hd : enabled e st = false) : FlagOrTrap may report st o (raiseFlag e st') where
  raises := h.raises.raise he
  raisedDisabled f h1 h2 := by
    by_cases hfe : f = e
    · exact hfe ▸ hd
    · exact h.raisedDisabled f h1 (by simpa [hfe] using h2)
  named f hf := by
    obtain ⟨h1, h2, h3⟩ := h.named f hf
    refine ⟨h1, h2, ?_⟩
    have hfe : f ≠ e := by
      rintro rfl
      rw [hd] at h2
      cases h2
    simpa [hfe] using h3
  implemented := h.implemented

/-- A trapped kind returned after a result with outcome NONE. -/
theorem FlagOrTrap.trap {may report : List Exc} {st st' : Word} (h : FlagOrTrap may report st .none st')
    (o : FpOutcome) (hn : ∀ e ∈ o.names, e ∈ report ∧ enabled e st = true) (hu : o ≠ .unimplemented := by simp) :
    FlagOrTrap may report st o st' where
  raises := h.raises
  raisedDisabled := h.raisedDisabled
  named e he := by
    obtain ⟨h1, h2⟩ := hn e he
    refine ⟨h1, h2, ?_⟩
    cases hs : flagSet e st with
    | true => exact h.raises.sticky hs
    | false =>
      cases hs' : flagSet e st' with
      | false => rfl
      | true =>
        rw [h.raisedDisabled e hs hs'] at h2
        cases h2
  implemented := hu

theorem FlagOrTrap.mono {may may' report report' : List Exc} {st st' : Word} {o : FpOutcome}
    (h : FlagOrTrap may report st o st') (hm : ∀ e ∈ may, e ∈ may') (hr : ∀ e ∈ report, e ∈ report') :
    FlagOrTrap may' report' st o st' where
  raises := h.raises.mono hm
  raisedDisabled := h.raisedDisabled
  named e he := let ⟨h1, h2⟩ := h.named e he; ⟨hr e h1, h2⟩
  implemented := h.implemented

theorem not_enabled {e : Exc} {st : Word} (h : ¬ enabled e st = true) : enabled e st = false := by simpa using h

/-- The kinds a kernel result may raise and report. -/
def KResult.Ok {F : Fmt} (may report : List Exc) (st : Word) (k : KResult F) : Prop :=
  FlagOrTrap may report st k.outcome k.status

theorem clean_ok {F : Fmt} (may report : List Exc) (st : Word) (x : Enc F) : (KResult.clean st x).Ok may report st :=
  FlagOrTrap.none may report st

theorem invalid_ok {F : Fmt} {may report : List Exc} (hm : Exc.V ∈ may) (hr : Exc.V ∈ report) (st : Word)
    (u : BitVec 64) (d : Enc F) : (invalid st u d).Ok may report st := by
  unfold invalid
  split
  · rename_i h
    exact (FlagOrTrap.none may report st).trap .invalid (by simp [FpOutcome.names, hr, h])
  · rename_i h
    exact (FlagOrTrap.none may report st).raise hm (not_enabled h)

theorem divzero_ok {F : Fmt} {may report : List Exc} (hm : Exc.Z ∈ may) (hr : Exc.Z ∈ report) (st : Word)
    (u : BitVec 64) (d : Enc F) : (divzero st u d).Ok may report st := by
  unfold divzero
  split
  · rename_i h
    exact (FlagOrTrap.none may report st).trap .divByZero (by simp [FpOutcome.names, hr, h])
  · rename_i h
    exact (FlagOrTrap.none may report st).raise hm (not_enabled h)

/-- `inexact_only` after flags raised so far: `st0` is the status word at the start. -/
theorem inexactOnly_ok {may report : List Exc} {st0 st : Word} (h : FlagOrTrap may report st0 .none st) (ix : Bool)
    (hm : ix = true → Exc.I ∈ may) (hr : ix = true → Exc.I ∈ report) :
    FlagOrTrap may report st0 (inexactOnly ix st).1 (inexactOnly ix st).2 := by
  unfold inexactOnly
  cases ix with
  | false => exact h
  | true =>
    rw [if_pos rfl]
    split
    · rename_i he
      refine h.trap .inexact ?_
      rw [h.raises.enabled_eq] at he
      simp [FpOutcome.names, hr rfl, he]
    · rename_i he
      rw [h.raises.enabled_eq] at he
      exact h.raise (hm rfl) (not_enabled he)

theorem overflowPart_ok {may report : List Exc} {st : Word} (ix : Bool) (hO : enabled .O st = true)
    (hm : Exc.I ∈ may) (hr : Exc.O ∈ report ∧ Exc.I ∈ report) :
    FlagOrTrap may report st (overflowPart ix st).1 (overflowPart ix st).2 := by
  have h0 := FlagOrTrap.none may report st
  unfold overflowPart
  split
  · split
    · rename_i he
      exact h0.trap _ (by simp [FpOutcome.names, hr, hO, he])
    · rename_i he
      exact (h0.raise hm (not_enabled he)).trap _ (by simp [FpOutcome.names, hr, hO])
  · exact h0.trap _ (by simp [FpOutcome.names, hr, hO])

theorem underflowPart_ok {may report : List Exc} {st : Word} (ix : Bool) (hU : enabled .U st = true)
    (hm : ix = true → Exc.I ∈ may) (hr : Exc.U ∈ report) (hi : ix = true → Exc.I ∈ report) :
    FlagOrTrap may report st (underflowPart ix st).1 (underflowPart ix st).2 := by
  have h0 := FlagOrTrap.none may report st
  unfold underflowPart
  split
  · rename_i hix
    split
    · rename_i he
      exact h0.trap _ (by simp [FpOutcome.names, hr, hi hix, hU, he])
    · rename_i he
      exact (h0.raise (hm hix) (not_enabled he)).trap _ (by simp [FpOutcome.names, hr, hU])
  · exact h0.trap _ (by simp [FpOutcome.names, hr, hU])

end Sys2Proof
end

