-- ==== Sys2Proof/Laws/Rounding.lean ====
section
/-! SUPPORT. What `finish` can do (40_numerics.md R151): one lemma per case, the flag-or-trap rule of every case, exact
results, and the bounds that keep a result out of overflow and underflow. -/

namespace Sys2Proof

/-! ## Bounds on a rounded magnitude -/

/-- Rounding never passes a multiple of the quantum below the magnitude. -/
theorem roundmag_ge {a : ℚ} {q : Int} {s : Bool} {m : RMode} {n : Nat} (h : (n : ℚ) * pow2 q ≤ a) :
    (n : ℚ) * pow2 q ≤ (roundmag (.rat a) q s m).value := by
  have hq := pow2_pos q
  have ha : 0 ≤ a := le_trans (mul_nonneg (Nat.cast_nonneg n) hq.le) h
  obtain ⟨lo, k, -, h2, h3, h4, -⟩ := roundmag_between a ha q s m
  have h5 : (n : ℚ) < lo + 1 := lt_of_mul_lt_mul_right (h.trans_lt h2) hq.le
  have h6 : n < lo + 1 := by exact_mod_cast h5
  rw [h3]
  exact mul_le_mul_of_nonneg_right (by exact_mod_cast (by omega : n ≤ k)) hq.le

/-- Rounding never passes a multiple of the quantum above the magnitude. -/
theorem roundmag_le {a : ℚ} {q : Int} {s : Bool} {m : RMode} {n : Nat} (ha : 0 ≤ a) (h : a ≤ (n : ℚ) * pow2 q) :
    (roundmag (.rat a) q s m).value ≤ (n : ℚ) * pow2 q := by
  have hq := pow2_pos q
  obtain ⟨lo, k, h1, -, h3, -, hk, hk2, -⟩ := roundmag_rat a ha q s m
  have h5 : (lo : ℚ) ≤ n := le_of_mul_le_mul_right (h1.trans h) hq
  have h6 : lo ≤ n := by exact_mod_cast h5
  rw [h3]
  refine mul_le_mul_of_nonneg_right ?_ hq.le
  rcases Nat.lt_or_eq_of_le h6 with h7 | rfl
  · exact_mod_cast (by omega : k ≤ n)
  · exact_mod_cast (hk (le_antisymm h h1)).le

theorem roundmag_nonneg (a : Mag) (q : Int) (s : Bool) (m : RMode) : 0 ≤ (roundmag a q s m).value :=
  mul_nonneg (Nat.cast_nonneg _) (pow2_pos q).le

/-! ## Integer square roots -/

theorem isqrtFrom_spec (n i r : Nat) (h1 : r * r ≤ n) (h2 : n < (r + 2 ^ i) * (r + 2 ^ i)) :
    isqrtFrom n i r * isqrtFrom n i r ≤ n ∧ n < (isqrtFrom n i r + 1) * (isqrtFrom n i r + 1) := by
  induction i generalizing r with
  | zero => exact ⟨h1, by simpa [isqrtFrom] using h2⟩
  | succ i ih =>
    rw [isqrtFrom]
    split
    · rename_i h
      refine ih _ h ?_
      rwa [add_assoc, ← two_mul, ← pow_succ']
    · rename_i h
      exact ih _ h1 (not_le.1 h)

/-- `isqrt` is the integer square root. -/
theorem isqrt_spec (n : Nat) : isqrt n * isqrt n ≤ n ∧ n < (isqrt n + 1) * (isqrt n + 1) := by
  refine isqrtFrom_spec n _ 0 (by simp) ?_
  rw [zero_add, ← pow_add]
  exact (@Nat.lt_log2_self n).trans_le (Nat.pow_le_pow_right (by norm_num) (by omega))

/-- What `roundmag` knows of the root of a rational: the multiple of the quantum below it, by squares. -/
theorem roundmag_root (v : ℚ) (hv : 0 ≤ v) (q : Int) (s : Bool) (m : RMode) :
    ∃ lo k : Nat, ((lo * lo : Nat) : ℚ) * pow2 (2 * q) ≤ v ∧ v < (((lo + 1) * (lo + 1) : Nat) : ℚ) * pow2 (2 * q) ∧
      (roundmag (.root v) q s m).value = k * pow2 q ∧ lo ≤ k ∧ k ≤ lo + 1 ∧
      ((roundmag (.root v) q s m).inexact = false ↔ v = ((lo * lo : Nat) : ℚ) * pow2 (2 * q)) := by
  have hq := pow2_pos (2 * q)
  set w : ℚ := v * pow2 (-(2 * q)) with hw
  have hw0 : 0 ≤ w := mul_nonneg hv (pow2_pos _).le
  have hvw : v = w * pow2 (2 * q) := by
    rw [hw, pow2_neg]
    field_simp
  obtain ⟨h1, h2⟩ := floor_spec hw0
  obtain ⟨h3, h4⟩ := isqrt_spec w.floor.toNat
  have h3' : ((isqrt w.floor.toNat * isqrt w.floor.toNat : Nat) : ℚ) ≤ w := le_trans (by exact_mod_cast h3) h1
  have h4' : w < (((isqrt w.floor.toNat + 1) * (isqrt w.floor.toNat + 1) : Nat) : ℚ) :=
    h2.trans_le (by exact_mod_cast h4)
  have hval : (roundmag (.root v) q s m).value =
      ((if roundsUp m s ((Mag.root v).split q).1 ((Mag.root v).split q).2 = true then ((Mag.root v).split q).1 + 1
        else ((Mag.root v).split q).1 : Nat) : ℚ) * pow2 q := rfl
  have hlo : ((Mag.root v).split q).1 = isqrt w.floor.toNat := rfl
  have hix : (roundmag (.root v) q s m).inexact = (((Mag.root v).split q).2 != .zero) := rfl
  have hz : ((Mag.root v).split q).2 = .zero ↔ w = ((isqrt w.floor.toNat * isqrt w.floor.toNat : Nat) : ℚ) := by
    show (if w = ((isqrt w.floor.toNat * isqrt w.floor.toNat : Nat) : ℚ) then Frac.zero else _) = .zero ↔ _
    by_cases h : w = ((isqrt w.floor.toNat * isqrt w.floor.toNat : Nat) : ℚ)
    · exact ⟨fun _ => h, fun _ => if_pos h⟩
    · rw [if_neg h]
      refine ⟨fun h' => ?_, fun h' => absurd h' h⟩
      split at h'
      · cases h'
      · split at h' <;> cases h'
  rw [hlo] at hval
  refine ⟨isqrt w.floor.toNat, if roundsUp m s (isqrt w.floor.toNat) ((Mag.root v).split q).2 = true then
    isqrt w.floor.toNat + 1 else isqrt w.floor.toNat, ?_, ?_, hval, ?_, ?_, ?_⟩
  · rw [hvw]
    exact mul_le_mul_of_nonneg_right h3' hq.le
  · rw [hvw]
    exact mul_lt_mul_of_pos_right h4' hq
  · split <;> omega
  · split <;> omega
  · rw [hix]
    have : (((Mag.root v).split q).2 != Frac.zero) = false ↔ ((Mag.root v).split q).2 = .zero := by simp
    rw [this, hz, hvw, mul_left_inj' hq.ne']

/-! ## Exact results -/

/-- A magnitude of at most `p` bits is its own rounding at every quantum it is a multiple of. -/
theorem roundmag_of_multiple {a : ℚ} {n : Nat} {q q' : Int} (h : a = n * pow2 q) (hq : q' ≤ q) (s : Bool) (m : RMode) :
    roundmag (.rat a) q' s m = ⟨a, false⟩ := by
  rw [h, mul_pow2_rescale n hq]
  exact roundmag_exact _ q' s m

/-- `finish` of a nonzero representable result (R151): the result itself, no exception; with the underflow trap enabled a
tiny one is wrapped and reported (R155). -/
theorem finish_exact {F : Fmt} {r : ℚ} (hr : r ≠ 0) (h : Representable F |r|) (st : Word) (u : BitVec 64) (zs : Bool) :
    finish F st u r zs =
      if |r| < pow2 F.emin ∧ enabled .U st = true then
        ⟨wrapped F u (decide (r < 0)) (|r| * pow2 (Config.wrap F : Int)), .underflow, st⟩
      else .clean st (enc F (decide (r < 0)) |r|) := by
  obtain ⟨m, q, hv, hm, hq, hlt⟩ := h
  have hpos : 0 < |r| := abs_pos.2 hr
  have hp : (F.prec : Int) = F.fbits + 1 := by simp [Fmt.prec]
  have hu := roundmag_of_multiple hv (quantum_le hpos hv hm) (decide (r < 0)) (rmOf st)
  have hd := roundmag_of_multiple hv (show F.emin - F.prec + 1 ≤ q by omega) (decide (r < 0)) (rmOf st)
  rw [finish, if_neg hr, finishMag]
  simp only [Mag.log2, hu, hd]
  rw [if_neg (not_le.2 hlt)]
  by_cases ht : |r| < pow2 F.emin
  · rw [if_pos ht]
    by_cases hU : enabled .U st = true
    · rw [if_pos hU, if_pos ⟨ht, hU⟩]
      rfl
    · rw [if_neg hU]
      exact (if_neg fun h => hU h.2).symm
  · rw [if_neg ht]
    exact (if_neg fun h => ht h.1).symm

/-! ## The flag-or-trap rule -/

theorem of_ok {F : Fmt} {may report : List Exc} {st : Word} {x : Enc F} {o : FpOutcome × Word}
    (h : FlagOrTrap may report st o.1 o.2) : (KResult.of x o).Ok may report st := h

/-- A result in the normal range can only be inexact (R151). -/
theorem finishMag_normal {F : Fmt} {st : Word} {u : BitVec 64} {s : Bool} {a : Mag}
    (h1 : pow2 F.emin ≤ (roundmag a (a.log2 - F.prec + 1) s (rmOf st)).value)
    (h2 : (roundmag a (a.log2 - F.prec + 1) s (rmOf st)).value < pow2 (F.emax + 1)) :
    finishMag F st u s a = .of (enc F s (roundmag a (a.log2 - F.prec + 1) s (rmOf st)).value)
      (inexactOnly (roundmag a (a.log2 - F.prec + 1) s (rmOf st)).inexact st) := by
  simp only [finishMag]
  rw [if_neg (not_le.2 h2), if_neg (not_lt.2 h1)]

theorem finishMag_ok {F : Fmt} {may report : List Exc} (hO : Exc.O ∈ may ∧ Exc.O ∈ report)
    (hU : Exc.U ∈ may ∧ Exc.U ∈ report) (hI : Exc.I ∈ may ∧ Exc.I ∈ report) (st : Word) (u : BitVec 64) (s : Bool) (a : Mag) :
    (finishMag F st u s a).Ok may report st := by
  have h0 := FlagOrTrap.none may report st
  simp only [finishMag]
  split
  · split
    · rename_i h
      exact overflowPart_ok _ h hI.1 ⟨hO.2, hI.2⟩
    · rename_i h
      exact inexactOnly_ok (h0.raise hO.1 (not_enabled h)) true (fun _ => hI.1) (fun _ => hI.2)
  · split
    · split
      · rename_i h
        exact underflowPart_ok _ h (fun _ => hI.1) hU.2 (fun _ => hI.2)
      · rename_i h
        refine inexactOnly_ok ?_ _ (fun _ => hI.1) (fun _ => hI.2)
        split
        · exact h0.raise hU.1 (not_enabled h)
        · exact h0
    · exact inexactOnly_ok h0 _ (fun _ => hI.1) (fun _ => hI.2)

theorem finish_ok {F : Fmt} {may report : List Exc} (hO : Exc.O ∈ may ∧ Exc.O ∈ report)
    (hU : Exc.U ∈ may ∧ Exc.U ∈ report) (hI : Exc.I ∈ may ∧ Exc.I ∈ report) (st : Word) (u : BitVec 64) (r : ℚ) (zs : Bool) :
    (finish F st u r zs).Ok may report st := by
  unfold finish
  split
  · exact clean_ok _ _ _ _
  · exact finishMag_ok hO hU hI _ _ _ _

theorem nanRule_ok {F : Fmt} {may report : List Exc} (hm : Exc.V ∈ may) (hr : Exc.V ∈ report) {ops : List (Enc F)}
    {st : Word} {u : BitVec 64} {k : KResult F} (h : nanRule ops st u = some k) : k.Ok may report st := by
  unfold nanRule at h
  split at h
  · cases h
    exact invalid_ok hm hr _ _ _
  · rw [Option.map_eq_some_iff] at h
    obtain ⟨x, -, rfl⟩ := h
    exact clean_ok _ _ _ _

theorem afterNaN_ok {F : Fmt} {may report : List Exc} (hm : Exc.V ∈ may) (hr : Exc.V ∈ report) {ops : List (Enc F)}
    {st : Word} {u : BitVec 64} {k : KResult F} (h : k.Ok may report st) : (afterNaN ops st u k).Ok may report st := by
  unfold afterNaN
  cases hn : nanRule ops st u with
  | none => exact h
  | some k' => exact nanRule_ok hm hr hn

/-! ## Where the free value has no part -/

/-- With overflow and underflow untrapped a finished result holds no free value (R151). -/
theorem finish_untrapped {F : Fmt} {st : Word} (hO : enabled .O st = false) (hU : enabled .U st = false)
    (u u' : BitVec 64) (r : ℚ) (zs : Bool) : finish F st u r zs = finish F st u' r zs := by
  simp [finish, finishMag, hO, hU]

/-- With the invalid trap disabled the result is the default (R165). -/
theorem invalid_untrapped {F : Fmt} {st : Word} (hV : enabled .V st = false) (u u' : BitVec 64) (d : Enc F) :
    invalid st u d = invalid st u' d := by
  simp [invalid, hV]

/-- Without a NaN operand the NaN rule does nothing (R146). -/
theorem afterNaN_noNaN {F : Fmt} {ops : List (Enc F)} (h : noNaN ops = true) (st : Word) (u : BitVec 64) (k : KResult F) :
    afterNaN ops st u k = k := by
  have h1 : ∀ x ∈ ops, isNaN x = false := by simpa [noNaN] using h
  have h2 : ops.find? isSNaN = none := List.find?_eq_none.2 fun x hx => by simp [isSNaN, h1 x hx]
  have h3 : ops.find? isQNaN = none := List.find?_eq_none.2 fun x hx => by simp [isQNaN, h1 x hx]
  simp [afterNaN, nanRule, h2, h3]

end Sys2Proof
end

