-- ==== Sys2Proof/Laws/Kernels.lean ====
section
/-! SUPPORT. The flag-or-trap rule of every kernel, with the flags its rule names (42_arith.md, 43_fused_multi.md,
44_convert.md, 45_compare.md), and the bounds that keep FSQRT, FREM and the integer conversions out of overflow and
underflow. -/

namespace Sys2Proof

/-! ## FADD, FSUB, FMPY, FDIV, FMA, FRND -/

theorem kFadd_ok (F : Fmt) (st : Word) (u : BitVec 64) (x y : Enc F) :
    (kFadd F st u x y).Ok [.V, .O, .U, .I] [.V, .O, .U, .I] st := by
  refine afterNaN_ok (by simp) (by simp) ?_
  split
  · exact invalid_ok (by simp) (by simp) _ _ _
  · split
    · exact clean_ok _ _ _ _
    · split
      · exact clean_ok _ _ _ _
      · exact finish_ok (by simp) (by simp) (by simp) _ _ _ _

theorem kFsub_ok (F : Fmt) (st : Word) (u : BitVec 64) (x y : Enc F) :
    (kFsub F st u x y).Ok [.V, .O, .U, .I] [.V, .O, .U, .I] st := by
  refine afterNaN_ok (by simp) (by simp) ?_
  split
  · exact invalid_ok (by simp) (by simp) _ _ _
  · split
    · exact clean_ok _ _ _ _
    · split
      · exact clean_ok _ _ _ _
      · exact finish_ok (by simp) (by simp) (by simp) _ _ _ _

theorem kFmpy_ok (F : Fmt) (st : Word) (u : BitVec 64) (x y : Enc F) :
    (kFmpy F st u x y).Ok [.V, .O, .U, .I] [.V, .O, .U, .I] st := by
  refine afterNaN_ok (by simp) (by simp) ?_
  split
  · exact invalid_ok (by simp) (by simp) _ _ _
  · split
    · exact clean_ok _ _ _ _
    · exact finish_ok (by simp) (by simp) (by simp) _ _ _ _

theorem kFdiv_ok (F : Fmt) (st : Word) (u : BitVec 64) (x y : Enc F) :
    (kFdiv F st u x y).Ok [.V, .Z, .O, .U, .I] [.V, .Z, .O, .U, .I] st := by
  refine afterNaN_ok (by simp) (by simp) ?_
  split
  · exact invalid_ok (by simp) (by simp) _ _ _
  · split
    · exact invalid_ok (by simp) (by simp) _ _ _
    · split
      · exact clean_ok _ _ _ _
      · split
        · exact clean_ok _ _ _ _
        · split
          · exact divzero_ok (by simp) (by simp) _ _ _
          · exact finish_ok (by simp) (by simp) (by simp) _ _ _ _

theorem kFma_ok (F : Fmt) (neg : Bool) (st : Word) (u : BitVec 64) (x y z : Enc F) :
    (kFma F neg st u x y z).Ok [.V, .O, .U, .I] [.V, .O, .U, .I] st := by
  refine afterNaN_ok (by simp) (by simp) ?_
  split
  · exact invalid_ok (by simp) (by simp) _ _ _
  · split
    · split
      · exact invalid_ok (by simp) (by simp) _ _ _
      · exact clean_ok _ _ _ _
    · split
      · exact clean_ok _ _ _ _
      · exact finish_ok (by simp) (by simp) (by simp) _ _ _ _

theorem kFrnd_ok (F : Fmt) (st : Word) (u : BitVec 64) (x : Enc F) : (kFrnd F st u x).Ok [.V, .I] [.V, .I] st := by
  refine afterNaN_ok (by simp) (by simp) ?_
  split
  · exact clean_ok _ _ _ _
  · exact inexactOnly_ok (.none _ _ st) _ (by simp) (by simp)

/-! ## FREM: the remainder is exact (R225) -/

theorem nearestEven_spec (q : ℚ) : |q - nearestEven q| ≤ 1 / 2 := by
  have h1 : (q.floor : ℚ) ≤ q := Rat.floor_le q
  have h2 : q < (q.floor : ℚ) + 1 := by exact_mod_cast Rat.lt_floor_add_one q
  simp only [nearestEven]
  rw [abs_le]
  split
  · constructor <;> linarith
  · split
    · push_cast
      constructor <;> linarith
    · split <;> push_cast <;> constructor <;> linarith

/-- The nearest integer is at least as near as zero. -/
theorem nearestEven_le (q : ℚ) : |q - nearestEven q| ≤ |q| := by
  have h := nearestEven_spec q
  by_cases hq : 1 / 2 ≤ |q|
  · exact h.trans hq
  · have h1 : |(nearestEven q : ℚ)| < 1 := by
      have h2 : |(nearestEven q : ℚ)| ≤ |q| + |q - nearestEven q| := by
        have := abs_sub_abs_le_abs_sub (nearestEven q : ℚ) q
        rw [abs_sub_comm] at this
        linarith
      linarith
    have h2 : nearestEven q = 0 := Int.abs_lt_one_iff.1 (by exact_mod_cast h1)
    rw [h2]
    simp

/-- A signed value as an integer multiple of a power of two. -/
theorem val_eq_int {F : Fmt} {x : Enc F} {m : Nat} {q q' : Int} (h : absVal x = m * pow2 q) (hq : q' ≤ q) :
    ∃ z : Int, val x = z * pow2 q' ∧ z.natAbs = m * 2 ^ (q - q').toNat := by
  rw [mul_pow2_rescale m hq] at h
  cases hs : signOf x with
  | false =>
    refine ⟨((m * 2 ^ (q - q').toNat : Nat) : Int), ?_, Int.natAbs_natCast _⟩
    rw [val, hs, signed, if_neg (by simp), h, Int.cast_natCast]
  | true =>
    refine ⟨-((m * 2 ^ (q - q').toNat : Nat) : Int), ?_, by rw [Int.natAbs_neg, Int.natAbs_natCast]⟩
    rw [val, hs, signed, if_pos rfl, h, Int.cast_neg, Int.cast_natCast, neg_mul]

theorem abs_val {F : Fmt} (x : Enc F) : |val x| = absVal x := by
  have h := absVal_nonneg x
  rw [val, signed]
  split
  · rw [abs_neg, abs_of_nonneg h]
  · exact abs_of_nonneg h

/-- The remainder of two finite operands is representable: it is an integer multiple of the smaller quantum, no larger
than the divisor's half nor than the dividend. -/
theorem remainder_representable {F : Fmt} {x y : Enc F} (hx : isFinite x = true) (hy : isFinite y = true)
    (hy0 : isZero y = false) : Representable F |val x - nearestEven (val x / val y) * val y| := by
  obtain ⟨mx, qx, hxv, hmx, hqx, hxlt⟩ := representable_absVal x hx
  obtain ⟨my, qy, hyv, hmy, hqy, hylt⟩ := representable_absVal y hy
  have hyne : val y ≠ 0 := by
    intro h
    have : absVal y = 0 := by rw [← abs_val, h, abs_zero]
    rw [absVal_eq_zero, hy0] at this
    cases this
  have hr : ∀ n : Int, |val x - n * val y| = |val x / val y - n| * |val y| := by
    intro n
    rw [← abs_mul, sub_mul, div_mul_cancel₀ _ hyne]
  have hle1 : |val x - nearestEven (val x / val y) * val y| ≤ absVal y := by
    rw [hr, ← abs_val y]
    have := nearestEven_spec (val x / val y)
    have := abs_nonneg (val y)
    nlinarith
  have hle2 : |val x - nearestEven (val x / val y) * val y| ≤ absVal x := by
    rw [hr, ← abs_val x]
    calc _ ≤ |val x / val y| * |val y| := mul_le_mul_of_nonneg_right (nearestEven_le _) (abs_nonneg _)
      _ = |val x| := by rw [← abs_mul, div_mul_cancel₀ _ hyne]
  generalize nearestEven (val x / val y) = n at *
  obtain ⟨X, hX, hXm⟩ := val_eq_int hxv (min_le_left qx qy)
  obtain ⟨Y, hY, hYm⟩ := val_eq_int hyv (min_le_right qx qy)
  have hR : |val x - n * val y| = ((X - n * Y).natAbs : Nat) * pow2 (min qx qy) := by
    rw [hX, hY, Nat.cast_natAbs, Int.cast_abs, show (X : ℚ) * pow2 (min qx qy) - n * (Y * pow2 (min qx qy))
      = ((X - n * Y : Int) : ℚ) * pow2 (min qx qy) by push_cast; ring, abs_mul, abs_of_pos (pow2_pos _)]
  refine ⟨(X - n * Y).natAbs, min qx qy, hR, ?_, le_min hqx hqy, hle2.trans_lt hxlt⟩
  have hpos := pow2_pos (min qx qy)
  rcases le_total qx qy with h | h
  · have h1 : min qx qy = qx := min_eq_left h
    rw [hR, hxv, h1] at hle2
    have : ((X - n * Y).natAbs : ℚ) ≤ mx := le_of_mul_le_mul_right hle2 (pow2_pos qx)
    exact lt_of_le_of_lt (by exact_mod_cast this) hmx
  · have h1 : min qx qy = qy := min_eq_right h
    rw [hR, hyv, h1] at hle1
    have : ((X - n * Y).natAbs : ℚ) ≤ my := le_of_mul_le_mul_right hle1 (pow2_pos qy)
    exact lt_of_le_of_lt (by exact_mod_cast this) hmy

theorem notNaN_of_nanRule {F : Fmt} {ops : List (Enc F)} {st : Word} {u : BitVec 64} (h : nanRule ops st u = none) :
    ∀ x ∈ ops, isNaN x = false := by
  intro x hx
  unfold nanRule at h
  split at h
  · cases h
  · rename_i hs
    rw [Option.map_eq_none_iff] at h
    have h1 := List.find?_eq_none.1 hs x hx
    have h2 := List.find?_eq_none.1 h x hx
    cases hn : isNaN x with
    | false => rfl
    | true => simp [isQNaN, hn, h1] at h2

/-- A kernel that is past the NaN rule has no NaN operand. -/
theorem afterNaN_cases {F : Fmt} (ops : List (Enc F)) (st : Word) (u : BitVec 64) (k : KResult F) :
    (∃ k', nanRule ops st u = some k' ∧ afterNaN ops st u k = k') ∨
      (nanRule ops st u = none ∧ (∀ x ∈ ops, isNaN x = false) ∧ afterNaN ops st u k = k) := by
  unfold afterNaN
  cases h : nanRule ops st u with
  | none => exact .inr ⟨rfl, notNaN_of_nanRule h, rfl⟩
  | some k' => exact .inl ⟨k', rfl, rfl⟩

theorem kFrem_ok (F : Fmt) (st : Word) (u : BitVec 64) (x y : Enc F) : (kFrem F st u x y).Ok [.V] [.V, .U] st := by
  unfold kFrem
  rcases afterNaN_cases [x, y] st u _ with ⟨k', h1, h2⟩ | ⟨-, hn, h2⟩
  · rw [h2]
    exact nanRule_ok (by simp) (by simp) h1
  · rw [h2]
    have hnx := hn x (by simp)
    have hny := hn y (by simp)
    split
    · exact invalid_ok (by simp) (by simp) _ _ _
    · rename_i h3
      simp only [Bool.or_eq_true, not_or, Bool.not_eq_true] at h3
      split
      · exact clean_ok _ _ _ _
      · rename_i h4
        split
        · exact clean_ok _ _ _ _
        · have hfx := finite_of_not h3.1 hnx
          have hfy := finite_of_not (by simpa using h4) hny
          by_cases hr : val x - nearestEven (val x / val y) * val y = 0
          · rw [finish, if_pos hr]
            exact clean_ok _ _ _ _
          · rw [finish_exact hr (remainder_representable hfx hfy h3.2)]
            split
            · rename_i h5
              exact (FlagOrTrap.none _ _ st).trap .underflow (by simp [FpOutcome.names, h5.2])
            · exact clean_ok _ _ _ _

/-! ## FSQRT: no overflow or underflow (R226) -/

/-- The root of a positive finite value rounds into the normal range. -/
theorem root_normal {F : Fmt} {v : ℚ} (hv : Representable F v) (hpos : 0 < v) (s : Bool) (m : RMode) :
    pow2 F.emin ≤ (roundmag (.root v) ((Mag.root v).log2 - F.prec + 1) s m).value ∧
      (roundmag (.root v) ((Mag.root v).log2 - F.prec + 1) s m).value < pow2 (F.emax + 1) := by
  obtain ⟨m', q', hvq, -, hq', hlt⟩ := hv
  obtain ⟨hb1, hb2⟩ := ilog2_spec hpos
  have hp : (F.prec : Int) = F.fbits + 1 := by simp [Fmt.prec]
  -- the logarithm of the operand
  have he1 : F.emin - F.fbits ≤ ilog2 v := by
    have hm' : m' ≠ 0 := by
      rintro rfl
      simp only [Nat.cast_zero, zero_mul] at hvq
      exact hpos.ne' hvq
    refine (pow2_le_iff_le_ilog2 hpos).1 ?_
    rw [hvq]
    calc pow2 (F.emin - F.fbits) ≤ pow2 q' := pow2_le.2 hq'
      _ = 1 * pow2 q' := (one_mul _).symm
      _ ≤ m' * pow2 q' := mul_le_mul_of_nonneg_right (by exact_mod_cast Nat.one_le_iff_ne_zero.2 hm') (pow2_pos _).le
  have he2 : ilog2 v ≤ F.emax := by
    have := pow2_lt.1 (hb1.trans_lt hlt)
    omega
  have hlog : (Mag.root v).log2 = ilog2 v / 2 := rfl
  rw [hlog]
  generalize hE : ilog2 v = E at *
  generalize he : E / 2 = e
  have hEe : 2 * e ≤ E ∧ E ≤ 2 * e + 1 := by omega
  obtain ⟨lo, k, h1, h2, h3, h4, h5, -⟩ := roundmag_root v hpos.le (e - F.prec + 1) s m
  have hq := pow2_pos (e - F.prec + 1)
  have hq2 := pow2_pos (2 * (e - F.prec + 1))
  -- 2^(p-1) ≤ lo < 2^p
  have hlo1 : 2 ^ F.fbits ≤ lo := by
    by_contra hc
    have hc' : (lo + 1) * (lo + 1) ≤ 2 ^ F.fbits * 2 ^ F.fbits := Nat.mul_le_mul (by omega) (by omega)
    have : v < pow2 (2 * e) := by
      calc v < (((lo + 1) * (lo + 1) : Nat) : ℚ) * pow2 (2 * (e - F.prec + 1)) := h2
        _ ≤ ((2 ^ F.fbits * 2 ^ F.fbits : Nat) : ℚ) * pow2 (2 * (e - F.prec + 1)) :=
          mul_le_mul_of_nonneg_right (by exact_mod_cast hc') hq2.le
        _ = pow2 (2 * e) := by
          rw [← pow_add, ← pow2_nat, ← pow2_add]
          congr 1
          push_cast
          rw [hp]
          ring
    exact absurd (hb1.trans_lt this) (not_lt.2 (pow2_le.2 hEe.1))
  have hlo2 : lo < 2 ^ F.prec := by
    by_contra hc
    have hc' : 2 ^ F.prec * 2 ^ F.prec ≤ lo * lo := Nat.mul_le_mul (by omega) (by omega)
    have : pow2 (2 * e + 2) ≤ v := by
      calc pow2 (2 * e + 2) = ((2 ^ F.prec * 2 ^ F.prec : Nat) : ℚ) * pow2 (2 * (e - F.prec + 1)) := by
            rw [← pow_add, ← pow2_nat, ← pow2_add]
            congr 1
            push_cast
            ring
        _ ≤ ((lo * lo : Nat) : ℚ) * pow2 (2 * (e - F.prec + 1)) :=
          mul_le_mul_of_nonneg_right (by exact_mod_cast hc') hq2.le
        _ ≤ v := h1
    exact absurd (this.trans_lt hb2) (not_lt.2 (pow2_le.2 (by omega)))
  have hrange : F.emin ≤ (F.emin - F.fbits) / 2 ∧ F.emax / 2 + 1 ≤ F.emax ∧ F.emin ≤ F.emax := by cases F <;> decide
  rw [h3]
  constructor
  · calc pow2 F.emin ≤ pow2 e := pow2_le.2 (by omega)
      _ = ((2 ^ F.fbits : Nat) : ℚ) * pow2 (e - F.prec + 1) := by
        rw [← pow2_nat, ← pow2_add]
        congr 1
        rw [hp]
        ring
      _ ≤ k * pow2 (e - F.prec + 1) := mul_le_mul_of_nonneg_right (by exact_mod_cast hlo1.trans h4) hq.le
  · calc (k : ℚ) * pow2 (e - F.prec + 1) ≤ ((2 ^ F.prec : Nat) : ℚ) * pow2 (e - F.prec + 1) :=
          mul_le_mul_of_nonneg_right (by exact_mod_cast (by omega : k ≤ 2 ^ F.prec)) hq.le
      _ = pow2 (e + 1) := by
        rw [← pow2_nat, ← pow2_add]
        congr 1
        ring
      _ < _ := pow2_lt.2 (by omega)

theorem kFsqrt_ok (F : Fmt) (st : Word) (u : BitVec 64) (x : Enc F) : (kFsqrt F st u x).Ok [.V, .I] [.V, .I] st := by
  unfold kFsqrt
  rcases afterNaN_cases [x] st u _ with ⟨k', h1, h2⟩ | ⟨-, hn, h2⟩
  · rw [h2]
    exact nanRule_ok (by simp) (by simp) h1
  · rw [h2]
    have hnx := hn x (by simp)
    split
    · exact clean_ok _ _ _ _
    · rename_i hz
      split
      · exact invalid_ok (by simp) (by simp) _ _ _
      · rename_i hs
        split
        · exact clean_ok _ _ _ _
        · rename_i hi
          have hfx := finite_of_not (by simpa using hi) hnx
          have hv : val x = absVal x := by
            rw [val, signed, if_neg hs]
          have hpos : 0 < absVal x :=
            lt_of_le_of_ne (absVal_nonneg x) fun h => hz ((absVal_eq_zero x).1 h.symm)
          rw [hv]
          obtain ⟨h3, h4⟩ := root_normal (representable_absVal x hfx) hpos false (rmOf st)
          rw [finishMag_normal h3 h4]
          exact inexactOnly_ok (.none _ _ st) _ (by simp) (by simp)

/-! ## Integer to float: no overflow or underflow (R283) -/

/-- A nonzero integer of at most 64 bits rounds into the normal range of either format. -/
theorem integer_normal (F : Fmt) {n : Int} (hn : n ≠ 0) (hlt : n.natAbs ≤ 2 ^ 64) (s : Bool) (m : RMode) :
    pow2 F.emin ≤ (roundmag (.rat |(n : ℚ)|) (ilog2 |(n : ℚ)| - F.prec + 1) s m).value ∧
      (roundmag (.rat |(n : ℚ)|) (ilog2 |(n : ℚ)| - F.prec + 1) s m).value < pow2 (F.emax + 1) := by
  have habs : |(n : ℚ)| = (n.natAbs : Nat) := by rw [Nat.cast_natAbs, Int.cast_abs]
  have hpos : 0 < |(n : ℚ)| := abs_pos.2 (by exact_mod_cast hn)
  obtain ⟨hb1, hb2⟩ := ilog2_spec hpos
  have hp : (F.prec : Int) = F.fbits + 1 := by simp [Fmt.prec]
  have h0 : 0 ≤ ilog2 |(n : ℚ)| := by
    refine (pow2_le_iff_le_ilog2 hpos).1 ?_
    rw [pow2_zero, habs]
    exact_mod_cast Nat.one_le_iff_ne_zero.2 (Int.natAbs_ne_zero.2 hn)
  have h64 : ilog2 |(n : ℚ)| ≤ 64 := by
    have h1 : |(n : ℚ)| ≤ pow2 (64 : Nat) := by
      rw [habs, pow2_nat]
      exact_mod_cast hlt
    have := pow2_le.1 (hb1.trans h1)
    omega
  have hrange : F.emin ≤ 0 ∧ 66 ≤ F.emax := by cases F <;> decide
  have hq := pow2_pos (ilog2 |(n : ℚ)| - F.prec + 1)
  constructor
  · have hlo : ((2 ^ F.fbits : Nat) : ℚ) * pow2 (ilog2 |(n : ℚ)| - F.prec + 1) = pow2 (ilog2 |(n : ℚ)|) := by
      rw [← pow2_nat, ← pow2_add]
      congr 1
      rw [hp]
      ring
    have := roundmag_ge (s := s) (m := m) (hlo.le.trans hb1)
    rw [hlo] at this
    exact (pow2_le.2 (by omega)).trans this
  · have hhi : ((2 ^ F.prec : Nat) : ℚ) * pow2 (ilog2 |(n : ℚ)| - F.prec + 1) = pow2 (ilog2 |(n : ℚ)| + 1) := by
      rw [← pow2_nat, ← pow2_add]
      congr 1
      ring
    have := roundmag_le (s := s) (m := m) hpos.le (hb2.le.trans hhi.ge)
    rw [hhi] at this
    exact this.trans_lt (pow2_lt.2 (by omega))

theorem intVal_natAbs_le {F : Fmt} (isSigned : Bool) (n : Enc F) : (intVal isSigned n).natAbs ≤ 2 ^ 64 := by
  have h1 := n.isLt
  have h2 := @BitVec.toInt_lt _ n
  have h3 := @BitVec.le_toInt _ n
  unfold intVal
  split
  · cases F <;> simp only [Fmt.width] at * <;> norm_num at * <;> omega
  · cases F <;> simp only [Fmt.width] at * <;> norm_num at * <;> omega

theorem kCnvXF_ok (F G : Fmt) (isSigned : Bool) (st : Word) (u : BitVec 64) (n : Enc F) :
    (kCnvXF F G isSigned st u n).Ok [.I] [.I] st := by
  unfold kCnvXF finish
  split
  · exact clean_ok _ _ _ _
  · rename_i h
    have hn : intVal isSigned n ≠ 0 := by exact_mod_cast h
    obtain ⟨h1, h2⟩ := integer_normal G hn (intVal_natAbs_le isSigned n) (decide ((intVal isSigned n : ℚ) < 0)) (rmOf st)
    rw [finishMag_normal h1 h2]
    exact inexactOnly_ok (.none _ _ st) _ (by simp) (by simp)

/-! ## The other conversions -/

theorem kCnvSD_ok (st : Word) (u : BitVec 64) (x : Enc .sgl) : (kCnvSD st u x).Ok [.V] [.V] st := by
  unfold kCnvSD
  split
  · exact invalid_ok (by simp) (by simp) _ _ _
  · split
    · exact clean_ok _ _ _ _
    · split
      · exact clean_ok _ _ _ _
      · split <;> exact clean_ok _ _ _ _

theorem kCnvDS_ok (st : Word) (u v : BitVec 64) (x : Enc .dbl) :
    (kCnvDS st u v x).Ok [.V, .O, .U, .I] [.V, .O, .U, .I] st := by
  unfold kCnvDS
  split
  · exact invalid_ok (by simp) (by simp) _ _ _
  · split
    · exact clean_ok _ _ _ _
    · split
      · exact clean_ok _ _ _ _
      · split
        · exact clean_ok _ _ _ _
        · exact finish_ok (by simp) (by simp) (by simp) _ _ _ _

theorem kCnvFX_ok (F G : Fmt) (isSigned : Bool) (m : RMode) (st : Word) (u : BitVec 64) (x : Enc F) :
    (kCnvFX F G isSigned m st u x).Ok [.V, .I] [.V, .I] st := by
  simp only [kCnvFX]
  split
  · exact invalid_ok (by simp) (by simp) _ _ _
  · split
    · exact clean_ok _ _ _ _
    · generalize (if signOf x = true then _ else _ : Int) = n
      split
      · exact inexactOnly_ok (.none _ _ st) _ (by simp) (by simp)
      · exact invalid_ok (by simp) (by simp) _ _ _

end Sys2Proof
end

