-- ==== Sys2Proof/Laws/State.lean ====
section
/-! SUPPORT. One lemma per field per update of State, and the read-after-write laws of words and operands. The block has
no memory (R60), so there is no memory form to keep. -/

namespace Sys2Proof.Machine

section Updates
variable (s : State) (i j : Fin 64) (v : Word) (o : FpOutcome) (b : Bool) (g : Signal) (F : Fmt)

@[simp] theorem State.word_setWord_self : (s.setWord i v).word i = v := by
  simp [State.setWord, State.word]

theorem State.word_setWord : (s.setWord i v).word j = if j = i then v else s.word j := by
  by_cases h : j = i
  · subst h
    simp
  · rw [if_neg h]
    have h' : ¬ i.val = j.val := fun e => h (Fin.ext e.symm)
    simp only [State.setWord, State.word, Fin.getElem_fin, Vector.getElem_set, if_neg h']

@[simp] theorem State.word_setWord_ne (h : j ≠ i) : (s.setWord i v).word j = s.word j := by
  rw [State.word_setWord, if_neg h]

@[simp] theorem State.variant_setWord : (s.setWord i v).variant = s.variant := rfl
@[simp] theorem State.calls_setWord : (s.setWord i v).calls = s.calls := rfl
@[simp] theorem State.returned_setWord : (s.setWord i v).returned = s.returned := rfl
@[simp] theorem State.draws_setWord : (s.setWord i v).draws = s.draws := rfl

theorem State.status_eq : s.status = s.word 0 := rfl
theorem State.setStatus_eq : s.setStatus v = s.setWord 0 v := rfl

@[simp] theorem State.status_setStatus : (s.setStatus v).status = v := State.word_setWord_self s 0 v
@[simp] theorem State.word_setStatus_ne (h : j ≠ 0) : (s.setStatus v).word j = s.word j :=
  State.word_setWord_ne s 0 j v h
@[simp] theorem State.variant_setStatus : (s.setStatus v).variant = s.variant := rfl
@[simp] theorem State.calls_setStatus : (s.setStatus v).calls = s.calls := rfl
@[simp] theorem State.returned_setStatus : (s.setStatus v).returned = s.returned := rfl

@[simp] theorem State.word_tookDraws : s.tookDraws.word i = s.word i := rfl
@[simp] theorem State.status_tookDraws : s.tookDraws.status = s.status := rfl
@[simp] theorem State.variant_tookDraws : s.tookDraws.variant = s.variant := rfl
@[simp] theorem State.calls_tookDraws : s.tookDraws.calls = s.calls := rfl
@[simp] theorem State.returned_tookDraws : s.tookDraws.returned = s.returned := rfl
@[simp] theorem State.read_tookDraws : s.tookDraws.read F i = s.read F i := rfl

@[simp] theorem State.word_finishWith : (s.finishWith o).word i = s.word i := rfl
@[simp] theorem State.fr_finishWith : (s.finishWith o).fr = s.fr := rfl
@[simp] theorem State.status_finishWith : (s.finishWith o).status = s.status := rfl
@[simp] theorem State.variant_finishWith : (s.finishWith o).variant = s.variant := rfl
@[simp] theorem State.calls_finishWith : (s.finishWith o).calls = s.calls := rfl
@[simp] theorem State.returned_finishWith : (s.finishWith o).returned = .outcome o := rfl
@[simp] theorem State.draws_finishWith : (s.finishWith o).draws = s.draws := rfl
@[simp] theorem State.outcome_finishWith : (s.finishWith o).outcome = o := rfl
@[simp] theorem State.read_finishWith : (s.finishWith o).read F i = s.read F i := rfl

@[simp] theorem State.word_unimplemented : s.unimplemented.word i = s.word i := rfl
@[simp] theorem State.status_unimplemented : s.unimplemented.status = s.status := rfl
@[simp] theorem State.variant_unimplemented : s.unimplemented.variant = s.variant := rfl
@[simp] theorem State.calls_unimplemented : s.unimplemented.calls = s.calls := rfl
@[simp] theorem State.returned_unimplemented : s.unimplemented.returned = .outcome .unimplemented := rfl

@[simp] theorem State.status_setT : (s.setT b).status = putBit tBit b s.status := State.status_setStatus s _
@[simp] theorem State.word_setT_ne (h : i ≠ 0) : (s.setT b).word i = s.word i := State.word_setStatus_ne s i _ h
@[simp] theorem State.variant_setT : (s.setT b).variant = s.variant := rfl
@[simp] theorem State.calls_setT : (s.setT b).calls = s.calls := rfl

@[simp] theorem State.status_terminal : (s.terminal g).status = putBit tBit true s.status := State.status_setT s true
@[simp] theorem State.word_terminal_ne (h : i ≠ 0) : (s.terminal g).word i = s.word i := State.word_setT_ne s i true h
@[simp] theorem State.variant_terminal : (s.terminal g).variant = s.variant := rfl
@[simp] theorem State.calls_terminal : (s.terminal g).calls = s.calls := rfl
@[simp] theorem State.returned_terminal :
    (s.terminal g).returned = .signal (Config.sigEncode g.sig g.code) := rfl

@[simp] theorem State.status_drained : s.drained.status = putBit tBit false s.status := State.status_setT s false
@[simp] theorem State.word_drained_ne (h : i ≠ 0) : s.drained.word i = s.word i := State.word_setT_ne s i false h
@[simp] theorem State.variant_drained : s.drained.variant = s.variant := rfl
@[simp] theorem State.calls_drained : s.drained.calls = s.calls := rfl
@[simp] theorem State.returned_drained : s.drained.returned = .signal Config.noSignal := rfl

@[simp] theorem State.variant_write (e : Enc F) : (s.write F i e).variant = s.variant := by cases F <;> rfl
@[simp] theorem State.calls_write (e : Enc F) : (s.write F i e).calls = s.calls := by cases F <;> rfl
@[simp] theorem State.returned_write (e : Enc F) : (s.write F i e).returned = s.returned := by cases F <;> rfl
@[simp] theorem State.draws_write (e : Enc F) : (s.write F i e).draws = s.draws := by cases F <;> rfl

end Updates

/-- A pair's two words are different words. -/
theorem succ_ne_self (i : Fin 64) : i + 1 ≠ i := by
  revert i
  decide

/-- Two words joined and cut again. -/
theorem pair_join (v : BitVec 64) : (v.extractLsb' 32 32 ++ v.extractLsb' 0 32 : BitVec 64) = v := by
  apply BitVec.eq_of_getLsbD_eq
  intro k hk
  rw [BitVec.getLsbD_append]
  by_cases h : k < 32
  · simp [h]
  · have h1 : 32 + (k - 32) = k := by omega
    have h2 : k - 32 < 32 := by omega
    simp [h, h1, h2]

/-- A word outside the written operand keeps its value. -/
theorem State.word_write_of_notMem (s : State) (F : Fmt) (i j : Fin 64) (v : Enc F) (h : j ∉ operandWords F i) :
    (s.write F i v).word j = s.word j := by
  cases F with
  | sgl =>
    have h1 : j ≠ i := by simpa [operandWords] using h
    exact State.word_setWord_ne s i j v h1
  | dbl =>
    have h1 : j ≠ i ∧ j ≠ i + 1 := by simpa [operandWords] using h
    simp only [State.write]
    rw [State.word_setWord_ne _ _ _ _ h1.2, State.word_setWord_ne _ _ _ _ h1.1]

/-- A read of the written operand gives the written value (R12, R23). -/
@[simp] theorem State.read_write_self (s : State) (F : Fmt) (i : Fin 64) (v : Enc F) :
    (s.write F i v).read F i = v := by
  cases F with
  | sgl => exact State.word_setWord_self s i v
  | dbl =>
    simp only [State.write, State.read]
    rw [State.word_setWord_self, State.word_setWord_ne _ _ _ _ (succ_ne_self i).symm, State.word_setWord_self]
    exact pair_join v

/-- A read sees only the operand's words. -/
theorem State.read_congr {s t : State} {F : Fmt} {i : Fin 64} (h : ∀ j ∈ operandWords F i, t.word j = s.word j) :
    t.read F i = s.read F i := by
  cases F with
  | sgl => exact h i (by simp [operandWords])
  | dbl =>
    simp only [State.read]
    rw [h i (by simp [operandWords]), h (i + 1) (by simp [operandWords])]

/-- Two states with the same words are the same register file. -/
theorem State.fr_ext {s t : State} (h : ∀ i, t.word i = s.word i) : t.fr = s.fr := by
  apply Vector.ext
  intro i hi
  exact h ⟨i, hi⟩

end Sys2Proof.Machine
end

