-- ==== Sys2Proof/Laws/Operands.lean ====
section
/-! SUPPORT. The operand decoding and the shapes of an instruction (30_encoding.md R87 to R98, 42_arith.md R220): where a
destination can lie, what each shape answers, and what delivering a result leaves. -/

namespace Sys2Proof

/-- A destination index that carries an operand of a format: a data word, even for a pair (R62, R98). -/
def dataIndex (F : Fmt) (d : Fin 64) : Prop := 8 ≤ d.val ∧ (F = .dbl → d.val % 2 = 0)

theorem Form.dst_word {form : Form} {F : Fmt} {t : RegSel} {d : Fin 64} (h : form.dst F t = .word d) :
    dataIndex F d ∧ d = form.aligned F t := by
  unfold Form.dst at h
  split at h
  · cases h
  · split at h
    · cases h
    · rename_i h1
      cases h
      refine ⟨⟨?_, ?_⟩, rfl⟩
      · have h2 := Fin.not_lt.1 h1
        exact h2
      · rintro rfl
        simp [Form.aligned, RegSel.left]

theorem fused_word {F : Fmt} {t : RegSel} {d : Fin 64} (h : dstOf (fusedIndex F t) = .word d) : dataIndex F d := by
  unfold dstOf at h
  split at h
  · cases h
  · split at h
    · cases h
    · rename_i h1
      cases h
      refine ⟨Fin.not_lt.1 h1, ?_⟩
      rintro rfl
      simp [fusedIndex, RegSel.left]

theorem multi_word {F : Fmt} {f : Fin 32} (h : ¬ multiIndex F f < 8) : dataIndex F (multiIndex F f) := by
  refine ⟨Fin.not_lt.1 h, ?_⟩
  rintro rfl
  simp [multiIndex]

/-- An operand at a data index lies in the data words (R22). -/
theorem dataIndex.words {F : Fmt} {d : Fin 64} (h : dataIndex F d) : ∀ j ∈ operandWords F d, 8 ≤ j.val := by
  intro j hj
  obtain ⟨h1, h2⟩ := h
  cases F with
  | sgl =>
    simp only [operandWords, List.mem_singleton] at hj
    subst hj
    exact h1
  | dbl =>
    simp only [operandWords, List.mem_cons, List.not_mem_nil, or_false] at hj
    rcases hj with rfl | rfl
    · exact h1
    · have h3 := h2 rfl
      have h4 := d.isLt
      rw [Fin.val_add]
      have : (1 : Fin 64).val = 1 := rfl
      omega

theorem dataIndex.ne_zero {F : Fmt} {d : Fin 64} (h : dataIndex F d) {j : Fin 64} (hj : j ∈ operandWords F d) : j ≠ 0 := by
  have h1 := h.words j hj
  rintro rfl
  simp at h1

theorem dataIndex.zero_notMem {F : Fmt} {d : Fin 64} (h : dataIndex F d) : (0 : Fin 64) ∉ operandWords F d :=
  fun hj => h.ne_zero hj rfl

namespace Machine

/-! ## Writing a data operand -/

@[simp] theorem State.read_setStatus_of {s : State} {F : Fmt} {d : Fin 64} (h : dataIndex F d) (v : Word) :
    (s.setStatus v).read F d = s.read F d :=
  State.read_congr fun j hj => State.word_setStatus_ne s j v (h.ne_zero hj)

theorem State.status_write_of {s : State} {F : Fmt} {d : Fin 64} (h : dataIndex F d) (v : Enc F) :
    (s.write F d v).status = s.status :=
  State.word_write_of_notMem s F d 0 v h.zero_notMem

/-- Delivering a kernel result to a data operand (R220). -/
theorem deliver_delivered (s : State) {F : Fmt} {d : Fin 64} (h : dataIndex F d) (k : KResult F) :
    Delivered s (s.deliver d k) d k where
  result := by simp [State.deliver]
  status := by
    rw [State.deliver, State.status_finishWith, State.status_tookDraws, State.status_write_of h, State.status_setStatus]
  outcome := rfl
  others i h0 hi := by
    rw [State.deliver, State.word_finishWith, State.word_tookDraws, State.word_write_of_notMem _ _ _ _ _ hi,
      State.word_setStatus_ne _ _ _ h0]
  variant := by simp [State.deliver]
  calls := by simp [State.deliver]

theorem unimplemented_writesNothing (s : State) : WritesNothing s s.unimplemented := ⟨fun _ => rfl, rfl, rfl⟩

/-! ## The shapes -/

theorem withDst_next {s t : State} {d : DstOp} {k : Fin 64 → Result} (h : withDst s d k = .next t) :
    (d = .unimplemented ∧ t = s.unimplemented) ∨ ∃ i, d = .word i ∧ k i = .next t := by
  cases d with
  | unimplemented =>
    cases h
    exact .inl ⟨rfl, rfl⟩
  | word i => exact .inr ⟨i, rfl, h⟩
  | queue => cases h

theorem withSrc_next {s t : State} {F : Fmt} {a : SrcOp} {k : Enc F → Result} (h : withSrc s F a k = .next t) :
    ∃ x, srcVal s F a = some x ∧ k x = .next t := by
  cases a with
  | zero => exact ⟨0, rfl, h⟩
  | word i => exact ⟨s.read F i, rfl, h⟩
  | status => cases h

theorem withSrc_of_srcVal {s : State} {F : Fmt} {a : SrcOp} {x : Enc F} (h : srcVal s F a = some x) (k : Enc F → Result) :
    withSrc s F a k = k x := by
  cases a with
  | zero => cases h; rfl
  | word i => cases h; rfl
  | status => cases h

theorem withDst_fault {s : State} {d : DstOp} {k : Fin 64 → Result} {f : Fault} (h : withDst s d k = .fault f) :
    ∃ i, k i = .fault f := by
  cases d with
  | unimplemented => cases h
  | word i => exact ⟨i, h⟩
  | queue => cases h

theorem withSrc_fault {s : State} {F : Fmt} {a : SrcOp} {k : Enc F → Result} {f : Fault}
    (h : withSrc s F a k = .fault f) : ∃ x, k x = .fault f := by
  cases a with
  | zero => exact ⟨0, h⟩
  | word i => exact ⟨s.read F i, h⟩
  | status => cases h

section Shapes
variable {s t : State} {F G : Fmt} {a b c : SrcOp} {d : DstOp} {f : Fault}

/-- Everything a one-source instruction can answer. -/
theorem unary_next {op : Word → BitVec 64 → BitVec 64 → Enc F → KResult G} (h : unary s F G a d op = .next t) :
    (d = .unimplemented ∧ t = s.unimplemented) ∨
      ∃ i x, d = .word i ∧ srcVal s F a = some x ∧ t = s.deliver i (op s.status (s.draw 0) (s.draw 1) x) := by
  refine (withDst_next h).imp_right ?_
  rintro ⟨i, hi, h⟩
  obtain ⟨x, hx, h⟩ := withSrc_next h
  cases h
  exact ⟨i, x, hi, hx, rfl⟩

theorem unary_eq {op : Word → BitVec 64 → BitVec 64 → Enc F → KResult G} {i : Fin 64} {x : Enc F} (hd : d = .word i)
    (hx : srcVal s F a = some x) :
    unary s F G a d op = .next (s.deliver i (op s.status (s.draw 0) (s.draw 1) x)) := by
  simp only [unary, hd, withDst, withSrc_of_srcVal hx]

theorem unary_no_fault {op : Word → BitVec 64 → BitVec 64 → Enc F → KResult G} : unary s F G a d op ≠ .fault f := by
  intro h
  obtain ⟨_, h⟩ := withDst_fault h
  obtain ⟨_, h⟩ := withSrc_fault h
  cases h

/-- Everything a two-source instruction can answer. -/
theorem binary_next {op : Word → BitVec 64 → Enc F → Enc F → KResult F} (h : binary s F a b d op = .next t) :
    (d = .unimplemented ∧ t = s.unimplemented) ∨
      ∃ i x y, d = .word i ∧ srcVal s F a = some x ∧ srcVal s F b = some y ∧
        t = s.deliver i (op s.status (s.draw 0) x y) := by
  refine (withDst_next h).imp_right ?_
  rintro ⟨i, hi, h⟩
  obtain ⟨x, hx, h⟩ := withSrc_next h
  obtain ⟨y, hy, h⟩ := withSrc_next h
  cases h
  exact ⟨i, x, y, hi, hx, hy, rfl⟩

theorem binary_eq {op : Word → BitVec 64 → Enc F → Enc F → KResult F} {i : Fin 64} {x y : Enc F} (hd : d = .word i)
    (hx : srcVal s F a = some x) (hy : srcVal s F b = some y) :
    binary s F a b d op = .next (s.deliver i (op s.status (s.draw 0) x y)) := by
  simp only [binary, hd, withDst, withSrc_of_srcVal hx, withSrc_of_srcVal hy]

theorem binary_no_fault {op : Word → BitVec 64 → Enc F → Enc F → KResult F} : binary s F a b d op ≠ .fault f := by
  intro h
  obtain ⟨_, h⟩ := withDst_fault h
  obtain ⟨_, h⟩ := withSrc_fault h
  obtain ⟨_, h⟩ := withSrc_fault h
  cases h

/-- Everything a three-source instruction can answer. -/
theorem ternary_next {op : Word → BitVec 64 → Enc F → Enc F → Enc F → KResult F}
    (h : ternary s F a b c d op = .next t) :
    (d = .unimplemented ∧ t = s.unimplemented) ∨
      ∃ i x y z, d = .word i ∧ srcVal s F a = some x ∧ srcVal s F b = some y ∧ srcVal s F c = some z ∧
        t = s.deliver i (op s.status (s.draw 0) x y z) := by
  refine (withDst_next h).imp_right ?_
  rintro ⟨i, hi, h⟩
  obtain ⟨x, hx, h⟩ := withSrc_next h
  obtain ⟨y, hy, h⟩ := withSrc_next h
  obtain ⟨z, hz, h⟩ := withSrc_next h
  cases h
  exact ⟨i, x, y, z, hi, hx, hy, hz, rfl⟩

theorem ternary_eq {op : Word → BitVec 64 → Enc F → Enc F → Enc F → KResult F} {i : Fin 64} {x y z : Enc F}
    (hd : d = .word i) (hx : srcVal s F a = some x) (hy : srcVal s F b = some y) (hz : srcVal s F c = some z) :
    ternary s F a b c d op = .next (s.deliver i (op s.status (s.draw 0) x y z)) := by
  simp only [ternary, hd, withDst, withSrc_of_srcVal hx, withSrc_of_srcVal hy, withSrc_of_srcVal hz]

theorem ternary_no_fault {op : Word → BitVec 64 → Enc F → Enc F → Enc F → KResult F} :
    ternary s F a b c d op ≠ .fault f := by
  intro h
  obtain ⟨_, h⟩ := withDst_fault h
  obtain ⟨_, h⟩ := withSrc_fault h
  obtain ⟨_, h⟩ := withSrc_fault h
  obtain ⟨_, h⟩ := withSrc_fault h
  cases h

end Shapes

/-! ## Moves -/

/-- The state a move leaves: a kernel result with the value moved and nothing else (R200). -/
theorem move_next {s t : State} {form : Form} {fmt : MoveFmt} {r d : RegSel} {f : (F : Fmt) → Enc F → Enc F}
    (h : move s form fmt r d f = .next t) :
    t = s.unimplemented ∨
      ∃ F i x, fmt = .num F ∧ form.dst F d = .word i ∧ srcVal s F (form.src F r) = some x ∧
        t = (s.write F i (f F x)).finishWith .none := by
  cases fmt with
  | num F =>
    refine (withDst_next h).imp And.right ?_
    rintro ⟨i, hi, h⟩
    obtain ⟨x, hx, h⟩ := withSrc_next h
    cases h
    exact ⟨F, i, x, rfl, hi, hx, rfl⟩
  | quad =>
    simp only [move] at h
    split at h
    · cases h
      exact .inl rfl
    · cases h

theorem move_eq {s : State} {form : Form} {F : Fmt} {r d : RegSel} {f : (F : Fmt) → Enc F → Enc F} {i : Fin 64}
    {x : Enc F} (hd : form.dst F d = .word i) (hx : srcVal s F (form.src F r) = some x) :
    move s form (.num F) r d f = .next ((s.write F i (f F x)).finishWith .none) := by
  simp only [move, hd, withDst]
  exact withSrc_of_srcVal hx _

theorem move_no_fault {s : State} {form : Form} {fmt : MoveFmt} {r d : RegSel} {f : (F : Fmt) → Enc F → Enc F}
    {e : Fault} : move s form fmt r d f ≠ .fault e := by
  intro h
  cases fmt with
  | num F =>
    obtain ⟨_, h⟩ := withDst_fault h
    obtain ⟨_, h⟩ := withSrc_fault h
    cases h
  | quad =>
    simp only [move] at h
    split at h <;> cases h

theorem move_delivered (s : State) {F : Fmt} {d : Fin 64} (h : dataIndex F d) (x : Enc F) :
    Delivered s ((s.write F d x).finishWith .none) d (KResult.clean s.status x) where
  result := by simp [KResult.clean]
  status := by rw [State.status_finishWith, State.status_write_of h]; rfl
  outcome := rfl
  others i _ hi := by rw [State.word_finishWith, State.word_write_of_notMem _ _ _ _ _ hi]
  variant := by simp
  calls := by simp

/-! ## The multiple instructions -/

/-- Everything FMPYADD and FMPYSUB can answer (R264). -/
theorem multi_next {s t : State} {F : Fmt} {rm1 rm2 ta ra tm : Fin 32}
    {op2 : Word → BitVec 64 → Enc F → Enc F → KResult F} (h : multi s F rm1 rm2 ta ra tm op2 = .next t) :
    t = s.unimplemented ∨
      ∃ a b, dataIndex F (multiIndex F tm) ∧ dataIndex F (multiIndex F ta) ∧
        srcVal s F (srcOf (multiIndex F rm1)) = some a ∧ srcVal s F (srcOf (multiIndex F rm2)) = some b ∧
        t = multiCombine s F (multiIndex F tm) (multiIndex F ta) a b (s.read F (multiIndex F ta))
          (s.read F (multiIndex F ra)) op2 := by
  unfold multi at h
  split at h
  · cases h
  · split at h
    · cases h
      exact .inl rfl
    · split at h
      · cases h
      · rename_i h1
        rw [not_or] at h1
        obtain ⟨a, ha, h⟩ := withSrc_next h
        obtain ⟨b, hb, h⟩ := withSrc_next h
        cases h
        exact .inr ⟨a, b, multi_word h1.1, multi_word h1.2, ha, hb, rfl⟩

theorem multi_no_fault {s : State} {F : Fmt} {rm1 rm2 ta ra tm : Fin 32}
    {op2 : Word → BitVec 64 → Enc F → Enc F → KResult F} {f : Fault} : multi s F rm1 rm2 ta ra tm op2 ≠ .fault f := by
  intro h
  unfold multi at h
  split at h
  · cases h
  · split at h
    · cases h
    · split at h
      · cases h
      · obtain ⟨_, h⟩ := withSrc_fault h
        obtain ⟨_, h⟩ := withSrc_fault h
        cases h

end Machine

end Sys2Proof
end

