-- ==== Sys2Proof/Laws/Exec.lean ====
section
/-! SUPPORT. Everything one instruction can do (30_encoding.md R91, 42_arith.md R220, 43_fused_multi.md R264, 45_compare.md
R312): it returns UNIMPLEMENTED and writes nothing, or it ends as `Ran` says. Later proofs cite `exec_next` and do not
unfold the meanings. -/

namespace Sys2Proof

theorem compareQueue_bit (v : Variant) (u : BitVec 64) (st : Word) {b : Nat} (hb : b < 32)
    (h : ¬ (v = .pa20 ∧ 6 ≤ b ∧ b ≤ 20)) : bitAt (compareQueue v u st) b = bitAt st b := by
  cases v with
  | pa11 => rfl
  | pa20 =>
    have h1 : ¬ (6 ≤ b ∧ b < 6 + 15) := fun h2 => h ⟨rfl, h2.1, by omega⟩
    simp only [compareQueue]
    rw [bitAt_deposit _ _ _ _ _ (by omega) hb, if_neg h1]

/-- The status word FCMP leaves, bit by bit (R312, R316). -/
theorem kFcmp_bit {F : Fmt} (st : Word) (x y : Enc F) (c : Fin 32) {b : Nat} (hb : b < 32) :
    bitAt (kFcmp st x y c).2 b =
      if b = cBit then condHolds c (relOf x y)
      else if b = Exc.V.flagBit ∧ compareInvalid x y c = true ∧ enabled .V st = false then true else bitAt st b := by
  have hc : cBit < 32 := by decide
  unfold kFcmp
  by_cases h : compareInvalid x y c = true
  · rw [if_pos h]
    by_cases he : enabled .V st = true
    · rw [if_pos he]
      simp [bitAt_putBit _ _ _ _ hc hb, he]
    · rw [if_neg he]
      rw [not_enabled he]
      simp only [bitAt_putBit _ _ _ _ hc hb, bitAt_raiseFlag _ _ hb, h, and_self, and_true]
  · rw [if_neg h]
    simp [bitAt_putBit _ _ _ _ hc hb, h]

/-- FCMP's outcome (R312). -/
theorem kFcmp_outcome {F : Fmt} (st : Word) (x y : Enc F) (c : Fin 32) :
    (kFcmp st x y c).1 = if compareInvalid x y c = true ∧ enabled .V st = true then .invalid else .none := by
  unfold kFcmp
  by_cases h : compareInvalid x y c = true <;> by_cases he : enabled .V st = true <;> simp [h, he]

/-- Two flag-or-trap results in a row, the first without an exception. -/
theorem FlagOrTrap.comp {may report : List Exc} {a b c : Word} {o : FpOutcome} (h : FlagOrTrap may report a .none b)
    (h' : FlagOrTrap may report b o c) : FlagOrTrap may report a o c where
  raises := h.raises.trans h'.raises
  raisedDisabled e h1 h2 := by
    cases h3 : flagSet e b with
    | true => exact h.raisedDisabled e h1 h3
    | false => rw [← h.raises.enabled_eq]; exact h'.raisedDisabled e h3 h2
  named e he := by
    obtain ⟨h1, h2, h3⟩ := h'.named e he
    rw [h.raises.enabled_eq] at h2
    refine ⟨h1, h2, h3.trans ?_⟩
    cases hs : flagSet e a with
    | true => exact h.raises.sticky hs
    | false =>
      cases hs' : flagSet e b with
      | false => rfl
      | true =>
        rw [h.raisedDisabled e hs hs'] at h2
        cases h2
  implemented := h'.implemented

/-- A NONE outcome names nothing, whatever may be reported. -/
theorem FlagOrTrap.quietly {may report report' : List Exc} {a b : Word} (h : FlagOrTrap may report a .none b) :
    FlagOrTrap may report' a .none b where
  raises := h.raises
  raisedDisabled := h.raisedDisabled
  named e he := by simp [FpOutcome.names] at he
  implemented := h.implemented

namespace Machine

/-- What an instruction leaves when it does not return UNIMPLEMENTED. -/
structure Ran (i : Instr) (s t : State) : Prop where
  /-- No word changes but the status word and the destination words. -/
  words : ∀ j, j ≠ 0 → j ∉ i.writes → t.word j = s.word j
  /-- The destination words are data words. -/
  data : ∀ j ∈ i.writes, 8 ≤ j.val
  variant : t.variant = s.variant
  calls : t.calls = s.calls
  /-- The outcome, with the flag-or-trap rule of every instruction but FCMP. -/
  ends : i.isCompare = false → ∃ o, t.returned = .outcome o ∧ FlagOrTrap i.mayRaise i.mayReport s.status o t.status
  /-- FCMP's outcome and status word. -/
  compare : i.isCompare = true → ∃ (F : Fmt) (x y : Enc F) (c : Fin 32),
    t.returned = .outcome (kFcmp s.status x y c).1 ∧ i.mayRaise = [.V] ∧ i.mayReport = [.V] ∧
    ∀ b, b < 32 → ¬ (s.variant = .pa20 ∧ 6 ≤ b ∧ b ≤ 20) → bitAt t.status b = bitAt (kFcmp s.status x y c).2 b

theorem ran_of_delivered {i : Instr} {s t : State} {F : Fmt} {d : Fin 64} {k : KResult F} (h : Delivered s t d k)
    (hd : dataIndex F d) (hw : i.writes = operandWords F d) (hc : i.isCompare = false)
    (hk : k.Ok i.mayRaise i.mayReport s.status) : Ran i s t where
  words j h0 hj := h.others j h0 (hw ▸ hj)
  data j hj := hd.words j (hw ▸ hj)
  variant := h.variant
  calls := h.calls
  ends _ := ⟨k.outcome, h.outcome, h.status ▸ hk⟩
  compare h' := by rw [hc] at h'; cases h'


theorem ran_unary {i : Instr} {s t : State} {F G : Fmt} {a : SrcOp} {d : DstOp}
    {op : Word → BitVec 64 → BitVec 64 → Enc F → KResult G} (h : unary s F G a d op = .next t)
    (hd : ∀ j, d = .word j → dataIndex G j) (hw : i.writes = dstWords G d) (hc : i.isCompare = false)
    (hk : ∀ st u v x, (op st u v x).Ok i.mayRaise i.mayReport st) : t = s.unimplemented ∨ Ran i s t := by
  obtain ⟨-, rfl⟩ | ⟨j, x, rfl, -, rfl⟩ := unary_next h
  · exact .inl rfl
  · exact .inr (ran_of_delivered (deliver_delivered s (hd j rfl) _) (hd j rfl) hw hc (hk _ _ _ _))

theorem ran_binary {i : Instr} {s t : State} {F : Fmt} {a b : SrcOp} {d : DstOp}
    {op : Word → BitVec 64 → Enc F → Enc F → KResult F} (h : binary s F a b d op = .next t)
    (hd : ∀ j, d = .word j → dataIndex F j) (hw : i.writes = dstWords F d) (hc : i.isCompare = false)
    (hk : ∀ st u x y, (op st u x y).Ok i.mayRaise i.mayReport st) : t = s.unimplemented ∨ Ran i s t := by
  obtain ⟨-, rfl⟩ | ⟨j, x, y, rfl, -, -, rfl⟩ := binary_next h
  · exact .inl rfl
  · exact .inr (ran_of_delivered (deliver_delivered s (hd j rfl) _) (hd j rfl) hw hc (hk _ _ _ _))

theorem ran_ternary {i : Instr} {s t : State} {F : Fmt} {a b c : SrcOp} {d : DstOp}
    {op : Word → BitVec 64 → Enc F → Enc F → Enc F → KResult F} (h : ternary s F a b c d op = .next t)
    (hd : ∀ j, d = .word j → dataIndex F j) (hw : i.writes = dstWords F d) (hc : i.isCompare = false)
    (hk : ∀ st u x y z, (op st u x y z).Ok i.mayRaise i.mayReport st) : t = s.unimplemented ∨ Ran i s t := by
  obtain ⟨-, rfl⟩ | ⟨j, x, y, z, rfl, -, -, -, rfl⟩ := ternary_next h
  · exact .inl rfl
  · exact .inr (ran_of_delivered (deliver_delivered s (hd j rfl) _) (hd j rfl) hw hc (hk _ _ _ _ _))

theorem ran_move {i : Instr} {s t : State} {form : Form} {m : MoveFmt} {r d : RegSel}
    {f : (F : Fmt) → Enc F → Enc F} (h : move s form m r d f = .next t)
    (hw : ∀ F, m = .num F → i.writes = dstWords F (form.dst F d)) (hc : i.isCompare = false) :
    t = s.unimplemented ∨ Ran i s t := by
  obtain h | ⟨F, j, x, hm, hj, -, rfl⟩ := move_next h
  · exact .inl h
  · have hd := (Form.dst_word hj).1
    exact .inr (ran_of_delivered (move_delivered s hd _) hd ((hw F hm).trans (by rw [hj]; rfl)) hc (clean_ok _ _ _ _))

/-- The words a successful multiple instruction leaves (R264). -/
theorem multiCombine_cases (s : State) {F : Fmt} {tm ta : Fin 64} (hta : dataIndex F ta)
    (a b c e : Enc F) (op2 : Word → BitVec 64 → Enc F → Enc F → KResult F) :
    let m := kFmpy F s.status (s.draw 0) a b
    let q := op2 m.status (s.draw 1) c e
    let t := multiCombine s F tm ta a b c e op2
    (¬ (m.outcome = .none ∧ q.outcome = .none) → t = s.unimplemented) ∧
    (m.outcome = .none → q.outcome = .none →
      t.returned = .outcome .none ∧ t.status = q.status ∧ t.variant = s.variant ∧ t.calls = s.calls ∧
      t.read F ta = q.res ∧ (∀ j, j ≠ 0 → j ∉ operandWords F tm → j ∉ operandWords F ta → t.word j = s.word j) ∧
      (∀ j, j ≠ 0 → j ∉ operandWords F ta → t.word j = (s.write F tm m.res).word j)) := by
  intro m q t
  constructor
  · intro h
    exact if_neg h
  · intro h1 h2
    have ht : t = ((((s.write F tm m.res).write F ta q.res).setStatus q.status).tookDraws).finishWith .none :=
      if_pos ⟨h1, h2⟩
    have hw : ∀ j, j ≠ 0 → j ∉ operandWords F ta → t.word j = (s.write F tm m.res).word j := by
      intro j h0 hj
      rw [ht, State.word_finishWith, State.word_tookDraws, State.word_setStatus_ne _ _ _ h0,
        State.word_write_of_notMem _ _ _ _ _ hj]
    refine ⟨by rw [ht]; rfl, by rw [ht]; simp, by rw [ht]; simp, by rw [ht]; simp, ?_, ?_, hw⟩
    · rw [ht, State.read_finishWith, State.read_tookDraws, State.read_setStatus_of hta, State.read_write_self]
    · intro j h0 hm ha
      rw [hw j h0 ha, State.word_write_of_notMem _ _ _ _ _ hm]

theorem ran_multi {i : Instr} {s t : State} {F : Fmt} {rm1 rm2 ta ra tm : Fin 32}
    {op2 : Word → BitVec 64 → Enc F → Enc F → KResult F} (h : multi s F rm1 rm2 ta ra tm op2 = .next t)
    (hw : i.writes = operandWords F (multiIndex F tm) ++ operandWords F (multiIndex F ta)) (hc : i.isCompare = false)
    (hm : i.mayRaise = [.V, .O, .U, .I])
    (hk : ∀ st u x y, (op2 st u x y).Ok [.V, .O, .U, .I] [.V, .O, .U, .I] st) : t = s.unimplemented ∨ Ran i s t := by
  obtain h | ⟨a, b, htm, hta, -, -, rfl⟩ := multi_next h
  · exact .inl h
  · have hcases := multiCombine_cases (tm := multiIndex F tm) s hta a b (s.read F (multiIndex F ta)) (s.read F (multiIndex F ra)) op2
    have h1 := kFmpy_ok F s.status (s.draw 0) a b
    have h2 := hk (kFmpy F s.status (s.draw 0) a b).status (s.draw 1) (s.read F (multiIndex F ta))
      (s.read F (multiIndex F ra))
    unfold KResult.Ok at h1 h2
    revert hcases
    generalize multiCombine s F _ _ a b _ _ op2 = t
    intro hcases
    by_cases hn : (kFmpy F s.status (s.draw 0) a b).outcome = .none ∧
        (op2 (kFmpy F s.status (s.draw 0) a b).status (s.draw 1) (s.read F (multiIndex F ta))
          (s.read F (multiIndex F ra))).outcome = .none
    · obtain ⟨hr, hs, hv, hcl, -, hwords, -⟩ := hcases.2 hn.1 hn.2
      rw [hn.1] at h1
      rw [hn.2] at h2
      refine .inr ⟨?_, ?_, hv, hcl, fun _ => ⟨.none, hr, ?_⟩, fun h => by rw [hc] at h; cases h⟩
      · intro j h0 hj
        rw [hw, List.mem_append, not_or] at hj
        exact hwords j h0 hj.1 hj.2
      · intro j hj
        rw [hw, List.mem_append] at hj
        exact hj.elim (htm.words j) (hta.words j)
      · rw [hs, hm]
        exact (h1.comp h2).quietly
    · exact .inl (hcases.1 hn)

theorem Form.dst_data {form : Form} {F : Fmt} {t : RegSel} (j : Fin 64) (h : form.dst F t = .word j) : dataIndex F j :=
  (Form.dst_word h).1

/-- Everything an instruction can answer when it answers a next state. -/
theorem exec_next {i : Instr} {s t : State} (h : exec i s = .next t) : t = s.unimplemented ∨ Ran i s t := by
  cases i with
  | fcpy f m r d =>
    simp only [exec, execFcpy] at h
    exact ran_move h (by rintro F rfl; rfl) rfl
  | fabs f m r d =>
    simp only [exec, execFabs] at h
    exact ran_move h (by rintro F rfl; rfl) rfl
  | fsqrt f F r d =>
    simp only [exec, execFsqrt] at h
    exact ran_unary h Form.dst_data rfl rfl fun st u _ x => kFsqrt_ok F st u x
  | frnd f F r d =>
    simp only [exec, execFrnd] at h
    exact ran_unary h Form.dst_data rfl rfl fun st u _ x => kFrnd_ok F st u x
  | fneg f m r d =>
    simp only [exec, execFneg] at h
    exact ran_move h (by rintro F rfl; rfl) rfl
  | fnegabs f m r d =>
    simp only [exec, execFnegabs] at h
    exact ran_move h (by rintro F rfl; rfl) rfl
  | fcnvff f c r d =>
    cases c with
    | sglToDbl =>
      simp only [exec, execFcnvff] at h
      exact ran_unary h Form.dst_data rfl rfl fun st u _ x => kCnvSD_ok st u x
    | dblToSgl =>
      simp only [exec, execFcnvff] at h
      exact ran_unary h Form.dst_data rfl rfl kCnvDS_ok
  | fcnvxf f F G r d =>
    simp only [exec, execFcnvxf] at h
    exact ran_unary h Form.dst_data rfl rfl fun st u _ x => kCnvXF_ok F G true st u x
  | fcnvfx f F G r d =>
    simp only [exec, execFcnvfx] at h
    exact ran_unary h Form.dst_data rfl rfl fun st u _ x => kCnvFX_ok F G true (rmOf st) st u x
  | fcnvfxt f F G r d =>
    simp only [exec, execFcnvfxt] at h
    exact ran_unary h Form.dst_data rfl rfl fun st u _ x => kCnvFX_ok F G true .rz st u x
  | fcnvuf f F G r d =>
    simp only [exec, execFcnvuf] at h
    exact ran_unary h Form.dst_data rfl rfl fun st u _ x => kCnvXF_ok F G false st u x
  | fcnvfu f F G r d =>
    simp only [exec, execFcnvfu] at h
    exact ran_unary h Form.dst_data rfl rfl fun st u _ x => kCnvFX_ok F G false (rmOf st) st u x
  | fcnvfut f F G r d =>
    simp only [exec, execFcnvfut] at h
    exact ran_unary h Form.dst_data rfl rfl fun st u _ x => kCnvFX_ok F G false .rz st u x
  | fcmp f F r1 r2 y c =>
    simp only [exec, execFcmp] at h
    split at h
    · obtain ⟨x1, -, h⟩ := withSrc_next h
      obtain ⟨x2, -, h⟩ := withSrc_next h
      cases h
      refine .inr ⟨fun j h0 _ => by simp [h0], by simp [Instr.writes], rfl, rfl, (by simp [Instr.isCompare]), fun _ => ?_⟩
      refine ⟨F, x1, x2, c, rfl, rfl, rfl, fun b hb hb' => ?_⟩
      rw [State.status_finishWith, State.status_tookDraws, State.status_setStatus]
      exact compareQueue_bit _ _ _ hb hb'
    · cases h
  | ftest f m =>
    simp only [exec, execFtest] at h
    split at h
    · cases h
    · cases h
      exact .inl rfl
  | fadd f F r1 r2 d =>
    simp only [exec, execFadd] at h
    exact ran_binary h Form.dst_data rfl rfl (kFadd_ok F)
  | fsub f F r1 r2 d =>
    simp only [exec, execFsub] at h
    exact ran_binary h Form.dst_data rfl rfl (kFsub_ok F)
  | fmpy f F r1 r2 d =>
    simp only [exec, execFmpy] at h
    exact ran_binary h Form.dst_data rfl rfl (kFmpy_ok F)
  | fdiv f F r1 r2 d =>
    simp only [exec, execFdiv] at h
    exact ran_binary h Form.dst_data rfl rfl (kFdiv_ok F)
  | frem f F r1 r2 d =>
    simp only [exec, execFrem] at h
    exact ran_binary h Form.dst_data rfl rfl (kFrem_ok F)
  | xmpyu F r1 r2 d =>
    simp only [exec, execXmpyu] at h
    split at h
    · cases h
      exact .inl rfl
    · cases F with
      | sgl =>
        simp only at h
        split at h
        · cases h
          exact .inl rfl
        · cases h
      | dbl =>
        cases h
        exact .inl rfl
  | fmpyadd F a b c d e =>
    simp only [exec, execFmpyadd] at h
    exact ran_multi h rfl rfl rfl (kFadd_ok F)
  | fmpysub F a b c d e =>
    simp only [exec, execFmpysub] at h
    exact ran_multi h rfl rfl rfl (kFsub_ok F)
  | fmpyfadd F a b c d =>
    simp only [exec, execFmpyfadd, fused] at h
    exact ran_ternary h (fun _ => fused_word) rfl rfl (kFma_ok F false)
  | fmpynfadd F a b c d =>
    simp only [exec, execFmpynfadd, fused] at h
    exact ran_ternary h (fun _ => fused_word) rfl rfl (kFma_ok F true)
  | fid => cases h

/-- No instruction faults. -/
theorem exec_no_fault (i : Instr) (s : State) (f : Fault) : exec i s ≠ .fault f := by
  cases i with
  | fcpy =>
    simp only [exec, execFcpy]
    exact move_no_fault
  | fabs =>
    simp only [exec, execFabs]
    exact move_no_fault
  | fsqrt =>
    simp only [exec, execFsqrt]
    exact unary_no_fault
  | frnd =>
    simp only [exec, execFrnd]
    exact unary_no_fault
  | fneg =>
    simp only [exec, execFneg]
    exact move_no_fault
  | fnegabs =>
    simp only [exec, execFnegabs]
    exact move_no_fault
  | fcnvff _ c _ _ =>
    cases c <;> simp only [exec, execFcnvff] <;> exact unary_no_fault
  | fcnvxf =>
    simp only [exec, execFcnvxf]
    exact unary_no_fault
  | fcnvfx =>
    simp only [exec, execFcnvfx]
    exact unary_no_fault
  | fcnvfxt =>
    simp only [exec, execFcnvfxt]
    exact unary_no_fault
  | fcnvuf =>
    simp only [exec, execFcnvuf]
    exact unary_no_fault
  | fcnvfu =>
    simp only [exec, execFcnvfu]
    exact unary_no_fault
  | fcnvfut =>
    simp only [exec, execFcnvfut]
    exact unary_no_fault
  | fcmp =>
    intro h
    simp only [exec, execFcmp] at h
    split at h
    · obtain ⟨_, h⟩ := withSrc_fault h
      obtain ⟨_, h⟩ := withSrc_fault h
      cases h
    · cases h
  | ftest =>
    intro h
    simp only [exec, execFtest] at h
    split at h <;> cases h
  | fadd =>
    simp only [exec, execFadd]
    exact binary_no_fault
  | fsub =>
    simp only [exec, execFsub]
    exact binary_no_fault
  | fmpy =>
    simp only [exec, execFmpy]
    exact binary_no_fault
  | fdiv =>
    simp only [exec, execFdiv]
    exact binary_no_fault
  | frem =>
    simp only [exec, execFrem]
    exact binary_no_fault
  | xmpyu F =>
    intro h
    simp only [exec, execXmpyu] at h
    split at h
    · cases h
    · cases F with
      | sgl =>
        simp only at h
        split at h <;> cases h
      | dbl => cases h
  | fmpyadd =>
    simp only [exec, execFmpyadd]
    exact multi_no_fault
  | fmpysub =>
    simp only [exec, execFmpysub]
    exact multi_no_fault
  | fmpyfadd =>
    simp only [exec, execFmpyfadd, fused]
    exact ternary_no_fault
  | fmpynfadd =>
    simp only [exec, execFmpynfadd, fused]
    exact ternary_no_fault
  | fid => intro h; cases h

/-! ## The two destinations of a multiple instruction -/

theorem multi_words_disjoint {F : Fmt} {a b : Fin 32} (h : a ≠ b) : ∀ j ∈ operandWords F (multiIndex F a), j ∉ operandWords F (multiIndex F b) := by
  intro j hj hj'
  apply h
  cases F with
  | sgl =>
    simp only [operandWords, List.mem_singleton] at hj hj'
    have := congrArg Fin.val (hj.symm.trans hj')
    simp only [multiIndex] at this
    apply Fin.ext; omega
  | dbl =>
    simp only [operandWords, List.mem_cons, List.not_mem_nil, or_false] at hj hj'
    have h1 : ((1 : Fin 64)).val = 1 := rfl
    apply Fin.ext
    rcases hj with hj | hj <;> rcases hj' with hj' | hj' <;>
    · have := congrArg Fin.val (hj.symm.trans hj')
      simp only [multiIndex, Fin.val_add, h1] at this
      omega

theorem read_multi {F : Fmt} {s t : State} {tm ta : Fin 32} {v : Enc F} (hne : tm ≠ ta) (hdm : dataIndex F (multiIndex F tm))
   (h : ∀ j, j ≠ 0 → j ∉ operandWords F (multiIndex F ta) → t.word j = (s.write F (multiIndex F tm) v).word j) : t.read F (multiIndex F tm) = v := by
  have : t.read F (multiIndex F tm) = (s.write F (multiIndex F tm) v).read F (multiIndex F tm) := by
    apply State.read_congr
    intro j hj
    exact h j (hdm.ne_zero hj) (multi_words_disjoint hne j hj)
  rw [this, State.read_write_self]

end Machine

end Sys2Proof
end

