-- ==== Sys2Proof/Laws/IsRounding.lean ====
section
/-! SUPPORT. `roundmag` gives the rounding of R150, for a rational and for a square root, and there is only one. -/

namespace Sys2Proof

/-- `lo` and `fr` of R150 for a real magnitude `a` at quantum `2^q`. -/
structure SplitOf (a : ℝ) (q : Int) (p : Nat × Frac) : Prop where
  lower : (p.1 : ℝ) * (pow2 q : ℚ) ≤ a
  upper : a < (p.1 + 1 : ℝ) * (pow2 q : ℚ)
  zero : p.2 = .zero ↔ a = (p.1 : ℝ) * (pow2 q : ℚ)
  half : p.2 = .half ↔ a = (p.1 + 1 / 2 : ℝ) * (pow2 q : ℚ)
  high : p.2 = .high ↔ (p.1 + 1 / 2 : ℝ) * (pow2 q : ℚ) < a

theorem pow2_real_pos (q : Int) : (0 : ℝ) < ((pow2 q : ℚ) : ℝ) := by exact_mod_cast pow2_pos q

theorem split_rat {a : ℚ} (ha : 0 ≤ a) (q : Int) : SplitOf (a : ℝ) q ((Mag.rat a).split q) := by
  have hq := pow2_pos q
  have hn0 : 0 ≤ a * pow2 (-q) := mul_nonneg ha (pow2_pos _).le
  obtain ⟨h1, h2⟩ := floor_spec hn0
  have han : a = (a * pow2 (-q)) * pow2 q := by
    rw [pow2_neg]
    field_simp
  have hp1 : ((Mag.rat a).split q).1 = (a * pow2 (-q)).floor.toNat := rfl
  have hp2 : ((Mag.rat a).split q).2 = fracClass (a * pow2 (-q) - (a * pow2 (-q)).floor.toNat) := rfl
  rw [← hp1] at h1 h2 hp2
  generalize (Mag.rat a).split q = p at *
  generalize a * pow2 (-q) = n at *
  have hf : ∀ f : ℚ, (fracClass f = .zero ↔ f = 0) ∧ (fracClass f = .half ↔ f = 1 / 2) ∧
      (fracClass f = .high ↔ 1 / 2 < f ∧ f ≠ 0) := by
    intro f
    unfold fracClass
    by_cases h0 : f = 0
    · rw [if_pos h0]
      refine ⟨by simp [h0], iff_of_false (by decide) (by rw [h0]; norm_num), iff_of_false (by decide) fun h => h.2 h0⟩
    · rw [if_neg h0]
      rcases lt_trichotomy f (1 / 2) with h | h | h
      · rw [if_pos h]
        exact ⟨iff_of_false (by decide) h0, iff_of_false (by decide) h.ne, iff_of_false (by decide) fun h' => h'.1.not_gt h⟩
      · rw [if_neg h.ge.not_gt, if_pos h]
        exact ⟨iff_of_false (by decide) h0, iff_of_true rfl h, iff_of_false (by decide) fun h' => h'.1.ne' h⟩
      · rw [if_neg h.le.not_gt, if_neg h.ne']
        exact ⟨iff_of_false (by decide) h0, iff_of_false (by decide) h.ne', iff_of_true rfl ⟨h, h0⟩⟩
  obtain ⟨hz, hh, hg⟩ := hf (n - p.1)
  rw [han]
  constructor
  · exact_mod_cast mul_le_mul_of_nonneg_right h1 hq.le
  · exact_mod_cast mul_lt_mul_of_pos_right h2 hq
  · rw [hp2, hz]
    norm_cast
    rw [mul_left_inj' hq.ne', sub_eq_zero]
  · rw [hp2, hh]
    have : ((p.1 : ℝ) + 1 / 2) = (((p.1 : ℚ) + 1 / 2 : ℚ) : ℝ) := by push_cast; rfl
    rw [this]
    norm_cast
    rw [mul_left_inj' hq.ne']
    constructor <;> intro h <;> linarith
  · rw [hp2, hg]
    have : ((p.1 : ℝ) + 1 / 2) = (((p.1 : ℚ) + 1 / 2 : ℚ) : ℝ) := by push_cast; rfl
    rw [this]
    norm_cast
    rw [mul_lt_mul_iff_left₀ hq]
    constructor
    · rintro ⟨h, -⟩
      linarith
    · intro h
      have : 1 / 2 < n - p.1 := by linarith
      exact ⟨this, by linarith⟩

theorem split_root {v : ℚ} (hv : 0 ≤ v) (q : Int) : SplitOf √(v : ℝ) q ((Mag.root v).split q) := by
  have hq := pow2_real_pos q
  have hw0 : 0 ≤ v * pow2 (-(2 * q)) := mul_nonneg hv (pow2_pos _).le
  have hvw : v = (v * pow2 (-(2 * q))) * (pow2 q * pow2 q) := by
    rw [← pow2_add, ← two_mul, pow2_neg, mul_assoc, inv_mul_cancel₀ (pow2_ne_zero _), mul_one]
  have hp1 : ((Mag.root v).split q).1 = isqrt (v * pow2 (-(2 * q))).floor.toNat := rfl
  have hp2 : ((Mag.root v).split q).2 = (if v * pow2 (-(2 * q)) =
        ((((Mag.root v).split q).1 * ((Mag.root v).split q).1 : Nat) : ℚ) then Frac.zero
      else if 4 * (v * pow2 (-(2 * q))) < (((2 * ((Mag.root v).split q).1 + 1) * (2 * ((Mag.root v).split q).1 + 1) : Nat) : ℚ)
        then .low
      else if 4 * (v * pow2 (-(2 * q))) = (((2 * ((Mag.root v).split q).1 + 1) * (2 * ((Mag.root v).split q).1 + 1) : Nat) : ℚ)
        then .half else .high) := rfl
  generalize (Mag.root v).split q = p at *
  generalize hw : v * pow2 (-(2 * q)) = w at *
  obtain ⟨h1, h2⟩ := floor_spec hw0
  obtain ⟨h3, h4⟩ := isqrt_spec w.floor.toNat
  rw [← hp1] at h3 h4
  have h3' : ((p.1 * p.1 : Nat) : ℚ) ≤ w := le_trans (by exact_mod_cast h3) h1
  have h4' : w < (((p.1 + 1) * (p.1 + 1) : Nat) : ℚ) := h2.trans_le (by exact_mod_cast h4)
  -- the root, in units of the quantum
  have hroot : √(v : ℝ) = √(w : ℝ) * (pow2 q : ℚ) := by
    conv_lhs => rw [hvw]
    push_cast
    rw [Real.sqrt_mul (by exact_mod_cast hw0), Real.sqrt_mul_self hq.le]
  have hwr : (0 : ℝ) ≤ w := by exact_mod_cast hw0
  have hr0 := Real.sqrt_nonneg (w : ℝ)
  have hsq : √(w : ℝ) * √(w : ℝ) = w := Real.mul_self_sqrt hwr
  have hle : ∀ c : ℝ, 0 ≤ c → (c ≤ √(w : ℝ) ↔ c * c ≤ w) := fun c hc => by
    rw [Real.le_sqrt hc, sq]
    exact hwr
  have heq : ∀ c : ℝ, 0 ≤ c → (√(w : ℝ) = c ↔ (w : ℝ) = c * c) := fun c hc => by
    rw [Real.sqrt_eq_iff_mul_self_eq hwr hc, eq_comm]
  have hlt : ∀ c : ℝ, 0 ≤ c → (c < √(w : ℝ) ↔ c * c < w) := fun c hc => by
    rw [Real.lt_sqrt hc, sq]
  have hc0 : (0 : ℝ) ≤ p.1 := Nat.cast_nonneg _
  have hc1 : (0 : ℝ) ≤ p.1 + 1 / 2 := by positivity
  have hsq2 : ((p.1 : ℝ) + 1 / 2) * (p.1 + 1 / 2) = (((2 * p.1 + 1) * (2 * p.1 + 1) : Nat) : ℝ) / 4 := by
    push_cast
    ring
  rw [hroot]
  constructor
  · refine mul_le_mul_of_nonneg_right ((hle _ hc0).2 ?_) hq.le
    exact_mod_cast h3'
  · refine mul_lt_mul_of_pos_right ?_ hq
    rw [Real.sqrt_lt' (by positivity), sq]
    exact_mod_cast h4'
  · rw [mul_left_inj' hq.ne', heq _ hc0, hp2]
    have : (w : ℝ) = p.1 * p.1 ↔ w = ((p.1 * p.1 : Nat) : ℚ) := by norm_cast
    rw [this]
    split
    · rename_i h
      exact iff_of_true rfl h
    · rename_i h
      refine iff_of_false ?_ h
      split
      · decide
      · split <;> decide
  · rw [mul_left_inj' hq.ne', heq _ hc1, hsq2, hp2]
    have : (w : ℝ) = (((2 * p.1 + 1) * (2 * p.1 + 1) : Nat) : ℝ) / 4 ↔
        4 * w = (((2 * p.1 + 1) * (2 * p.1 + 1) : Nat) : ℚ) := by
      rw [eq_div_iff (by norm_num)]
      constructor
      · intro h
        have h' : w * 4 = (((2 * p.1 + 1) * (2 * p.1 + 1) : Nat) : ℚ) := by exact_mod_cast h
        rw [← h']; ring
      · intro h
        have h' : w * 4 = (((2 * p.1 + 1) * (2 * p.1 + 1) : Nat) : ℚ) := by rw [← h]; ring
        exact_mod_cast h'
    rw [this]
    split
    · rename_i h
      refine iff_of_false (by decide) fun h' => ?_
      rw [h] at h'
      have : 4 * (p.1 * p.1) = (2 * p.1 + 1) * (2 * p.1 + 1) := by exact_mod_cast h'
      have h5 : (2 * p.1 + 1) * (2 * p.1 + 1) = 4 * (p.1 * p.1) + 4 * p.1 + 1 := by ring
      omega
    · split
      · rename_i h
        exact iff_of_false (by decide) h.ne
      · split
        · rename_i h
          exact iff_of_true rfl h
        · rename_i h
          exact iff_of_false (by decide) h
  · rw [mul_lt_mul_iff_left₀ hq, hlt _ hc1, hsq2, hp2]
    have : (((2 * p.1 + 1) * (2 * p.1 + 1) : Nat) : ℝ) / 4 < w ↔
        (((2 * p.1 + 1) * (2 * p.1 + 1) : Nat) : ℚ) < 4 * w := by
      rw [div_lt_iff₀ (by norm_num)]
      constructor
      · intro h
        have h' : (((2 * p.1 + 1) * (2 * p.1 + 1) : Nat) : ℚ) < w * 4 := by exact_mod_cast h
        linarith
      · intro h
        have h' : (((2 * p.1 + 1) * (2 * p.1 + 1) : Nat) : ℚ) < w * 4 := by linarith
        exact_mod_cast h'
    rw [this]
    split
    · rename_i h
      refine iff_of_false (by decide) fun h' => ?_
      rw [h] at h'
      have : (2 * p.1 + 1) * (2 * p.1 + 1) < 4 * (p.1 * p.1) := by exact_mod_cast h'
      have h5 : (2 * p.1 + 1) * (2 * p.1 + 1) = 4 * (p.1 * p.1) + 4 * p.1 + 1 := by ring
      omega
    · split
      · rename_i h
        exact iff_of_false (by decide) h.le.not_gt
      · rename_i h
        split
        · rename_i h'
          exact iff_of_false (by decide) h'.le.not_gt
        · rename_i h'
          simp only [true_iff]
          exact lt_of_le_of_ne (not_lt.1 h) (Ne.symm h')

/-- The rounding a split gives is the rounding of R150. -/
theorem isRounding_of_split {a : ℝ} {q : Int} {p : Nat × Frac} (h : SplitOf a q p) (m : RMode) (s : Bool) :
    IsRounding m s q a (((if roundsUp m s p.1 p.2 then p.1 + 1 else p.1 : Nat) : ℚ) * pow2 q) := by
  have hq := pow2_real_pos q
  obtain ⟨h1, h2, hz, hh, hg⟩ := h
  obtain ⟨lo, fr⟩ := p
  simp only at *
  set Q : ℝ := ((pow2 q : ℚ) : ℝ) with hQ
  have hd : (((pow2 q / 2 : ℚ)) : ℝ) = Q / 2 := by push_cast; rfl
  by_cases hup : roundsUp m s lo fr = true
  · rw [if_pos hup]
    have hval : (((((lo + 1 : Nat) : ℚ) * pow2 q : ℚ)) : ℝ) = (lo + 1) * Q := by push_cast; rfl
    have hnz : fr ≠ .zero := by
      rintro rfl
      cases m <;> cases s <;> simp [roundsUp] at hup
    have hne : lo * Q < a := lt_of_le_of_ne h1 fun e => hnz (hz.2 e.symm)
    have habs : |((((lo + 1 : Nat) : ℚ) * pow2 q : ℚ) : ℝ) - a| = (lo + 1) * Q - a := by
      rw [hval, abs_of_pos (by linarith)]
    refine ⟨⟨lo + 1, rfl⟩, ?_, ?_, ?_, ?_, ?_, ?_⟩
    · rw [habs]
      linarith
    · rintro rfl
      rw [habs, hd]
      have : (lo + 1 / 2) * Q ≤ a := by
        cases fr with
        | zero => exact absurd rfl hnz
        | low => simp [roundsUp] at hup
        | half => exact (hh.1 rfl).ge
        | high => exact (hg.1 rfl).le
      linarith
    · rintro rfl he
      rw [habs, hd] at he
      have hf : fr = .half := hh.2 (by linarith)
      subst hf
      have hodd : lo % 2 = 1 := by simpa [roundsUp] using hup
      exact ⟨(lo + 1) / 2, by rw [show 2 * ((lo + 1) / 2) = lo + 1 by omega]⟩
    · rintro rfl
      simp [roundsUp] at hup
    · rintro rfl
      have : s = false := by
        cases s <;> simp_all [roundsUp]
      rw [this, hval]
      simpa using h2.le
    · rintro rfl
      have : s = true := by
        cases s <;> simp_all [roundsUp]
      rw [this, hval]
      simpa using h2.le
  · rw [if_neg hup]
    have hval : ((((lo : Nat) : ℚ) * pow2 q : ℚ) : ℝ) = lo * Q := by push_cast; rfl
    have habs : |((((lo : Nat) : ℚ) * pow2 q : ℚ) : ℝ) - a| = a - lo * Q := by
      rw [hval, abs_sub_comm, abs_of_nonneg (by linarith)]
    refine ⟨⟨lo, rfl⟩, ?_, ?_, ?_, ?_, ?_, ?_⟩
    · rw [habs]
      linarith
    · rintro rfl
      rw [habs, hd]
      have : ¬ (lo + 1 / 2) * Q < a := fun hlt => hup (by simp [roundsUp, hg.2 hlt])
      linarith
    · rintro rfl he
      rw [habs, hd] at he
      have hf : fr = .half := hh.2 (by linarith)
      subst hf
      have hev : lo % 2 = 0 := by
        by_contra hc
        exact hup (by simp [roundsUp]; omega)
      exact ⟨lo / 2, by rw [show 2 * (lo / 2) = lo by omega]⟩
    · intro _
      rw [hval]
      exact h1
    · rintro rfl
      rw [hval]
      cases s with
      | true => simpa using h1
      | false =>
        have hf : fr = .zero := by
          by_contra hc
          exact hup (by simpa [roundsUp] using hc)
        simpa using (hz.1 hf).le
    · rintro rfl
      rw [hval]
      cases s with
      | false => simpa using h1
      | true =>
        have hf : fr = .zero := by
          by_contra hc
          exact hup (by simpa [roundsUp] using hc)
        simpa using (hz.1 hf).le

/-- Inexact means changed, for a split. -/
theorem inexact_of_split {a : ℝ} {q : Int} {p : Nat × Frac} (h : SplitOf a q p) (m : RMode) (s : Bool) :
    p.2 ≠ .zero ↔ (((((if roundsUp m s p.1 p.2 then p.1 + 1 else p.1 : Nat) : ℚ) * pow2 q : ℚ)) : ℝ) ≠ a := by
  have hq := pow2_real_pos q
  obtain ⟨h1, h2, hz, -, -⟩ := h
  split
  · rename_i hup
    have hnz : p.2 ≠ .zero := by
      intro e
      rw [e] at hup
      cases m <;> cases s <;> simp [roundsUp] at hup
    refine iff_of_true hnz ?_
    push_cast
    exact h2.ne'
  · push_cast
    rw [ne_eq, hz, ne_eq, not_iff_not, eq_comm]

/-- The magnitude of a `Mag` as a real. -/
noncomputable def Mag.real : Mag → ℝ
  | .rat a => a
  | .root v => √(v : ℝ)

/-- A `Mag` that stands for a magnitude. -/
def Mag.nonneg : Mag → Prop
  | .rat a => 0 ≤ a
  | .root v => 0 ≤ v

theorem Mag.split_of {a : Mag} (h : a.nonneg) (q : Int) : SplitOf a.real q (a.split q) := by
  cases a with
  | rat a => exact split_rat h q
  | root v => exact split_root h q

/-- `roundmag` is the rounding of R150. -/
theorem roundmag_isRounding {a : Mag} (h : a.nonneg) (q : Int) (s : Bool) (m : RMode) :
    IsRounding m s q a.real (roundmag a q s m).value := isRounding_of_split (a.split_of h q) m s

theorem roundmag_inexact {a : Mag} (h : a.nonneg) (q : Int) (s : Bool) (m : RMode) :
    (roundmag a q s m).inexact = true ↔ ((roundmag a q s m).value : ℝ) ≠ a.real := by
  refine Iff.trans ?_ (inexact_of_split (a.split_of h q) m s)
  show ((a.split q).2 != Frac.zero) = true ↔ _
  simp

/-- There is one rounding. -/
theorem IsRounding.unique {m : RMode} {s : Bool} {q : Int} {a : ℝ} {u u' : ℚ} (h : IsRounding m s q a u)
    (h' : IsRounding m s q a u') : u = u' := by
  have hq := pow2_real_pos q
  have hlt : ∀ {k k' : Nat}, IsRounding m s q a (k * pow2 q) → IsRounding m s q a (k' * pow2 q) → ¬ k < k' := by
    intro k k' h h' hkk
    have h1 := abs_lt.1 h.near
    have h2 := abs_lt.1 h'.near
    push_cast at h1 h2
    set Q : ℝ := ((pow2 q : ℚ) : ℝ) with hQ
    have hk : k' = k + 1 := by
      by_contra hc
      have h3 : (k : ℝ) + 2 ≤ k' := by exact_mod_cast (by omega : k + 2 ≤ k')
      nlinarith
    subst hk
    push_cast at h2
    cases m with
    | rn =>
      have h3 := abs_le.1 (h.nearest rfl)
      have h4 := abs_le.1 (h'.nearest rfl)
      push_cast at h3 h4
      have hm : a = (k + 1 / 2) * Q := by linarith [h3.1, h4.2]
      have h5 : |((k * pow2 q : ℚ) : ℝ) - a| = (pow2 q / 2 : ℚ) := by
        push_cast
        rw [abs_sub_comm, abs_of_nonneg (by linarith)]
        linarith
      have h6 : |((((k + 1 : Nat) : ℚ) * pow2 q : ℚ) : ℝ) - a| = (pow2 q / 2 : ℚ) := by
        push_cast
        rw [abs_of_nonneg (by linarith)]
        linarith
      obtain ⟨c, hc⟩ := h.even rfl h5
      obtain ⟨d, hd⟩ := h'.even rfl h6
      rw [mul_left_inj' (pow2_ne_zero q)] at hc hd
      have hc' : k = 2 * c := by exact_mod_cast hc
      have hd' : k + 1 = 2 * d := by exact_mod_cast hd
      omega
    | rz =>
      have h3 := h'.towardZero rfl
      push_cast at h3
      linarith
    | rp =>
      have h3 := h.towardPlus rfl
      have h4 := h'.towardPlus rfl
      cases s
      · simp at h3
        linarith
      · simp at h4
        linarith
    | rmi =>
      have h3 := h.towardMinus rfl
      have h4 := h'.towardMinus rfl
      cases s
      · simp at h4
        linarith
      · simp at h3
        linarith
  obtain ⟨k, rfl⟩ := h.multiple
  obtain ⟨k', rfl⟩ := h'.multiple
  have := hlt h h'
  have := hlt h' h
  rw [show k = k' by omega]

/-- `roundmag` is any rounding of R150. -/
theorem roundmag_eq {a : Mag} (h : a.nonneg) {q : Int} {s : Bool} {m : RMode} {u : ℚ} (hu : IsRounding m s q a.real u) :
    (roundmag a q s m).value = u := (roundmag_isRounding h q s m).unique hu

end Sys2Proof
end

