-- ==== Sys2Proof/Laws/PerInstr.lean ====
section
/-! SUPPORT. Statements made per instruction. RoundTrip: decoding the encoder's word of a well-formed instruction gives the
instruction back, under either variant. -/

namespace Sys2Proof.Laws.RoundTrip

/-- Decode of encode, for one instruction (30_encoding.md R82 to R86). -/
def Statement (i : Instr) : Prop := ∀ v : Variant, i.wf v = true → decode v (encode v i) = .ok i

section Class0
variable {form : Form} {fmt : Nat} {r t : RegSel} {sub : Nat} (v : Variant)

/-- Class 0 words reach the class-0 decoder with their operands. -/
theorem class0 {w : Word} (hw : w = encodeClass0 form sub fmt r t) (hs : sub < 8) (hs2 : 2 ≤ sub) (hf : fmt < 4)
    (hr : r.wf form = true) (ht : t.wf form = true) :
    decode v w = decodeClass0 form w ∧ src1Sel form w = r ∧ dstSel form w = t ∧ field w 16 18 = sub ∧
      field w 19 20 = fmt := by
  obtain ⟨h1, h2, h3, h4, h5, h6, h7, h8⟩ := class0_fields form sub fmt r t hs hf
  rw [← hw] at h1 h2 h3 h4 h5 h6 h7 h8
  have hne : w ≠ 0x30000000#32 := by
    refine ne_fid_of_field (a := 16) (b := 18) ?_
    rw [h3]
    have : field 0x30000000#32 16 18 = 0 := by decide
    omega
  refine ⟨?_, decodeSel_eq hr h2 fun _ => h6, decodeSel_eq ht h8 fun _ => h7, h3, h4⟩
  rw [decode_cop hne h1, decodeCop, h5]
  rfl

end Class0

/-- Class 1 words reach the class-1 decoder with their operands. -/
theorem class1 (v : Variant) {form : Form} {sub : Nat} {sf df : Fmt} {r t : RegSel} {w : Word}
    (hw : w = encodeClass1 form sub sf.code df.code r t) (hs : sub < 8) (hv : v = .pa11 → sub < 4)
    (hr : r.wf form = true) (ht : t.wf form = true) :
    decode v w = decodeClass1 v form w ∧ src1Sel form w = r ∧ dstSel form w = t ∧ convSub v w = sub ∧
      decodeFmt (field w 19 20) = .ok sf ∧ decodeFmt (field w 17 18) = .ok df := by
  have hsf := sf.code_lt
  have hdf := df.code_lt
  obtain ⟨h1, h2, h3, h4, h5, h6, h7, h8, h9, h10⟩ :=
    class1_fields form sub sf.code df.code r t hs (by omega) (by omega)
  rw [← hw] at h1 h2 h3 h4 h5 h6 h7 h8 h9 h10
  have hne : w ≠ 0x30000000#32 := by
    refine ne_fid_of_field (a := 21) (b := 22) ?_
    rw [h7]
    decide
  refine ⟨?_, decodeSel_eq hr h2 fun _ => h8, decodeSel_eq ht h10 fun _ => h9, ?_, ?_, ?_⟩
  · rw [decode_cop hne h1, decodeCop, h7]
    rfl
  · cases v with
    | pa20 => exact h3
    | pa11 =>
      rw [convSub, h4]
      have := hv rfl
      omega
  · rw [h6]
    exact decodeFmt_code sf
  · rw [h5]
    exact decodeFmt_code df

/-- Class 2 words of a compare. -/
theorem class2 (v : Variant) {form : Form} {F : Fmt} {r1 r2 : RegSel} {y : Fin 8} {c : Fin 32}
    (hy : compareFieldWf v y = true) (hr1 : r1.wf form = true) (hr2 : r2.wf form = true) :
    decode v (encodeClass2 form r1 r2 y F.code 0 c) = .ok (.fcmp form F r1 r2 y c) := by
  have hF := F.code_lt
  obtain ⟨h1, h2, h3, h4, h5, h6, h7, h8, h9, h10, h11⟩ :=
    class2_fields form r1 r2 y F.code 0 c y.isLt (.inl hF) (by omega) c.isLt
  generalize encodeClass2 form r1 r2 y F.code 0 c = w at *
  have hne : w ≠ 0x30000000#32 := by
    refine ne_fid_of_field (a := 21) (b := 22) ?_
    rw [h8]
    decide
  have hs1 : src1Sel form w = r1 := decodeSel_eq hr1 h2 fun _ => h9
  have hs2 : src2Sel form w = r2 := decodeSel_eq hr2 h3 fun _ => h6 hF
  have hfmt : decodeFmt (fmtField form w) = .ok F := by
    cases form with
    | op0C =>
      have hz : r2.half = false := by simpa [RegSel.wf] using hr2
      rw [fmtField, h5, RegSel.halfBit, hz]
      simpa using decodeFmt_code F
    | op0E =>
      rw [fmtField, h7 hF]
      exact decodeFmt_code F
  have hcmp : decodeCompare form w = .ok (.fcmp form F r1 r2 y c) := by
    rw [decodeCompare, hfmt, hs1, hs2, h4, regField_eq h11]
    simp [Except.map, Fin.ofNat, Nat.mod_eq_of_lt y.isLt]
  rw [decode_cop hne h1, decodeCop, h8]
  cases v with
  | pa20 =>
    have h26 : bitAt w 26 = false := bitAt_of_field h10
    simp only [decodeClass2, h26, hcmp]
    rfl
  | pa11 =>
    have hy0 : y.val = 0 := by
      have : y = 0 := by simpa [compareFieldWf] using hy
      simp [this]
    simp only [decodeClass2, h4, hy0, hcmp]

/-- Class 2 words of a test. -/
theorem class2Test (v : Variant) {form : Form} {fmt : Fin 4} (hf : testFormatWf form fmt = true) :
    decode v (encode v (.ftest form fmt)) = .ok (.ftest form fmt) := by
  have hsel : (testSelector v).1 < 8 ∧ (testSelector v).2 < 2 := by cases v <;> decide
  obtain ⟨h1, -, -, h4, h5, -, h7, h8, -, h10, -⟩ :=
    class2_fields form RegSel.zero RegSel.zero (testSelector v).1 fmt (testSelector v).2 0 hsel.1
      (.inr ⟨rfl, fmt.isLt⟩) hsel.2 (by omega)
  rw [encode]
  generalize encodeClass2 form RegSel.zero RegSel.zero (testSelector v).1 fmt (testSelector v).2 0 = w at *
  have hne : w ≠ 0x30000000#32 := by
    refine ne_fid_of_field (a := 21) (b := 22) ?_
    rw [h8]
    decide
  have hfmt : fmtField form w = fmt := by
    cases form with
    | op0C =>
      rw [fmtField, h5]
      simp [RegSel.halfBit, RegSel.zero]
    | op0E =>
      have : fmt.val < 2 := by simpa [testFormatWf] using hf
      rw [fmtField, h7 this]
  have htest : decodeTest form w = .ok (.ftest form fmt) := by
    rw [decodeTest, hfmt]
    simp [Fin.ofNat, Nat.mod_eq_of_lt fmt.isLt]
  rw [decode_cop hne h1, decodeCop, h8]
  cases v with
  | pa20 =>
    have h26 : bitAt w 26 = true := bitAt_of_field h10
    simp only [decodeClass2, h26, htest]
    rfl
  | pa11 =>
    simp only [decodeClass2, h4, testSelector, htest]

/-- Class 3 words reach the class-3 decoder with their operands. -/
theorem class3 (v : Variant) {form : Form} {sub x : Nat} {F : Fmt} {r1 r2 t : RegSel} {w : Word}
    (hw : w = encodeClass3 form sub x F r1 r2 t) (hs : sub < 8) (hx : x < 2)
    (hr1 : r1.wf form = true) (hr2 : r2.wf form = true) (ht : t.wf form = true) :
    decode v w = decodeClass3 form w ∧ src1Sel form w = r1 ∧ src2Sel form w = r2 ∧ dstSel form w = t ∧
      field w 16 18 = sub ∧ decodeFmt (fmtField form w) = .ok F ∧ bitAt w 23 = decide (x = 1) := by
  obtain ⟨h1, h2, h3, h4, h5, h6, h7, h8, h9, h10, h11, h12⟩ := class3_fields form sub x F r1 r2 t hs hx
  rw [← hw] at h1 h2 h3 h4 h5 h6 h7 h8 h9 h10 h11 h12
  have hne : w ≠ 0x30000000#32 := by
    refine ne_fid_of_field (a := 21) (b := 22) ?_
    rw [h8]
    decide
  refine ⟨?_, decodeSel_eq hr1 h2 fun _ => h10, decodeSel_eq hr2 h3 fun _ => h6, decodeSel_eq ht h12 fun _ => h11, h4, ?_,
    bitAt_of_field ?_⟩
  · rw [decode_cop hne h1, decodeCop, h8]
    rfl
  · cases form with
    | op0C =>
      have hz : r2.half = false := by simpa [RegSel.wf] using hr2
      rw [fmtField, h5, RegSel.halfBit, hz]
      simpa using decodeFmt_code F
    | op0E =>
      rw [fmtField, h7]
      exact decodeFmt_code F
  · rw [h9]
    rcases (by omega : x = 0 ∨ x = 1) with rfl | rfl <;> rfl

/-- 06 and 26 words. -/
theorem multi (v : Variant) (sub : Bool) (F : Fmt) (rm1 rm2 ta ra tm : Fin 32) :
    decode v (encodeMulti (if sub then 0x26 else 0x06) F rm1 rm2 ta ra tm) =
      .ok (if sub then .fmpysub F rm1 rm2 ta ra tm else .fmpyadd F rm1 rm2 ta ra tm) := by
  obtain ⟨h1, h2, h3, h4, h5, h6, h7⟩ :=
    multi_fields (if sub then 0x26 else 0x06) F rm1 rm2 ta ra tm (by cases sub <;> decide)
  generalize encodeMulti (if sub then 0x26 else 0x06) F rm1 rm2 ta ra tm = w at *
  have hne : w ≠ 0x30000000#32 := by
    refine ne_fid_of_field (a := 0) (b := 5) ?_
    rw [h1]
    cases sub <;> decide
  have hf : bitAt w 26 = decide (F = .sgl) := bitAt_of_field (by rw [h6]; cases F <;> decide)
  have hd : decodeMulti sub w = .ok (if sub then .fmpysub F rm1 rm2 ta ra tm else .fmpyadd F rm1 rm2 ta ra tm) := by
    rw [decodeMulti, regField_eq h2, regField_eq h3, regField_eq h4, regField_eq h5, regField_eq h7, hf]
    cases F <;> rfl
  rw [decode, if_neg hne, h1, ← hd]
  cases sub <;> rfl

/-- 2E words. -/
theorem fused (v : Variant) (neg : Bool) (F : Fmt) (rm1 rm2 ra t : RegSel) :
    decode v (encodeFused neg.toNat F rm1 rm2 ra t) =
      .ok (if neg then .fmpynfadd F rm1 rm2 ra t else .fmpyfadd F rm1 rm2 ra t) := by
  obtain ⟨h1, h2, h3, h4, h5, h6, h7, h8, h9, h10, h11⟩ :=
    fused_fields neg.toNat F rm1 rm2 ra t (by cases neg <;> decide)
  generalize encodeFused neg.toNat F rm1 rm2 ra t = w at *
  have hne : w ≠ 0x30000000#32 := by
    refine ne_fid_of_field (a := 0) (b := 5) ?_
    rw [h1]
    decide
  have hf : bitFmt (bitAt w 20) = F := by
    rw [bitAt_of_field (v := decide (F = .dbl)) (by rw [h6]; cases F <;> rfl)]
    cases F <;> rfl
  have hn : bitAt w 26 = neg := bitAt_of_field h10
  have hra : (Fin.ofNat 32 (field w 16 18 * 4 + field w 21 22)) = ra.fld := by
    rw [h4]
    exact Fin.ext (Nat.mod_eq_of_lt ra.fld.isLt)
  rw [decode, if_neg hne, h1]
  show decodeFused w = _
  rw [decodeFused, regField_eq h2, regField_eq h3, regField_eq h11, hf, hn, h5, h7, h8, h9, hra]

theorem fcpy (form : Form) (m : MoveFmt) (r t : RegSel) : Statement (.fcpy form m r t) := by
  intro v hwf
  rw [Instr.wf, Bool.and_eq_true] at hwf
  rw [encode]
  generalize hw : encodeClass0 form 2 m.code r t = w
  obtain ⟨h, hr, ht, hs, hf⟩ := class0 v hw.symm (sub := 2) (fmt := m.code) (by omega) (by omega) m.code_lt hwf.1 hwf.2
  rw [h, decodeClass0, hs, hf, hr, ht]
  simp [decodeMoveFmt_code, Except.map]

theorem fabs (form : Form) (m : MoveFmt) (r t : RegSel) : Statement (.fabs form m r t) := by
  intro v hwf
  rw [Instr.wf, Bool.and_eq_true] at hwf
  rw [encode]
  generalize hw : encodeClass0 form 3 m.code r t = w
  obtain ⟨h, hr, ht, hs, hf⟩ := class0 v hw.symm (sub := 3) (fmt := m.code) (by omega) (by omega) m.code_lt hwf.1 hwf.2
  rw [h, decodeClass0, hs, hf, hr, ht]
  simp [decodeMoveFmt_code, Except.map]

theorem fsqrt (form : Form) (F : Fmt) (r t : RegSel) : Statement (.fsqrt form F r t) := by
  intro v hwf
  rw [Instr.wf, Bool.and_eq_true] at hwf
  rw [encode]
  generalize hw : encodeClass0 form 4 F.code r t = w
  obtain ⟨h, hr, ht, hs, hf⟩ := class0 v hw.symm (sub := 4) (fmt := F.code) (by omega) (by omega) (by have := F.code_lt; omega) hwf.1 hwf.2
  rw [h, decodeClass0, hs, hf, hr, ht]
  simp [decodeFmt_code, Except.map]

theorem frnd (form : Form) (F : Fmt) (r t : RegSel) : Statement (.frnd form F r t) := by
  intro v hwf
  rw [Instr.wf, Bool.and_eq_true] at hwf
  rw [encode]
  generalize hw : encodeClass0 form 5 F.code r t = w
  obtain ⟨h, hr, ht, hs, hf⟩ := class0 v hw.symm (sub := 5) (fmt := F.code) (by omega) (by omega) (by have := F.code_lt; omega) hwf.1 hwf.2
  rw [h, decodeClass0, hs, hf, hr, ht]
  simp [decodeFmt_code, Except.map]

theorem fneg (form : Form) (m : MoveFmt) (r t : RegSel) : Statement (.fneg form m r t) := by
  intro v hwf
  rw [Instr.wf, Bool.and_eq_true] at hwf
  rw [encode]
  generalize hw : encodeClass0 form 6 m.code r t = w
  obtain ⟨h, hr, ht, hs, hf⟩ := class0 v hw.symm (sub := 6) (fmt := m.code) (by omega) (by omega) m.code_lt hwf.1 hwf.2
  rw [h, decodeClass0, hs, hf, hr, ht]
  simp [decodeMoveFmt_code, Except.map]

theorem fnegabs (form : Form) (m : MoveFmt) (r t : RegSel) : Statement (.fnegabs form m r t) := by
  intro v hwf
  rw [Instr.wf, Bool.and_eq_true] at hwf
  rw [encode]
  generalize hw : encodeClass0 form 7 m.code r t = w
  obtain ⟨h, hr, ht, hs, hf⟩ := class0 v hw.symm (sub := 7) (fmt := m.code) (by omega) (by omega) m.code_lt hwf.1 hwf.2
  rw [h, decodeClass0, hs, hf, hr, ht]
  simp [decodeMoveFmt_code, Except.map]

theorem fcnvff (form : Form) (c : FloatConv) (r t : RegSel) : Statement (.fcnvff form c r t) := by
  intro v hwf
  rw [Instr.wf, Bool.and_eq_true] at hwf
  cases c with
  | sglToDbl =>
    show decode v (encodeClass1 form 0 (Fmt.code .sgl) (Fmt.code .dbl) r t) = _
    generalize hw : encodeClass1 form 0 (Fmt.code .sgl) (Fmt.code .dbl) r t = w
    obtain ⟨h, hr, ht, hs, hsf, hdf⟩ := class1 v hw.symm (by omega) (fun _ => by omega) hwf.1 hwf.2
    rw [h, decodeClass1, hsf, hdf, hs, hr, ht]
    rfl
  | dblToSgl =>
    show decode v (encodeClass1 form 0 (Fmt.code .dbl) (Fmt.code .sgl) r t) = _
    generalize hw : encodeClass1 form 0 (Fmt.code .dbl) (Fmt.code .sgl) r t = w
    obtain ⟨h, hr, ht, hs, hsf, hdf⟩ := class1 v hw.symm (by omega) (fun _ => by omega) hwf.1 hwf.2
    rw [h, decodeClass1, hsf, hdf, hs, hr, ht]
    rfl

theorem fcnvxf (form : Form) (sf df : Fmt) (r t : RegSel) : Statement (.fcnvxf form sf df r t) := by
  intro v hwf
  rw [Instr.wf, Bool.and_eq_true] at hwf
  rw [encode]
  generalize hw : encodeClass1 form 1 sf.code df.code r t = w
  obtain ⟨h, hr, ht, hs, hsf, hdf⟩ :=
    class1 v hw.symm (by omega) (fun _ => by omega) hwf.1 hwf.2
  rw [h, decodeClass1, hsf, hdf, hs, hr, ht]
  rfl

theorem fcnvfx (form : Form) (sf df : Fmt) (r t : RegSel) : Statement (.fcnvfx form sf df r t) := by
  intro v hwf
  rw [Instr.wf, Bool.and_eq_true] at hwf
  rw [encode]
  generalize hw : encodeClass1 form 2 sf.code df.code r t = w
  obtain ⟨h, hr, ht, hs, hsf, hdf⟩ :=
    class1 v hw.symm (by omega) (fun _ => by omega) hwf.1 hwf.2
  rw [h, decodeClass1, hsf, hdf, hs, hr, ht]
  rfl

theorem fcnvfxt (form : Form) (sf df : Fmt) (r t : RegSel) : Statement (.fcnvfxt form sf df r t) := by
  intro v hwf
  rw [Instr.wf, Bool.and_eq_true] at hwf
  rw [encode]
  generalize hw : encodeClass1 form 3 sf.code df.code r t = w
  obtain ⟨h, hr, ht, hs, hsf, hdf⟩ :=
    class1 v hw.symm (by omega) (fun _ => by omega) hwf.1 hwf.2
  rw [h, decodeClass1, hsf, hdf, hs, hr, ht]
  rfl

theorem fcnvuf (form : Form) (sf df : Fmt) (r t : RegSel) : Statement (.fcnvuf form sf df r t) := by
  intro v hwf
  rw [Instr.wf, Bool.and_eq_true, Bool.and_eq_true] at hwf
  rw [encode]
  generalize hw : encodeClass1 form 5 sf.code df.code r t = w
  obtain ⟨h, hr, ht, hs, hsf, hdf⟩ :=
    class1 v hw.symm (by omega) (by rintro rfl; cases hwf.1.1) hwf.1.2 hwf.2
  rw [h, decodeClass1, hsf, hdf, hs, hr, ht]
  rfl

theorem fcnvfu (form : Form) (sf df : Fmt) (r t : RegSel) : Statement (.fcnvfu form sf df r t) := by
  intro v hwf
  rw [Instr.wf, Bool.and_eq_true, Bool.and_eq_true] at hwf
  rw [encode]
  generalize hw : encodeClass1 form 6 sf.code df.code r t = w
  obtain ⟨h, hr, ht, hs, hsf, hdf⟩ :=
    class1 v hw.symm (by omega) (by rintro rfl; cases hwf.1.1) hwf.1.2 hwf.2
  rw [h, decodeClass1, hsf, hdf, hs, hr, ht]
  rfl

theorem fcnvfut (form : Form) (sf df : Fmt) (r t : RegSel) : Statement (.fcnvfut form sf df r t) := by
  intro v hwf
  rw [Instr.wf, Bool.and_eq_true, Bool.and_eq_true] at hwf
  rw [encode]
  generalize hw : encodeClass1 form 7 sf.code df.code r t = w
  obtain ⟨h, hr, ht, hs, hsf, hdf⟩ :=
    class1 v hw.symm (by omega) (by rintro rfl; cases hwf.1.1) hwf.1.2 hwf.2
  rw [h, decodeClass1, hsf, hdf, hs, hr, ht]
  rfl

theorem fcmp (form : Form) (F : Fmt) (r1 r2 : RegSel) (y : Fin 8) (c : Fin 32) : Statement (.fcmp form F r1 r2 y c) := by
  intro v hwf
  rw [Instr.wf, Bool.and_eq_true, Bool.and_eq_true] at hwf
  exact class2 v hwf.1.1 hwf.1.2 hwf.2

theorem ftest (form : Form) (fmt : Fin 4) : Statement (.ftest form fmt) := fun v hwf => class2Test v hwf

theorem fadd (form : Form) (F : Fmt) (r1 r2 t : RegSel) : Statement (.fadd form F r1 r2 t) := by
  intro v hwf
  rw [Instr.wf, Bool.and_eq_true, Bool.and_eq_true] at hwf
  rw [encode]
  generalize hw : encodeClass3 form 0 0 F r1 r2 t = w
  obtain ⟨h, h1, h2, h3, hs, hf, hx⟩ :=
    class3 v hw.symm (by omega) (by omega) hwf.1.1 hwf.1.2 hwf.2
  rw [h]
  simp only [decodeClass3, hs, hf, h1, h2, h3]
  rfl

theorem fsub (form : Form) (F : Fmt) (r1 r2 t : RegSel) : Statement (.fsub form F r1 r2 t) := by
  intro v hwf
  rw [Instr.wf, Bool.and_eq_true, Bool.and_eq_true] at hwf
  rw [encode]
  generalize hw : encodeClass3 form 1 0 F r1 r2 t = w
  obtain ⟨h, h1, h2, h3, hs, hf, hx⟩ :=
    class3 v hw.symm (by omega) (by omega) hwf.1.1 hwf.1.2 hwf.2
  rw [h]
  simp only [decodeClass3, hs, hf, h1, h2, h3]
  rfl

theorem fmpy (form : Form) (F : Fmt) (r1 r2 t : RegSel) : Statement (.fmpy form F r1 r2 t) := by
  intro v hwf
  rw [Instr.wf, Bool.and_eq_true, Bool.and_eq_true] at hwf
  rw [encode]
  generalize hw : encodeClass3 form 2 0 F r1 r2 t = w
  obtain ⟨h, h1, h2, h3, hs, hf, hx⟩ :=
    class3 v hw.symm (by omega) (by omega) hwf.1.1 hwf.1.2 hwf.2
  rw [h]
  simp only [decodeClass3, hs, hf, h1, h2, h3]
  cases form with
  | op0C => rfl
  | op0E =>
    simp [hx, Except.map]

theorem fdiv (form : Form) (F : Fmt) (r1 r2 t : RegSel) : Statement (.fdiv form F r1 r2 t) := by
  intro v hwf
  rw [Instr.wf, Bool.and_eq_true, Bool.and_eq_true] at hwf
  rw [encode]
  generalize hw : encodeClass3 form 3 0 F r1 r2 t = w
  obtain ⟨h, h1, h2, h3, hs, hf, hx⟩ :=
    class3 v hw.symm (by omega) (by omega) hwf.1.1 hwf.1.2 hwf.2
  rw [h]
  simp only [decodeClass3, hs, hf, h1, h2, h3]
  rfl

theorem frem (form : Form) (F : Fmt) (r1 r2 t : RegSel) : Statement (.frem form F r1 r2 t) := by
  intro v hwf
  rw [Instr.wf, Bool.and_eq_true, Bool.and_eq_true] at hwf
  rw [encode]
  generalize hw : encodeClass3 form 4 0 F r1 r2 t = w
  obtain ⟨h, h1, h2, h3, hs, hf, hx⟩ :=
    class3 v hw.symm (by omega) (by omega) hwf.1.1 hwf.1.2 hwf.2
  rw [h]
  simp only [decodeClass3, hs, hf, h1, h2, h3]
  rfl

theorem xmpyu (F : Fmt) (r1 r2 t : RegSel) : Statement (.xmpyu F r1 r2 t) := by
  intro v _
  rw [encode]
  generalize hw : encodeClass3 .op0E 2 1 F r1 r2 t = w
  obtain ⟨h, h1, h2, h3, hs, hf, hx⟩ := class3 v hw.symm (by omega) (by omega) rfl rfl rfl
  rw [h]
  simp only [decodeClass3, hs, hf, h1, h2, h3]
  simp [hx, Except.map]

theorem fmpyadd (F : Fmt) (rm1 rm2 ta ra tm : Fin 32) : Statement (.fmpyadd F rm1 rm2 ta ra tm) := fun v _ =>
  multi v false F rm1 rm2 ta ra tm

theorem fmpysub (F : Fmt) (rm1 rm2 ta ra tm : Fin 32) : Statement (.fmpysub F rm1 rm2 ta ra tm) := fun v _ =>
  multi v true F rm1 rm2 ta ra tm

theorem fmpyfadd (F : Fmt) (rm1 rm2 ra t : RegSel) : Statement (.fmpyfadd F rm1 rm2 ra t) := fun v _ =>
  fused v false F rm1 rm2 ra t

theorem fmpynfadd (F : Fmt) (rm1 rm2 ra t : RegSel) : Statement (.fmpynfadd F rm1 rm2 ra t) := fun v _ =>
  fused v true F rm1 rm2 ra t

theorem fid : Statement .fid := fun v _ => by cases v <;> rfl

end Sys2Proof.Laws.RoundTrip
end

