-- ==== Sys2Proof/Laws/Queue.lean ====
section
/-! SUPPORT. Everything a dispatch and one slot of the exception queue can do (60_exceptions.md R340 to R350), and the
decoder as one step per slot. -/

namespace Sys2Proof.Machine

/-! ## What any call keeps of the status word -/

theorem StatusSince.refl (s : State) : StatusSince s.variant s.status s :=
  ⟨rfl, fun _ h => h, fun _ _ _ _ => rfl, fun _ _ _ _ => rfl⟩

theorem StatusSince.trans {v : Variant} {r : Word} {s t : State} (h : StatusSince v r s)
    (h' : StatusSince s.variant s.status t) : StatusSince v r t where
  variant := h'.variant.trans h.variant
  sticky e he := h'.sticky e (h.sticky e he)
  mode b h1 h2 h3 := (h'.mode b h1 h2 h3).trans (h.mode b h1 h2 h3)
  other hv b h1 h2 := (h'.other (h.variant.trans hv) b h1 h2).trans (h.other hv b h1 h2)

/-- A state that differs in no status bit but T. -/
theorem StatusSince.of_bits {s t : State} (hv : t.variant = s.variant)
    (h : ∀ b, b < 32 → b ≠ tBit → bitAt t.status b = bitAt s.status b) : StatusSince s.variant s.status t where
  variant := hv
  sticky e he := by
    have := e.flagBit_lt
    exact (h e.flagBit (by omega) (by simp only [tBit]; omega)).trans he
  mode b _ h2 h3 := h b h2 h3
  other _ b _ h2 := h b (by omega) (by simp only [tBit]; omega)

theorem StatusSince.of_raises {may : List Exc} {s t : State} (hv : t.variant = s.variant)
    (h : OnlyRaises may s.status t.status) : StatusSince s.variant s.status t where
  variant := hv
  sticky _ he := h.sticky he
  mode b h1 h2 _ := h.bit_eq (by omega) h2
  other _ b h1 h2 := h.bit_eq (by omega) (by omega)

/-- T aside, `setT` keeps every bit. -/
theorem bitAt_setT_ne (s : State) (v : Bool) {b : Nat} (hb : b < 32) (h : b ≠ tBit) :
    bitAt (s.setT v).status b = bitAt s.status b := by
  rw [State.status_setT, bitAt_putBit_ne _ _ (by decide) hb h]

theorem StatusSince.setT (s : State) (v : Bool) : StatusSince s.variant s.status (s.setT v) :=
  .of_bits rfl fun _ hb h => bitAt_setT_ne s v hb h

theorem StatusSince.ran {i : Instr} {s t : State} (h : Ran i s t) : StatusSince s.variant s.status t := by
  cases hc : i.isCompare with
  | false =>
    obtain ⟨o, -, hf⟩ := h.ends hc
    exact .of_raises h.variant hf.raises
  | true =>
    obtain ⟨F, x, y, c, -, -, -, hb⟩ := h.compare hc
    refine ⟨h.variant, fun e he => ?_, fun b h1 h2 h3 => ?_, fun hv b h1 h2 => ?_⟩
    · have h5 := e.flagBit_lt
      rw [flagSet, hb _ (by omega) (by omega), kFcmp_bit _ _ _ _ (by omega), if_neg (by simp only [cBit]; omega)]
      split
      · rfl
      · exact he
    · rw [hb b h2 (by omega), kFcmp_bit _ _ _ _ h2, if_neg (by simp only [cBit]; omega),
        if_neg (fun h => by have := h.1; simp only [Exc.flagBit] at this; omega)]
    · have h3 : b < 32 := by omega
      rw [hb b h3 (by rw [hv]; simp), kFcmp_bit _ _ _ _ h3, if_neg (by simp only [cBit]; omega),
        if_neg (fun h => by have := h.1; simp only [Exc.flagBit] at this; omega)]

/-! ## Dispatch -/

/-- Everything a dispatch can do when it answers a next state. -/
theorem dispatch_next {w : Word} {s t : State} (h : dispatchWord w s = .next t) :
    t = s.unimplemented ∨ ∃ i, decode s.variant w = .ok i ∧ Ran i s t := by
  unfold dispatchWord at h
  cases hd : decode s.variant w with
  | error e =>
    rw [hd] at h
    cases h
    exact .inl rfl
  | ok i =>
    rw [hd] at h
    exact (exec_next h).imp_right fun hr => ⟨i, rfl, hr⟩

theorem dispatch_no_fault (w : Word) (s : State) (f : Fault) : dispatchWord w s ≠ .fault f := by
  unfold dispatchWord
  cases decode s.variant w with
  | error e => intro h; cases h
  | ok i => exact exec_no_fault i s f

/-- An instruction that ran ended with an outcome other than UNIMPLEMENTED. -/
theorem Ran.outcome {i : Instr} {s t : State} (h : Ran i s t) :
    ∃ o, t.returned = .outcome o ∧ o ≠ .unimplemented ∧ ∀ e ∈ o.names, e ∈ i.mayReport := by
  cases hc : i.isCompare with
  | false =>
    obtain ⟨o, ho, hf⟩ := h.ends hc
    exact ⟨o, ho, hf.implemented, fun e he => (hf.named e he).1⟩
  | true =>
    obtain ⟨F, x, y, c, ho, -, hr, -⟩ := h.compare hc
    refine ⟨_, ho, ?_, ?_⟩
    · rw [kFcmp_outcome]
      split <;> decide
    · rw [kFcmp_outcome, hr]
      split <;> simp [FpOutcome.names]

theorem Ran.slot {i : Instr} {s t : State} (h : Ran i s t) {k : Fin 64} (hk : isSlot k) : t.word k = s.word k := by
  refine h.words k ?_ fun hm => ?_
  · rintro rfl
    exact absurd hk.1 (by simp)
  · have := h.data k hm
    have := hk.2
    omega

/-- A re-dispatched fused instruction never reports DIV_BY_ZERO (R260), so a re-tag always has a type (R341). -/
theorem retag_of_dispatch {w : Word} {s t : State} {o : FpOutcome} (h : dispatchWord w s = .next t)
    (ho : t.returned = .outcome o) (hu : o ≠ .unimplemented) :
    ∃ ty, retagType o (majorOf w) = some ty ∧ ty ≠ .unimplemented := by
  have hz : majorOf w = 0x2E → o ≠ .divByZero := by
    rintro hm rfl
    obtain rfl | ⟨i, hi, hr⟩ := dispatch_next h
    · cases ho
    · obtain ⟨o', ho', -, hn⟩ := hr.outcome
      rw [ho] at ho'
      cases ho'
      have h1 := hn .Z (by simp [FpOutcome.names])
      have hf : field w 0 5 = 0x2E := by
        simp only [majorOf] at hm
        simp only [field, hm]
        rfl
      have hne : w ≠ 0x30000000#32 := by
        rintro rfl
        revert hf
        decide
      simp only [decode, if_neg hne, hf, decodeFused] at hi
      cases hi
      by_cases hb : bitAt w 26 = true
      · rw [if_pos hb] at h1
        simp [Instr.mayReport, Instr.mayRaise] at h1
      · rw [if_neg hb] at h1
        simp [Instr.mayReport, Instr.mayRaise] at h1
  by_cases hm : majorOf w = 0x2E
  · have := hz hm
    cases o <;> simp_all [retagType]
  · cases o <;> simp_all [retagType]

/-! ## One slot -/

/-- What visiting slot `k` keeps, whatever it does: the other slots, the pending calls, and of the status word what any
step keeps. -/
structure Visited (s t : State) (k : Fin 64) : Prop where
  slots : ∀ j, isSlot j → j ≠ k → t.word j = s.word j
  since : StatusSince s.variant s.status t
  calls : t.calls = s.calls

theorem Visited.refl (s : State) (k : Fin 64) : Visited s s k := ⟨fun _ _ _ => rfl, .refl s, rfl⟩

theorem Visited.trans {a b c : State} {k : Fin 64} (h : Visited a b k) (h' : Visited b c k) : Visited a c k where
  slots j hj hk := (h'.slots j hj hk).trans (h.slots j hj hk)
  since := h.since.trans h'.since
  calls := h'.calls.trans h.calls

theorem isSlot.ne_zero {j : Fin 64} (h : isSlot j) : j ≠ 0 := by
  rintro rfl
  exact absurd h.1 (by simp)

theorem Visited.setWord (s : State) {k : Fin 64} (hk : isSlot k) (v : Word) : Visited s (s.setWord k v) k where
  slots j _ hj := State.word_setWord_ne s k j v hj
  since := .of_bits rfl fun b _ _ => by
    rw [State.status_eq, State.word_setWord_ne _ _ _ _ (Ne.symm hk.ne_zero), ← State.status_eq]
  calls := rfl

theorem Visited.setT (s : State) (k : Fin 64) (v : Bool) : Visited s (s.setT v) k where
  slots j hj _ := State.word_setT_ne s j v hj.ne_zero
  since := .setT s v
  calls := rfl

theorem Visited.terminal (s : State) (k : Fin 64) (g : Signal) : Visited s (s.terminal g) k where
  slots j hj _ := State.word_terminal_ne s j g hj.ne_zero
  since := .of_bits rfl fun _ hb h => bitAt_setT_ne s true hb h
  calls := rfl

theorem Visited.raise (s : State) (k : Fin 64) (e : Exc) : Visited s (s.setStatus (raiseFlag e s.status)) k where
  slots j hj _ := State.word_setStatus_ne s j _ hj.ne_zero
  since := .of_raises (may := [e]) rfl (by
    rw [State.status_setStatus]
    exact (OnlyRaises.refl _ _).raise (by simp))
  calls := rfl

/-- Writing an operand in the data words. -/
theorem Visited.write (s : State) (k : Fin 64) {F : Fmt} {d : Fin 64} (h : dataIndex F d) (v : Enc F) :
    Visited s (s.write F d v) k where
  slots j hj _ := State.word_write_of_notMem s F d j v fun hm => by
    have := h.words j hm
    have := hj.2
    omega
  since := .of_bits (by simp) fun b _ _ => by rw [State.status_write_of h]
  calls := by simp

theorem Visited.dispatch {w : Word} {s t : State} (h : dispatchWord w s = .next t) (k : Fin 64) : Visited s t k := by
  obtain rfl | ⟨i, -, hr⟩ := dispatch_next h
  · exact ⟨fun _ _ _ => rfl, .of_bits rfl fun _ _ _ => rfl, rfl⟩
  · exact ⟨fun j hj _ => hr.slot hj, .ran hr, hr.calls⟩

/-- How a slot's test can end (R350). -/
inductive SlotEnd (s : State) (k : Fin 64) : SlotStep → Prop
  /-- The slot is cleared and the decoder goes on. -/
  | cleared (t : State) (h : Visited s t k) (h0 : t.word k = 0) : SlotEnd s k (.proceed t)
  /-- The run ends with a signal. -/
  | signaled (s' : State) (g : Signal) (h : Visited s s' k) : SlotEnd s k (.stop (.next (s'.terminal g)))
  | refused (r : Refusal) : SlotEnd s k (.stop (.refused r))

theorem SlotEnd.of_visited {s s' : State} {k : Fin 64} {r : SlotStep} (h : Visited s s' k) (h' : SlotEnd s' k r) :
    SlotEnd s k r := by
  cases h' with
  | cleared t h1 h2 => exact .cleared t (h.trans h1) h2
  | signaled t g h1 => exact .signaled t g (h.trans h1)
  | refused r => exact .refused r

theorem clearSlot_end (s : State) {k : Fin 64} (hk : isSlot k) : SlotEnd s k (.proceed (clearSlot s k)) :=
  .cleared _ (.setWord s hk 0) (State.word_setWord_self s k 0)

theorem slotInexact_end (s : State) {k : Fin 64} (hk : isSlot k) : SlotEnd s k (slotInexact s k) := by
  unfold slotInexact
  split
  · exact .signaled s _ (.refl s k)
  · exact (clearSlot_end _ hk).of_visited (.raise s k .I)

theorem dstWord_some {d : DstOp} {t : Fin 64} (h : dstWord d = some t) : d = .word t := by
  cases d <;> simp_all [dstWord]

theorem floatDst_some {d : DstOp} {F G : Fmt} {t : Fin 64} (h : floatDst d F = some (t, G)) : d = .word t ∧ F = G := by
  cases d <;> simp_all [floatDst, dstWord]

/-- The destination of R346 is a data operand, and the one the dispatcher writes. -/
theorem floatDestOf_some {i : Instr} {t : Fin 64} {F : Fmt} (h : floatDestOf i = some (t, F)) :
    dataIndex F t ∧ i.writes = operandWords F t := by
  cases i with
  | fcpy form m _ d | fabs form m _ d | fneg form m _ d | fnegabs form m _ d =>
    cases m with
    | num G =>
      obtain ⟨h1, rfl⟩ := floatDst_some h
      exact ⟨Form.dst_data _ h1, by simp only [Instr.writes, h1, dstWords]⟩
    | quad => cases h
  | fcnvff form c _ d =>
    cases c <;>
    · obtain ⟨h1, rfl⟩ := floatDst_some h
      exact ⟨Form.dst_data _ h1, by simp only [Instr.writes, h1, dstWords]⟩
  | fsqrt | frnd | fcnvxf | fcnvuf | fadd | fsub | fmpy | fdiv | frem =>
    obtain ⟨h1, rfl⟩ := floatDst_some h
    exact ⟨Form.dst_data _ h1, by simp only [Instr.writes, h1, dstWords]⟩
  | fmpyfadd | fmpynfadd =>
    obtain ⟨h1, rfl⟩ := floatDst_some h
    exact ⟨fused_word h1, by simp only [Instr.writes, h1, dstWords]⟩
  | fcnvfx | fcnvfxt | fcnvfu | fcnvfut | fcmp | ftest | xmpyu | fmpyadd | fmpysub | fid => cases h

theorem slotDest_some {v : Variant} {w : Word} {t : Fin 64} {F : Fmt} (h : slotDest v w = some (t, F)) :
    dataIndex F t := by
  unfold slotDest at h
  cases hd : decode v w with
  | ok i => rw [hd] at h; exact (floatDestOf_some h).1
  | error e => rw [hd] at h; cases h

/-- A slot is refused for its destination or its captured value, or goes on with an admitted value at a data operand. -/
theorem withCaptured_end {s : State} {k : Fin 64} {iw : Word} {ok : (F : Fmt) → Enc F → Bool}
    {f : Fin 64 → (F : Fmt) → Enc F → SlotStep} (h : ∀ t F, dataIndex F t → SlotEnd s k (f t F (s.read F t))) :
    SlotEnd s k (withCaptured s iw ok f) := by
  unfold withCaptured
  split
  · exact .refused _
  · rename_i hd
    split
    · exact h _ _ (slotDest_some hd)
    · exact .refused _

/-- Without a destination the slot is refused, whatever its trap enable (R346, R382). -/
theorem withCaptured_none {s : State} {iw : Word} (hd : slotDest s.variant iw = none) (ok f) :
    withCaptured s iw ok f = .stop (.refused .slotDestination) := by
  rw [withCaptured, hd]

/-- With a destination the captured value decides (R343, R344, R382). -/
theorem withCaptured_some {s : State} {iw : Word} {t : Fin 64} {F : Fmt} (hd : slotDest s.variant iw = some (t, F))
    (ok f) :
    withCaptured s iw ok f = if ok F (s.read F t) then f t F (s.read F t) else .stop (.refused .slotValue) := by
  rw [withCaptured, hd]

theorem underflowSlot_end (s : State) {k : Fin 64} (hk : isSlot k) (iw : Word) : SlotEnd s k (underflowSlot s k iw) := by
  refine withCaptured_end fun t F ht => ?_
  simp only
  split
  · exact .signaled s _ (.refl s k)
  · split
    · exact (slotInexact_end _ hk).of_visited ((Visited.write s k ht _).trans (.raise _ k .U))
    · exact (clearSlot_end _ hk).of_visited (.write s k ht _)

theorem overflowSlot_end (s : State) {k : Fin 64} (hk : isSlot k) (iw : Word) : SlotEnd s k (overflowSlot s k iw) := by
  refine withCaptured_end fun t F ht => ?_
  simp only
  split
  · exact .signaled s _ (.refl s k)
  · exact (slotInexact_end _ hk).of_visited ((Visited.write s k ht _).trans (.raise _ k .O))

theorem settleSlot_end (s : State) {k : Fin 64} (hk : isSlot k) {ty : ExcType} (hty : ty ≠ .unimplemented) (iw : Word) :
    SlotEnd s k (settleSlot s k ty iw) := by
  cases ty with
  | unimplemented => exact absurd rfl hty
  | none => exact clearSlot_end s hk
  | overflow | overflowInexact => exact overflowSlot_end s hk iw
  | underflow | underflowInexact => exact underflowSlot_end s hk iw
  | invalid | divByZero | inexact | fma | unrecognized => exact .signaled s _ (.refl s k)

theorem settleRetagged_end (s : State) {k : Fin 64} (hk : isSlot k) {ty : ExcType} (hty : ty ≠ .unimplemented)
    (iw : Word) : SlotEnd s k (settleRetagged s k ty iw) := by
  unfold settleRetagged
  split
  · exact .signaled s _ (.refl s k)
  · exact settleSlot_end s hk hty iw

/-- A re-tagged slot that no enabled overflow or underflow trap ends is settled as any slot. -/
theorem settleRetagged_none {s : State} {ty : ExcType} (h : enabledSignal s.status ty = none) (k : Fin 64) (iw : Word) :
    settleRetagged s k ty iw = settleSlot s k ty iw := by
  rw [settleRetagged, h]

/-- An enabled overflow or underflow trap ends a re-tagged slot (R343, R344). -/
theorem settleRetagged_some {s : State} {ty : ExcType} {g : Signal} (h : enabledSignal s.status ty = some g) (k : Fin 64)
    (iw : Word) : settleRetagged s k ty iw = .stop (.next (s.terminal g)) := by
  rw [settleRetagged, h]
  rfl

/-- An exception that a dispatch reports has its trap enabled, before and after (R332). -/
theorem dispatch_reports {w : Word} {s t : State} {o : FpOutcome} {e : Exc} (h : dispatchWord w s = .next t)
    (ho : t.returned = .outcome o) (he : e ∈ o.names) : enabled e s.status = true ∧ enabled e t.status = true := by
  have hk : enabled e t.status = enabled e s.status :=
    (Visited.dispatch h 1).since.mode _ (by have := e.enableBit_ge; omega) e.enableBit_lt
      (by have := e.enableBit_ge; simp only [tBit]; omega)
  rw [hk, and_self]
  obtain rfl | ⟨i, -, hr⟩ := dispatch_next h
  · cases ho
    simp [FpOutcome.names] at he
  · cases hc : i.isCompare with
    | false =>
      obtain ⟨o', ho', hf⟩ := hr.ends hc
      rw [ho] at ho'
      cases ho'
      exact (hf.named e he).2.1
    | true =>
      obtain ⟨F, x, y, c, ho', -⟩ := hr.compare hc
      rw [ho, kFcmp_outcome] at ho'
      split at ho'
      · rename_i hv
        cases ho'
        obtain rfl : e = .V := by simpa [FpOutcome.names] using he
        exact hv.2
      · cases ho'
        simp [FpOutcome.names] at he

/-- A lawful re-tag reads back as what was written (R42). -/
theorem retag_reads {p : QueueParams} (hp : p.Lawful) (s t : State) (k : Fin 64) (o : FpOutcome) :
    p.slotUnpack ((t.setWord k (p.slotPack (p.codeOf o (majorOf (slotInstr p s k))) (slotInstr p s k))).word k) =
      (p.codeOf o (majorOf (slotInstr p s k)), slotInstr p s k) := by
  rw [State.word_setWord_self]
  exact hp.retag_unpack (s.word k) o

/-- A re-dispatch that answers a next state with an outcome other than UNIMPLEMENTED (R342). -/
theorem redispatch_retag {p : QueueParams} (hp : p.Lawful) {s t : State} {k : Fin 64} {o : FpOutcome}
    (h : dispatchWord (slotInstr p s k) (s.setT false) = .next t) (ho : t.returned = .outcome o) (hu : o ≠ .unimplemented) :
    ∃ ty, retagType o (majorOf (slotInstr p s k)) = some ty ∧ ty ≠ .unimplemented ∧
      redispatchSlot p s k (slotInstr p s k) =
        settleRetagged (t.setWord k (p.slotPack (p.codeOf o (majorOf (slotInstr p s k))) (slotInstr p s k))) k ty
          (slotInstr p s k) := by
  obtain ⟨ty, h1, h2⟩ := retag_of_dispatch h ho hu
  refine ⟨ty, h1, h2, ?_⟩
  have hoc : t.outcome = o := by rw [State.outcome, ho]
  simp only [redispatchSlot, h, hoc, if_neg hu, retestSlot, retag_reads hp s t k o]
  rw [hp.retag_type _ _ _ h1, settleRetagged]

/-- A slot of a type other than UNIMPLEMENTED is settled at once (R350). -/
theorem visitSlot_settle {p : QueueParams} {s : State} {k : Fin 64} (h : slotType p s k ≠ .unimplemented) :
    visitSlot p s k = settleSlot s k (slotType p s k) (slotInstr p s k) := by
  unfold visitSlot slotType slotInstr at *
  simp only at *

/-- An UNIMPLEMENTED slot is dispatched again (R342). -/
theorem visitSlot_redispatch {p : QueueParams} {s : State} {k : Fin 64} (h : slotType p s k = .unimplemented) :
    visitSlot p s k = redispatchSlot p s k (slotInstr p s k) := by
  unfold visitSlot slotType slotInstr at *
  simp only at *
  rw [h]

/-- What `TERM` leaves. -/
theorem terminal_terminated (s : State) (g : Signal) : Terminated s (s.terminal g) g where
  signal := rfl
  pending := by rw [State.status_terminal, bitAt_putBit_self _ _ _ (by decide)]
  status _ hb h := bitAt_setT_ne s true hb h
  words i hi := State.word_terminal_ne s i g hi
  variant := rfl
  calls := rfl

/-- Everything a slot can do (R350). -/
theorem visitSlot_end {p : QueueParams} (hp : p.Lawful) (s : State) {k : Fin 64} (hk : isSlot k) :
    SlotEnd s k (visitSlot p s k) := by
  by_cases hu : slotType p s k = .unimplemented
  · rw [visitSlot_redispatch hu]
    cases hd : dispatchWord (slotInstr p s k) (s.setT false) with
    | fault f => exact absurd hd (dispatch_no_fault _ _ _)
    | refused r =>
      simp only [redispatchSlot, hd]
      exact .refused r
    | next t =>
      have hvt := (Visited.setT s k false).trans (.dispatch hd k)
      obtain rfl | ⟨i, -, hr⟩ := dispatch_next hd
      · simp only [redispatchSlot, hd]
        exact .signaled _ _ hvt
      · obtain ⟨o, ho, hu, -⟩ := hr.outcome
        obtain ⟨ty, -, hty, he⟩ := redispatch_retag hp hd ho hu
        rw [he]
        exact (settleRetagged_end _ hk hty _).of_visited (hvt.trans (.setWord t hk _))
  · rw [visitSlot_settle hu]
    exact settleSlot_end s hk hu _

/-! ## The whole run -/

/-- How a run over a list of slots can end (R340, R350): every slot was cleared and "no signal" is returned, or the run
stopped at one slot, those before it cleared and those after it untouched. -/
inductive RunEnd (p : QueueParams) (s : State) (l : List (Fin 64)) : Result → Prop
  | drained (s' : State) (since : StatusSince s.variant s.status s') (calls : s'.calls = s.calls)
      (cleared : ∀ k ∈ l, s'.word k = 0) (slots : ∀ j, isSlot j → j ∉ l → s'.word j = s.word j) :
      RunEnd p s l (.next s'.drained)
  | signaled (s' : State) (g : Signal) (since : StatusSince s.variant s.status s') (calls : s'.calls = s.calls)
      (done : List (Fin 64)) (k : Fin 64) (rest : List (Fin 64)) (split : l = done ++ k :: rest)
      (cleared : ∀ j ∈ done, s'.word j = 0) (slots : ∀ j, isSlot j → j ∉ done → j ≠ k → s'.word j = s.word j)
      (at_k : State) (stopped : visitSlot p at_k k = .stop (.next (s'.terminal g)))
      (kept : ∀ j, isSlot j → j ∉ done → at_k.word j = s.word j) : RunEnd p s l (.next (s'.terminal g))
  | refused (r : Refusal) : RunEnd p s l (.refused r)

theorem visitSlots_end {p : QueueParams} (hp : p.Lawful) (l : List (Fin 64)) (hl : ∀ k ∈ l, isSlot k) (hd : l.Nodup)
    (s : State) : RunEnd p s l (visitSlots p l s) := by
  induction l generalizing s with
  | nil => exact .drained s (.refl s) rfl (by simp) (fun _ _ _ => rfl)
  | cons k ks ih =>
    have hk := hl k (by simp)
    obtain ⟨hk1, hk2⟩ := List.nodup_cons.1 hd
    have hv := visitSlot_end hp s hk
    unfold visitSlots
    cases hr : visitSlot p s k with
    | stop r =>
      rw [hr] at hv
      cases hv with
      | signaled s' g h =>
        exact .signaled s' g h.since h.calls [] k ks rfl (by simp) (fun j hj _ hjk => h.slots j hj hjk) s hr
          fun _ _ _ => rfl
      | refused r => exact .refused r
    | proceed t =>
      rw [hr] at hv
      cases hv with
      | cleared t h h0 =>
        have hi := ih (fun j hj => hl j (by simp [hj])) hk2 t
        simp only
        generalize visitSlots p ks t = r at hi
        cases hi with
        | drained s' h1 h2 h3 h4 =>
          refine .drained s' (h.since.trans h1) (h2.trans h.calls) ?_ ?_
          · intro j hj
            obtain rfl | hj := List.mem_cons.1 hj
            · rw [h4 j hk hk1, h0]
            · exact h3 j hj
          · intro j hj hjl
            rw [List.mem_cons, not_or] at hjl
            rw [h4 j hj hjl.2, h.slots j hj hjl.1]
        | signaled s' g h1 h2 done m rest hsp h3 h4 s0 h5 h6 =>
          have hkd : k ∉ done := fun hm => hk1 (by rw [hsp]; simp [hm])
          have hkm : k ≠ m := by rintro rfl; exact hk1 (by rw [hsp]; simp)
          refine .signaled s' g (h.since.trans h1) (h2.trans h.calls) (k :: done) m rest (by rw [hsp]; rfl) ?_ ?_ s0 h5 ?_
          · intro j hj
            obtain rfl | hj := List.mem_cons.1 hj
            · rw [h4 j hk hkd hkm, h0]
            · exact h3 j hj
          · intro j hj hjl hjm
            rw [List.mem_cons, not_or] at hjl
            rw [h4 j hj hjl.2 hjm, h.slots j hj hjl.1]
          · intro j hj hjl
            rw [List.mem_cons, not_or] at hjl
            rw [h6 j hj hjl.2, h.slots j hj hjl.1]
        | refused r => exact .refused r

theorem mem_slotOrder {k : Fin 64} : k ∈ slotOrder ↔ isSlot k := by
  revert k
  unfold isSlot
  decide

/-- Everything a run of the decoder can do (R340, R350). -/
theorem decodeQueue_end {p : QueueParams} (hp : p.Lawful) (s : State) : RunEnd p s slotOrder (decodeQueue p s) :=
  visitSlots_end hp slotOrder (fun _ h => mem_slotOrder.1 h) (by decide) s

/-! ## Clearing, ending and substituting in a slot (R342 to R350) -/

theorem State.read_raise {s : State} {F : Fmt} {d : Fin 64} (h : dataIndex F d) (e) : (s.setStatus (raiseFlag e s.status)).read F d = s.read F d :=
  State.read_setStatus_of h _

theorem slotInexact_off {s : State} {k : Fin 64} (h : enabled .I s.status = false) :
    slotInexact s k = .proceed (clearSlot (s.setStatus (raiseFlag .I s.status)) k) := by
  simp [slotInexact, h]

theorem slotInexact_on {s : State} {k : Fin 64} (h : enabled .I s.status = true) :
    slotInexact s k = .stop (.next (s.terminal .fltRes)) := by
  simp [slotInexact, h, term]

theorem isSlot_notMem_operandWords {F : Fmt} {d k : Fin 64} (h : dataIndex F d) (hk : isSlot k) : k ∉ operandWords F d := by
  intro hm
  have := h.words k hm
  have := hk.2
  omega

theorem read_clearSlot {s : State} {F : Fmt} {d k : Fin 64} (h : dataIndex F d) (hk : isSlot k) : (clearSlot s k).read F d = s.read F d := by
  apply State.read_congr
  intro j hj
  apply State.word_setWord_ne
  rintro rfl
  exact isSlot_notMem_operandWords h hk hj

theorem status_clearSlot {s : State} {k : Fin 64} (hk : isSlot k) : (clearSlot s k).status = s.status :=
  State.word_setWord_ne s k 0 0 (Ne.symm hk.ne_zero)

theorem read_terminal {s : State} {F : Fmt} {d : Fin 64} (g) (h : dataIndex F d)  : (s.terminal g).read F d = s.read F d := by
  apply State.read_congr
  intro j hj
  exact State.word_terminal_ne s j g (h.ne_zero hj)

theorem floatDst_word {d : DstOp} {F : Fmt} {j : Fin 64} (h : d = .word j) : floatDst d F = some (j, F) := by rw [h]; rfl

end Sys2Proof.Machine
end

