-- ==== Sys2Proof/Laws/Results.lean ====
section
/-! SUPPORT. Kernel results in the terms of the statements (`IsInvalid`, `IsClean`, `IsNanResult`, `IsRounded`), and the
bounds on exact values that later proofs cite. -/

namespace Sys2Proof

/-- The invalid operation does what R165 says. -/
theorem isInvalid_invalid {F : Fmt} (st : Word) (u : BitVec 64) (d : Enc F) : IsInvalid st d (invalid st u d) := by
  unfold IsInvalid invalid
  constructor
  · intro h; rw [if_pos h]; exact ⟨rfl, rfl⟩
  · intro h; rw [if_neg (by simp [h])]; exact ⟨rfl, rfl, rfl⟩

/-- Division by zero does what R166 says. -/
theorem isDivZero_divzero {F : Fmt} (st : Word) (u : BitVec 64) (s : Bool) : IsDivZero st s (divzero st u (infOf F s)) := by
  unfold IsDivZero divzero
  constructor
  · intro h; rw [if_pos h]; exact ⟨rfl, rfl⟩
  · intro h; rw [if_neg (by simp [h])]; exact ⟨rfl, rfl, rfl⟩

theorem isClean_clean {F : Fmt} (st : Word) (x : Enc F) : IsClean st x (KResult.clean st x) := ⟨rfl, rfl, rfl⟩

/-- Every kernel obeys the NaN rule (R146), whatever it does with other operands. -/
theorem isNanResult_afterNaN {F : Fmt} (st : Word) (u : BitVec 64) (ops : List (Enc F)) (k : KResult F) : IsNanResult st ops (afterNaN ops st u k) := by
  constructor
  · intro x hx
    refine ⟨quiet u x, fun h => ?_, ?_⟩
    · simp [quiet, h]
    · simp only [afterNaN, nanRule, hx, Option.getD_some]
      exact isInvalid_invalid _ _ _
  · intro x h1 h2
    simp only [afterNaN, nanRule, h1, h2, Option.map_some, Option.getD_some]
    exact isClean_clean _ _

theorem isZero_of_isInf {F : Fmt} {x : Enc F} (h : isInf x = true) : isZero x = false := by
  cases F <;> simp_all [isInf, isZero, Fmt.maxExp, Fmt.ebits]

theorem noNaN_of_isFinite {F : Fmt} {x : Enc F} (h : isFinite x = true) : isNaN x = false ∧ isInf x = false := by
  simp_all [isFinite, isNaN, isInf]

/-- The value of the encoding of a representable magnitude (R158). -/
theorem val_enc_signed {F : Fmt} {s : Bool} {v : ℚ} (hv0 : 0 ≤ v) (hv : Representable F v) : val (enc F s v) = signed s v := by
  obtain ⟨h1, h2, -⟩ := enc_spec F s hv0 hv
  rw [val, h1, h2]

theorem signed_neg_abs (r : ℚ) : signed (decide (r < 0)) |r| = r := by
  unfold signed
  by_cases h : r < 0
  · simp [h, abs_of_neg h]
  · simp [h, abs_of_nonneg (not_lt.1 h)]

theorem zeroOf_finite_val (F : Fmt) (s : Bool) : isFinite (zeroOf F s) = true ∧ val (zeroOf F s) = 0 := by
  have hv : ∀ x : Enc F, isZero x = true → val x = 0 := by
    intro x h
    rw [val, (absVal_eq_zero x).2 h]; simp [signed]
  cases F <;> cases s <;> exact ⟨by decide, hv _ (by decide)⟩

/-- A value delivered with the outcome and status of its inexactness is a rounded result (R151). -/
theorem isRounded_inexactOnly {F : Fmt} {st : Word} {x : Enc F} {ix : Bool} {P : Prop} (h : ix = true ↔ P) : IsRounded st x P (.of x (inexactOnly ix st)) := by
  unfold IsRounded inexactOnly
  refine ⟨rfl, fun hn => ?_, fun hp he => ?_, fun hp he => ?_⟩
  · rw [if_neg (by rw [h]; exact hn)]; exact ⟨rfl, rfl⟩
  · rw [if_pos (h.2 hp), if_pos he]; exact ⟨rfl, rfl⟩
  · rw [if_pos (h.2 hp), if_neg (by simp [he])]; exact ⟨rfl, rfl⟩

/-- Only one integer is nearest with ties to even (R225). -/
theorem nearestEven_unique {q : ℚ} {n : Int} (h : |q - n| ≤ 1/2) (he : |q - n| = 1/2 → n % 2 = 0) : nearestEven q = n := by
  have h1 := Rat.floor_le q
  have h2 := Rat.lt_floor_add_one q
  unfold nearestEven
  simp only
  push_cast at h2
  generalize q.floor = lo at *
  obtain ⟨h3, h4⟩ := abs_le.1 h
  have hlo : n = lo ∨ n = lo + 1 := by
    have a1 : (lo : ℚ) < n + 1 := by linarith
    have a2 : (n : ℚ) < lo + 2 := by linarith
    have a1' : lo < n + 1 := by exact_mod_cast a1
    have a2' : n < lo + 2 := by exact_mod_cast a2
    omega
  rcases lt_trichotomy (q - lo) (1/2) with hc | hc | hc
  · rw [if_pos hc]
    rcases hlo with rfl | rfl
    · rfl
    · push_cast at h3; linarith
  · rw [if_neg (by linarith), if_neg (by linarith)]
    rcases hlo with rfl | rfl
    · have : |q - n| = 1/2 := by rw [hc]; norm_num
      rw [if_pos (he this)]
    · have : |q - ((lo + 1 : Int) : ℚ)| = 1/2 := by push_cast; rw [show q - (lo + 1) = -(1/2) by linarith]; norm_num
      have := he this
      rw [if_neg (by omega)]
  · rw [if_neg (by linarith), if_pos hc]
    rcases hlo with rfl | rfl
    · linarith
    · rfl

theorem isSNaN_frac {F : Fmt} {x : Enc F} (hs : isSNaN x = true) : 2 ^ (F.fbits - 1) ≤ fracOf x := by
  simp only [isSNaN, Bool.and_eq_true, decide_eq_true_eq] at hs; exact hs.2

/-- The free quiet NaN of a narrowing is a quiet NaN (U3). -/
theorem isQNaN_anyQuietSgl (u : BitVec 64) : isQNaN (anyQuietSgl u) = true := by
  unfold anyQuietSgl
  simp only
  have h : ∀ f, f < 2^22 → f ≠ 0 → ∀ s, isQNaN (pack .sgl s (Fmt.maxExp .sgl) f) = true := by
    intro f h1 h2 s
    have e1 := expOf_pack .sgl s (e := Fmt.maxExp .sgl) (fr := f) (by decide) (h1.trans (by decide))
    have e2 := fracOf_pack .sgl s (e := Fmt.maxExp .sgl) (fr := f) (by decide) (h1.trans (by decide))
    simp only [isQNaN, isSNaN, isNaN, e1, e2]
    have : ¬ 2 ^ (Fmt.fbits .sgl - 1) ≤ f := not_le.2 h1
    simp [this, h2]
  apply h
  · split
    · decide
    · exact Nat.mod_lt _ (by decide)
  · split
    · decide
    · assumption

theorem prec_cast (F : Fmt) : (F.prec : Int) = F.fbits + 1 := by simp [Fmt.prec]

/-- A multiple of the quantum at exponent `e`, at most `2^(e+1)`, is representable below the top of the range. -/
theorem representable_of_multiple {F : Fmt} {w : ℚ} {e : Int} {k : Nat} (hw : w = k * pow2 (e - F.prec + 1)) (hle : w ≤ pow2 (e + 1))
    (hq : F.emin - F.fbits ≤ e - F.prec + 1) (hlt : w < pow2 (F.emax + 1)) : Representable F w := by
  by_cases h : w < pow2 (e + 1)
  · refine ⟨k, _, hw, ?_, hq, hlt⟩
    rw [hw, show pow2 (e + 1) = pow2 (F.prec : Int) * pow2 (e - F.prec + 1) by rw [← pow2_add]; congr 1; ring, pow2_nat] at h
    exact_mod_cast lt_of_mul_lt_mul_right h (pow2_pos _).le
  · have : w = pow2 (e + 1) := le_antisymm hle (not_lt.1 h)
    refine ⟨1, e + 1, by rw [this]; simp, by cases F <;> decide, ?_, hlt⟩
    have := prec_cast F
    omega

/-- A rounding never passes a multiple of the quantum above the magnitude. -/
theorem isRounding_le {m s q} {a : ℚ} {u : ℚ} {n : Nat} (ha : 0 ≤ a) (h : IsRounding m s q (a : ℚ) u) (hn : a ≤ n * pow2 q) : u ≤ n * pow2 q := by
  rw [← roundmag_eq (a := .rat a) ha h]; exact roundmag_le ha hn

/-- A rounding never passes a multiple of the quantum below the magnitude. -/
theorem isRounding_ge {m s q} {a : ℚ} {u : ℚ} {n : Nat} (ha : 0 ≤ a) (h : IsRounding m s q (a : ℚ) u) (hn : n * pow2 q ≤ a) : n * pow2 q ≤ u := by
  rw [← roundmag_eq (a := .rat a) ha h]; exact roundmag_ge hn

theorem pow2_eq_mul {q e : Int} (h : q ≤ e) : pow2 e = ((2 ^ (e - q).toNat : Nat) : ℚ) * pow2 q := by
  have := mul_pow2_rescale 1 h
  simpa using this

/-- Within these bounds a wrapped result is in the normal range (R160), so `finish` uses no free value. -/
theorem finish_free_unused {F : Fmt} (st : Word) (u u' : BitVec 64) {r : ℚ} (zs : Bool) {lo hi : Int}
    (h1 : r ≠ 0 → pow2 lo ≤ |r|) (h2 : |r| < pow2 hi) (hlo : F.emin ≤ lo + Config.wrap F) (hhi : hi - Config.wrap F ≤ F.emax) :
    finish F st u r zs = finish F st u' r zs := by
  unfold finish
  split
  · rfl
  · rename_i hr
    have hpos : 0 < |r| := abs_pos.2 hr
    have h1 := h1 hr
    obtain ⟨he1, he2⟩ := ilog2_spec hpos
    have hp := prec_cast F
    have hp1 : 1 ≤ F.fbits := by cases F <;> decide
    have hlog : (Mag.rat |r|).log2 = ilog2 |r| := rfl
    generalize ilog2 |r| = e at *
    have helo : lo ≤ e := by have := pow2_lt.1 (h1.trans_lt he2); omega
    have hehi : e < hi := pow2_lt.1 (he1.trans_lt h2)
    have hwge : pow2 e ≤ (roundmag (.rat |r|) ((Mag.rat |r|).log2 - F.prec + 1) (decide (r < 0)) (rmOf st)).value := by
      rw [hlog]
      have has := pow2_eq_mul (show e - F.prec + 1 ≤ e by omega)
      rw [has]; exact roundmag_ge (by rw [← has]; exact he1)
    have hwle : (roundmag (.rat |r|) ((Mag.rat |r|).log2 - F.prec + 1) (decide (r < 0)) (rmOf st)).value ≤ pow2 (e + 1) := by
      rw [hlog]
      have has := pow2_eq_mul (show e - F.prec + 1 ≤ e + 1 by omega)
      rw [has]; exact roundmag_le hpos.le (by rw [← has]; exact he2.le)
    unfold finishMag
    simp only
    generalize (roundmag (.rat |r|) ((Mag.rat |r|).log2 - F.prec + 1) (decide (r < 0)) (rmOf st)) = W at *
    have hwm : F.emin ≤ F.emax + 1 - Config.wrap F := by cases F <;> decide
    have hwm2 : F.emin + Config.wrap F ≤ F.emax + 1 := by cases F <;> decide
    split
    · rename_i hov
      split
      · have : ∀ u, wrapped F u (decide (r < 0)) (W.value * pow2 (-(Config.wrap F : Int))) = enc F (decide (r < 0)) (W.value * pow2 (-(Config.wrap F : Int))) := by
          intro u
          refine if_pos ⟨?_, ?_⟩
          · calc pow2 F.emin ≤ pow2 (F.emax + 1 + -(Config.wrap F : Int)) := pow2_le.2 (by omega)
              _ = pow2 (F.emax + 1) * pow2 (-(Config.wrap F : Int)) := pow2_add _ _
              _ ≤ _ := mul_le_mul_of_nonneg_right hov (pow2_pos _).le
          · calc _ ≤ pow2 (e + 1) * pow2 (-(Config.wrap F : Int)) := mul_le_mul_of_nonneg_right hwle (pow2_pos _).le
              _ = pow2 (e + 1 + -(Config.wrap F : Int)) := (pow2_add _ _).symm
              _ < _ := pow2_lt.2 (by omega)
        rw [this, this]
      · rfl
    · split
      · rename_i hun
        split
        · have : ∀ u, wrapped F u (decide (r < 0)) (W.value * pow2 (Config.wrap F : Int)) = enc F (decide (r < 0)) (W.value * pow2 (Config.wrap F : Int)) := by
            intro u
            refine if_pos ⟨?_, ?_⟩
            · calc pow2 F.emin ≤ pow2 (e + (Config.wrap F : Int)) := pow2_le.2 (by omega)
                _ = pow2 e * pow2 (Config.wrap F : Int) := pow2_add _ _
                _ ≤ _ := mul_le_mul_of_nonneg_right hwge (pow2_pos _).le
            · calc _ < pow2 F.emin * pow2 (Config.wrap F : Int) := mul_lt_mul_of_pos_right hun (pow2_pos _)
                _ = pow2 (F.emin + (Config.wrap F : Int)) := (pow2_add _ _).symm
                _ ≤ _ := pow2_le.2 (by omega)
          rw [this, this]
        · rfl
      · rfl

theorem val_eq_mul_quantum {F : Fmt} {x : Enc F} (h : isFinite x = true) : ∃ X : Int, val x = X * pow2 ((F.emin - F.fbits)) := by
  obtain ⟨m, q, hv, -, hq, -⟩ := representable_absVal x h
  obtain ⟨X, hX, -⟩ := val_eq_int hv hq
  exact ⟨X, hX⟩

theorem abs_val_lt {F : Fmt} {x : Enc F} (h : isFinite x = true) : |val x| < pow2 (F.emax + 1) := by
  rw [abs_val]; obtain ⟨m, q, -, -, -, h⟩ := representable_absVal x h; exact h

theorem pow2_le_abs_of_multiple {N : Int} {q : Int} {r : ℚ} (h : r = N * pow2 q) (hr : r ≠ 0) : pow2 q ≤ |r| := by
  rw [h, abs_mul, abs_of_pos (pow2_pos q)]
  have : N ≠ 0 := by rintro rfl; simp at h; exact hr h
  have : (1 : ℚ) ≤ |(N : ℚ)| := by exact_mod_cast Int.one_le_abs this
  nlinarith [pow2_pos q]

end Sys2Proof
end

