-- ==== Sys2Proof/Tests/Slice0.lean ====
section
/-! SUPPORT. Tests and witnesses. Every expected value is the spec's: 95_test_vectors.md (derived there by hand and by exact
evaluation of the rules), spec/opcode_table.json, or a word written out field by field from 30_encoding.md R82 to R86. -/

namespace Sys2Proof.Tests

open Sys2Proof Sys2Proof.Machine

set_option Elab.async false

/-! ## Well-formedness: one ill-formed term for each check -/

/-- 0C has no half-select bits (R82, R87): source, second source, destination. -/
theorem test_wf_refuses_0C_half :
    (Instr.fcpy .op0C (.num .sgl) ⟨4, true⟩ ⟨6, false⟩).wf .pa20 = false ∧
    (Instr.fcpy .op0C (.num .sgl) ⟨4, false⟩ ⟨6, true⟩).wf .pa20 = false ∧
    (Instr.fadd .op0C .sgl ⟨4, false⟩ ⟨5, true⟩ ⟨6, false⟩).wf .pa20 = false := by decide

/-- PA11 has no unsigned conversions (R84, R284, R287, R288). -/
theorem test_wf_refuses_pa11_unsigned :
    (Instr.fcnvuf .op0E .sgl .dbl ⟨4, false⟩ ⟨6, false⟩).wf .pa11 = false ∧
    (Instr.fcnvfu .op0E .dbl .sgl ⟨4, false⟩ ⟨6, false⟩).wf .pa11 = false ∧
    (Instr.fcnvfut .op0E .dbl .sgl ⟨4, false⟩ ⟨6, false⟩).wf .pa11 = false ∧
    (Instr.fcnvuf .op0E .sgl .dbl ⟨4, false⟩ ⟨6, false⟩).wf .pa20 = true := by decide

/-- PA11 has no compare with `y ≠ 0` (R311). -/
theorem test_wf_refuses_pa11_compare_field :
    (Instr.fcmp .op0C .dbl ⟨4, false⟩ ⟨5, false⟩ 1 9).wf .pa11 = false ∧
    (Instr.fcmp .op0C .dbl ⟨4, false⟩ ⟨5, false⟩ 1 9).wf .pa20 = true := by decide

/-- The format field of FTEST has one bit in 0E (R83, R311). -/
theorem test_wf_refuses_0E_test_format :
    (Instr.ftest .op0E 2).wf .pa20 = false ∧ (Instr.ftest .op0C 2).wf .pa20 = true := by decide

/-! ## Decoding: one word for each constructor, its fields in the order of R82, R83, R85, R86 -/

/-- The decoder gives `i` for `w`. -/
def decodesTo (v : Variant) (w : Word) (i : Instr) : Bool :=
  match decode v w with
  | .ok j => decide (j = i)
  | .error _ => false

/-- The decoder rejects `w` for the reason `e`. -/
def rejects (v : Variant) (w : Word) (e : Reject) : Bool :=
  match decode v w with
  | .ok _ => false
  | .error e' => decide (e' = e)

/-- Class 0: op, r, 5 ignored (0C) or 5 zero bits, sub, fmt, class, ignored, r1x, tx, ignored, t. -/
theorem test_decode_class0 :
    decodesTo .pa20 0b001110_00100_00000_010_00_00_0_1_1_0_00110#32 (.fcpy .op0E (.num .sgl) ⟨4, true⟩ ⟨6, true⟩) = true ∧
    decodesTo .pa11 0b001100_00100_00000_011_01_00_0000_00110#32
      (.fabs .op0C (.num .dbl) ⟨4, false⟩ ⟨6, false⟩) = true ∧
    decodesTo .pa11 0b001100_01000_00000_100_01_00_0000_01001#32 (.fsqrt .op0C .dbl ⟨8, false⟩ ⟨9, false⟩) = true ∧
    decodesTo .pa20 0b001110_00100_00000_101_00_00_0_0_1_0_00110#32 (.frnd .op0E .sgl ⟨4, false⟩ ⟨6, true⟩) = true ∧
    decodesTo .pa20 0b001100_01000_00000_110_01_00_0000_01010#32
      (.fneg .op0C (.num .dbl) ⟨8, false⟩ ⟨10, false⟩) = true ∧
    decodesTo .pa20 0b001100_00100_00000_111_11_00_0000_00110#32 (.fnegabs .op0C .quad ⟨4, false⟩ ⟨6, false⟩) = true := by
  decide +kernel

/-- Class 1: op, r, ignored, sub (bits 14..16), df, sf, class, ignored, r1x, tx, ignored, t (T-D5, T-D6, T-D18). -/
theorem test_decode_class1 :
    decodesTo .pa20 0b001100_00100_000_000_01_00_01_0000_00110#32
      (.fcnvff .op0C .sglToDbl ⟨4, false⟩ ⟨6, false⟩) = true ∧
    decodesTo .pa20 0b001100_00100_000_001_01_00_01_0000_00101#32
      (.fcnvxf .op0C .sgl .dbl ⟨4, false⟩ ⟨5, false⟩) = true ∧
    decodesTo .pa20 0b001110_00100_000_010_00_01_01_0_0_1_0_00110#32
      (.fcnvfx .op0E .dbl .sgl ⟨4, false⟩ ⟨6, true⟩) = true ∧
    decodesTo .pa20 0b001110_01001_000_011_00_00_01_0_0_1_0_01011#32
      (.fcnvfxt .op0E .sgl .sgl ⟨9, false⟩ ⟨11, true⟩) = true ∧
    decodesTo .pa20 0b001100_00100_000_101_01_00_01_0000_00110#32
      (.fcnvuf .op0C .sgl .dbl ⟨4, false⟩ ⟨6, false⟩) = true ∧
    decodesTo .pa11 0b001100_00100_000_101_01_00_01_0000_00110#32
      (.fcnvxf .op0C .sgl .dbl ⟨4, false⟩ ⟨6, false⟩) = true ∧
    decodesTo .pa20 0b001100_00111_000_110_00_01_01_0000_01011#32
      (.fcnvfu .op0C .dbl .sgl ⟨7, false⟩ ⟨11, false⟩) = true ∧
    decodesTo .pa20 0b001100_00111_000_111_01_00_01_0000_01011#32
      (.fcnvfut .op0C .sgl .dbl ⟨7, false⟩ ⟨11, false⟩) = true := by decide +kernel

/-- Class 2: op, r1, r2, y, (r2x,) f, class, ignored, r1x, ignored, n, c (T-D7, T-D8, T-D26). Under PA11 FTEST is `y = 1`. -/
theorem test_decode_class2 :
    decodesTo .pa20 0b001100_00100_00101_000_01_10_000_0_01001#32
      (.fcmp .op0C .dbl ⟨4, false⟩ ⟨5, false⟩ 0 9) = true ∧
    decodesTo .pa11 0b001110_00100_00101_000_0_0_10_0_1_0_0_00100#32
      (.fcmp .op0E .sgl ⟨4, true⟩ ⟨5, false⟩ 0 4) = true ∧
    decodesTo .pa20 0b001110_00100_00101_011_1_1_10_0_0_0_0_11111#32
      (.fcmp .op0E .dbl ⟨4, false⟩ ⟨5, true⟩ 3 31) = true ∧
    decodesTo .pa20 0b001100_00000_00000_000_00_10_000_1_00000#32 (.ftest .op0C 0) = true ∧
    decodesTo .pa11 0b001110_00000_00000_001_0_1_10_0_0_0_0_00000#32 (.ftest .op0E 1) = true := by decide +kernel

/-- Class 3: op, r1, r2, sub, (r2x,) f, class, x, r1x, tx, ignored, t (T-D1, T-D3, T-D24, T-D28). -/
theorem test_decode_class3 :
    decodesTo .pa20 0b001100_00100_00101_000_01_11_0000_00110#32
      (.fadd .op0C .dbl ⟨4, false⟩ ⟨5, false⟩ ⟨6, false⟩) = true ∧
    decodesTo .pa20 0b001110_00100_00101_001_1_1_11_0_1_1_0_00110#32
      (.fsub .op0E .dbl ⟨4, true⟩ ⟨5, true⟩ ⟨6, true⟩) = true ∧
    decodesTo .pa11 0b001110_00100_00101_010_1_0_11_0_1_1_0_00110#32
      (.fmpy .op0E .sgl ⟨4, true⟩ ⟨5, true⟩ ⟨6, true⟩) = true ∧
    decodesTo .pa11 0b001100_00100_00101_011_00_11_0000_00110#32
      (.fdiv .op0C .sgl ⟨4, false⟩ ⟨5, false⟩ ⟨6, false⟩) = true ∧
    decodesTo .pa11 0b001110_00100_00101_100_0_1_11_0_0_0_0_00110#32
      (.frem .op0E .dbl ⟨4, false⟩ ⟨5, false⟩ ⟨6, false⟩) = true ∧
    decodesTo .pa20 0b001110_00100_00101_010_0_0_11_1_0_1_0_00110#32
      (.xmpyu .sgl ⟨4, false⟩ ⟨5, false⟩ ⟨6, true⟩) = true := by decide +kernel

/-- 06, 26: op, rm1, rm2, ta, ra, f, tm. 2E: op, rm1, rm2, ra (high), rm2x, f, ra (low), rax, rm1x, tx, neg, t. (T-D9 to T-D12,
program 2 step 5.) FID is the whole word (T-D19). -/
theorem test_decode_multi_fused_fid :
    decodesTo .pa20 0b000110_00100_00101_00110_00111_0_01000#32 (.fmpyadd .dbl 4 5 6 7 8) = true ∧
    decodesTo .pa20 0b100110_00000_00001_00010_00011_1_00100#32 (.fmpysub .sgl 0 1 2 3 4) = true ∧
    decodesTo .pa20 0b101110_11000_11000_110_0_0_00_1_0_0_0_11001#32
      (.fmpyfadd .sgl ⟨24, false⟩ ⟨24, false⟩ ⟨24, true⟩ ⟨25, false⟩) = true ∧
    decodesTo .pa20 0b101110_00100_00101_001_0_1_10_0_0_0_1_00111#32
      (.fmpynfadd .dbl ⟨4, false⟩ ⟨5, false⟩ ⟨6, false⟩ ⟨7, false⟩) = true ∧
    decodesTo .pa11 0x30000000#32 .fid = true := by decide +kernel

/-- The rejections by name: T-D13, T-D14, T-D15, T-D17, T-D20, T-D21, T-D27. -/
theorem test_decode_rejects :
    rejects .pa20 0x30802006#32 .subOp = true ∧ rejects .pa11 0x3085A606#32 .subOp = true ∧
    rejects .pa20 0x30851606#32 .format = true ∧ rejects .pa20 0x30822206#32 .subOp = true ∧
    rejects .pa11 0x34000000#32 .majorOpcode = true ∧ rejects .pa20 0x30802A06#32 .sameFormat = true ∧
    rejects .pa11 0x30809806#32 .format = true := by decide +kernel

/-- A row of spec/opcode_table.json: its match word decodes to the row's instruction with every operand field 0, and with
every bit outside its mask set to the same instruction with every operand field all ones. -/
def tableRow (v : Variant) (word mask : Word) (half : Bool) (i : RegSel → Fin 32 → Instr) : Bool :=
  decodesTo v word (i ⟨0, false⟩ 0) && decodesTo v (word ||| ~~~mask) (i ⟨31, half⟩ 31)

/-- Rows of spec/opcode_table.json: FCPY, FABS, FNEG, FNEGABS. -/
theorem test_table_moves : (((tableRow .pa11 0x30004000#32 0xFC00FE00#32 false fun r _ => .fcpy .op0C (.num .sgl) r r) &&
      (tableRow .pa20 0x30004000#32 0xFC00FE00#32 false fun r _ => .fcpy .op0C (.num .sgl) r r) &&
      (tableRow .pa11 0x38004000#32 0xFC00FE00#32 true fun r _ => .fcpy .op0E (.num .sgl) r r) &&
      (tableRow .pa20 0x38004000#32 0xFC00FE00#32 true fun r _ => .fcpy .op0E (.num .sgl) r r) &&
      (tableRow .pa11 0x30004800#32 0xFC00FE00#32 false fun r _ => .fcpy .op0C (.num .dbl) r r) &&
      (tableRow .pa20 0x30004800#32 0xFC00FE00#32 false fun r _ => .fcpy .op0C (.num .dbl) r r) &&
      (tableRow .pa11 0x38004800#32 0xFC00FE00#32 true fun r _ => .fcpy .op0E (.num .dbl) r r) &&
      (tableRow .pa20 0x38004800#32 0xFC00FE00#32 true fun r _ => .fcpy .op0E (.num .dbl) r r) &&
      (tableRow .pa11 0x30006000#32 0xFC00FE00#32 false fun r _ => .fabs .op0C (.num .sgl) r r) &&
      (tableRow .pa20 0x30006000#32 0xFC00FE00#32 false fun r _ => .fabs .op0C (.num .sgl) r r) &&
      (tableRow .pa11 0x38006000#32 0xFC00FE00#32 true fun r _ => .fabs .op0E (.num .sgl) r r) &&
      (tableRow .pa20 0x38006000#32 0xFC00FE00#32 true fun r _ => .fabs .op0E (.num .sgl) r r)) &&
    ((tableRow .pa11 0x30006800#32 0xFC00FE00#32 false fun r _ => .fabs .op0C (.num .dbl) r r) &&
      (tableRow .pa20 0x30006800#32 0xFC00FE00#32 false fun r _ => .fabs .op0C (.num .dbl) r r) &&
      (tableRow .pa11 0x38006800#32 0xFC00FE00#32 true fun r _ => .fabs .op0E (.num .dbl) r r) &&
      (tableRow .pa20 0x38006800#32 0xFC00FE00#32 true fun r _ => .fabs .op0E (.num .dbl) r r) &&
      (tableRow .pa11 0x3000C000#32 0xFC00FE00#32 false fun r _ => .fneg .op0C (.num .sgl) r r) &&
      (tableRow .pa20 0x3000C000#32 0xFC00FE00#32 false fun r _ => .fneg .op0C (.num .sgl) r r) &&
      (tableRow .pa11 0x3800C000#32 0xFC00FE00#32 true fun r _ => .fneg .op0E (.num .sgl) r r) &&
      (tableRow .pa20 0x3800C000#32 0xFC00FE00#32 true fun r _ => .fneg .op0E (.num .sgl) r r) &&
      (tableRow .pa11 0x3000C800#32 0xFC00FE00#32 false fun r _ => .fneg .op0C (.num .dbl) r r) &&
      (tableRow .pa20 0x3000C800#32 0xFC00FE00#32 false fun r _ => .fneg .op0C (.num .dbl) r r) &&
      (tableRow .pa11 0x3800C800#32 0xFC00FE00#32 true fun r _ => .fneg .op0E (.num .dbl) r r) &&
      (tableRow .pa20 0x3800C800#32 0xFC00FE00#32 true fun r _ => .fneg .op0E (.num .dbl) r r)) &&
    ((tableRow .pa11 0x3000E000#32 0xFC00FE00#32 false fun r _ => .fnegabs .op0C (.num .sgl) r r) &&
      (tableRow .pa20 0x3000E000#32 0xFC00FE00#32 false fun r _ => .fnegabs .op0C (.num .sgl) r r) &&
      (tableRow .pa11 0x3800E000#32 0xFC00FE00#32 true fun r _ => .fnegabs .op0E (.num .sgl) r r) &&
      (tableRow .pa20 0x3800E000#32 0xFC00FE00#32 true fun r _ => .fnegabs .op0E (.num .sgl) r r) &&
      (tableRow .pa11 0x3000E800#32 0xFC00FE00#32 false fun r _ => .fnegabs .op0C (.num .dbl) r r) &&
      (tableRow .pa20 0x3000E800#32 0xFC00FE00#32 false fun r _ => .fnegabs .op0C (.num .dbl) r r) &&
      (tableRow .pa11 0x3800E800#32 0xFC00FE00#32 true fun r _ => .fnegabs .op0E (.num .dbl) r r) &&
      (tableRow .pa20 0x3800E800#32 0xFC00FE00#32 true fun r _ => .fnegabs .op0E (.num .dbl) r r))) = true := by decide +kernel

/-- Rows of spec/opcode_table.json: FSQRT, FRND. -/
theorem test_table_class0 : (((tableRow .pa11 0x30008000#32 0xFC00FE00#32 false fun r _ => .fsqrt .op0C .sgl r r) &&
      (tableRow .pa20 0x30008000#32 0xFC00FE00#32 false fun r _ => .fsqrt .op0C .sgl r r) &&
      (tableRow .pa11 0x38008000#32 0xFC00FE00#32 true fun r _ => .fsqrt .op0E .sgl r r) &&
      (tableRow .pa20 0x38008000#32 0xFC00FE00#32 true fun r _ => .fsqrt .op0E .sgl r r) &&
      (tableRow .pa11 0x30008800#32 0xFC00FE00#32 false fun r _ => .fsqrt .op0C .dbl r r) &&
      (tableRow .pa20 0x30008800#32 0xFC00FE00#32 false fun r _ => .fsqrt .op0C .dbl r r) &&
      (tableRow .pa11 0x38008800#32 0xFC00FE00#32 true fun r _ => .fsqrt .op0E .dbl r r) &&
      (tableRow .pa20 0x38008800#32 0xFC00FE00#32 true fun r _ => .fsqrt .op0E .dbl r r) &&
      (tableRow .pa11 0x3000A000#32 0xFC00FE00#32 false fun r _ => .frnd .op0C .sgl r r) &&
      (tableRow .pa20 0x3000A000#32 0xFC00FE00#32 false fun r _ => .frnd .op0C .sgl r r) &&
      (tableRow .pa11 0x3800A000#32 0xFC00FE00#32 true fun r _ => .frnd .op0E .sgl r r) &&
      (tableRow .pa20 0x3800A000#32 0xFC00FE00#32 true fun r _ => .frnd .op0E .sgl r r)) &&
    ((tableRow .pa11 0x3000A800#32 0xFC00FE00#32 false fun r _ => .frnd .op0C .dbl r r) &&
      (tableRow .pa20 0x3000A800#32 0xFC00FE00#32 false fun r _ => .frnd .op0C .dbl r r) &&
      (tableRow .pa11 0x3800A800#32 0xFC00FE00#32 true fun r _ => .frnd .op0E .dbl r r) &&
      (tableRow .pa20 0x3800A800#32 0xFC00FE00#32 true fun r _ => .frnd .op0E .dbl r r))) = true := by decide +kernel

/-- Rows of spec/opcode_table.json: FCNVFF, FCNVXF. -/
theorem test_table_fcnvff_fcnvxf : (((tableRow .pa20 0x30002200#32 0xFC03FE00#32 false fun r _ => .fcnvff .op0C .sglToDbl r r) &&
      (tableRow .pa11 0x30002200#32 0xFC01FE00#32 false fun r _ => .fcnvff .op0C .sglToDbl r r) &&
      (tableRow .pa20 0x38002200#32 0xFC03FE00#32 true fun r _ => .fcnvff .op0E .sglToDbl r r) &&
      (tableRow .pa11 0x38002200#32 0xFC01FE00#32 true fun r _ => .fcnvff .op0E .sglToDbl r r) &&
      (tableRow .pa20 0x30000A00#32 0xFC03FE00#32 false fun r _ => .fcnvff .op0C .dblToSgl r r) &&
      (tableRow .pa11 0x30000A00#32 0xFC01FE00#32 false fun r _ => .fcnvff .op0C .dblToSgl r r) &&
      (tableRow .pa20 0x38000A00#32 0xFC03FE00#32 true fun r _ => .fcnvff .op0E .dblToSgl r r) &&
      (tableRow .pa11 0x38000A00#32 0xFC01FE00#32 true fun r _ => .fcnvff .op0E .dblToSgl r r) &&
      (tableRow .pa20 0x30008200#32 0xFC03FE00#32 false fun r _ => .fcnvxf .op0C .sgl .sgl r r) &&
      (tableRow .pa11 0x30008200#32 0xFC01FE00#32 false fun r _ => .fcnvxf .op0C .sgl .sgl r r) &&
      (tableRow .pa20 0x38008200#32 0xFC03FE00#32 true fun r _ => .fcnvxf .op0E .sgl .sgl r r) &&
      (tableRow .pa11 0x38008200#32 0xFC01FE00#32 true fun r _ => .fcnvxf .op0E .sgl .sgl r r)) &&
    ((tableRow .pa20 0x3000A200#32 0xFC03FE00#32 false fun r _ => .fcnvxf .op0C .sgl .dbl r r) &&
      (tableRow .pa11 0x3000A200#32 0xFC01FE00#32 false fun r _ => .fcnvxf .op0C .sgl .dbl r r) &&
      (tableRow .pa20 0x3800A200#32 0xFC03FE00#32 true fun r _ => .fcnvxf .op0E .sgl .dbl r r) &&
      (tableRow .pa11 0x3800A200#32 0xFC01FE00#32 true fun r _ => .fcnvxf .op0E .sgl .dbl r r) &&
      (tableRow .pa20 0x30008A00#32 0xFC03FE00#32 false fun r _ => .fcnvxf .op0C .dbl .sgl r r) &&
      (tableRow .pa11 0x30008A00#32 0xFC01FE00#32 false fun r _ => .fcnvxf .op0C .dbl .sgl r r) &&
      (tableRow .pa20 0x38008A00#32 0xFC03FE00#32 true fun r _ => .fcnvxf .op0E .dbl .sgl r r) &&
      (tableRow .pa11 0x38008A00#32 0xFC01FE00#32 true fun r _ => .fcnvxf .op0E .dbl .sgl r r) &&
      (tableRow .pa20 0x3000AA00#32 0xFC03FE00#32 false fun r _ => .fcnvxf .op0C .dbl .dbl r r) &&
      (tableRow .pa11 0x3000AA00#32 0xFC01FE00#32 false fun r _ => .fcnvxf .op0C .dbl .dbl r r) &&
      (tableRow .pa20 0x3800AA00#32 0xFC03FE00#32 true fun r _ => .fcnvxf .op0E .dbl .dbl r r) &&
      (tableRow .pa11 0x3800AA00#32 0xFC01FE00#32 true fun r _ => .fcnvxf .op0E .dbl .dbl r r))) = true := by decide +kernel

/-- Rows of spec/opcode_table.json: FCNVFX, FCNVFXT. -/
theorem test_table_fcnvfx_fcnvfxt : (((tableRow .pa20 0x30010200#32 0xFC03FE00#32 false fun r _ => .fcnvfx .op0C .sgl .sgl r r) &&
      (tableRow .pa11 0x30010200#32 0xFC01FE00#32 false fun r _ => .fcnvfx .op0C .sgl .sgl r r) &&
      (tableRow .pa20 0x38010200#32 0xFC03FE00#32 true fun r _ => .fcnvfx .op0E .sgl .sgl r r) &&
      (tableRow .pa11 0x38010200#32 0xFC01FE00#32 true fun r _ => .fcnvfx .op0E .sgl .sgl r r) &&
      (tableRow .pa20 0x30012200#32 0xFC03FE00#32 false fun r _ => .fcnvfx .op0C .sgl .dbl r r) &&
      (tableRow .pa11 0x30012200#32 0xFC01FE00#32 false fun r _ => .fcnvfx .op0C .sgl .dbl r r) &&
      (tableRow .pa20 0x38012200#32 0xFC03FE00#32 true fun r _ => .fcnvfx .op0E .sgl .dbl r r) &&
      (tableRow .pa11 0x38012200#32 0xFC01FE00#32 true fun r _ => .fcnvfx .op0E .sgl .dbl r r) &&
      (tableRow .pa20 0x30010A00#32 0xFC03FE00#32 false fun r _ => .fcnvfx .op0C .dbl .sgl r r) &&
      (tableRow .pa11 0x30010A00#32 0xFC01FE00#32 false fun r _ => .fcnvfx .op0C .dbl .sgl r r) &&
      (tableRow .pa20 0x38010A00#32 0xFC03FE00#32 true fun r _ => .fcnvfx .op0E .dbl .sgl r r) &&
      (tableRow .pa11 0x38010A00#32 0xFC01FE00#32 true fun r _ => .fcnvfx .op0E .dbl .sgl r r)) &&
    ((tableRow .pa20 0x30012A00#32 0xFC03FE00#32 false fun r _ => .fcnvfx .op0C .dbl .dbl r r) &&
      (tableRow .pa11 0x30012A00#32 0xFC01FE00#32 false fun r _ => .fcnvfx .op0C .dbl .dbl r r) &&
      (tableRow .pa20 0x38012A00#32 0xFC03FE00#32 true fun r _ => .fcnvfx .op0E .dbl .dbl r r) &&
      (tableRow .pa11 0x38012A00#32 0xFC01FE00#32 true fun r _ => .fcnvfx .op0E .dbl .dbl r r) &&
      (tableRow .pa20 0x30018200#32 0xFC03FE00#32 false fun r _ => .fcnvfxt .op0C .sgl .sgl r r) &&
      (tableRow .pa11 0x30018200#32 0xFC01FE00#32 false fun r _ => .fcnvfxt .op0C .sgl .sgl r r) &&
      (tableRow .pa20 0x38018200#32 0xFC03FE00#32 true fun r _ => .fcnvfxt .op0E .sgl .sgl r r) &&
      (tableRow .pa11 0x38018200#32 0xFC01FE00#32 true fun r _ => .fcnvfxt .op0E .sgl .sgl r r) &&
      (tableRow .pa20 0x3001A200#32 0xFC03FE00#32 false fun r _ => .fcnvfxt .op0C .sgl .dbl r r) &&
      (tableRow .pa11 0x3001A200#32 0xFC01FE00#32 false fun r _ => .fcnvfxt .op0C .sgl .dbl r r) &&
      (tableRow .pa20 0x3801A200#32 0xFC03FE00#32 true fun r _ => .fcnvfxt .op0E .sgl .dbl r r) &&
      (tableRow .pa11 0x3801A200#32 0xFC01FE00#32 true fun r _ => .fcnvfxt .op0E .sgl .dbl r r)) &&
    ((tableRow .pa20 0x30018A00#32 0xFC03FE00#32 false fun r _ => .fcnvfxt .op0C .dbl .sgl r r) &&
      (tableRow .pa11 0x30018A00#32 0xFC01FE00#32 false fun r _ => .fcnvfxt .op0C .dbl .sgl r r) &&
      (tableRow .pa20 0x38018A00#32 0xFC03FE00#32 true fun r _ => .fcnvfxt .op0E .dbl .sgl r r) &&
      (tableRow .pa11 0x38018A00#32 0xFC01FE00#32 true fun r _ => .fcnvfxt .op0E .dbl .sgl r r) &&
      (tableRow .pa20 0x3001AA00#32 0xFC03FE00#32 false fun r _ => .fcnvfxt .op0C .dbl .dbl r r) &&
      (tableRow .pa11 0x3001AA00#32 0xFC01FE00#32 false fun r _ => .fcnvfxt .op0C .dbl .dbl r r) &&
      (tableRow .pa20 0x3801AA00#32 0xFC03FE00#32 true fun r _ => .fcnvfxt .op0E .dbl .dbl r r) &&
      (tableRow .pa11 0x3801AA00#32 0xFC01FE00#32 true fun r _ => .fcnvfxt .op0E .dbl .dbl r r))) = true := by decide +kernel

/-- Rows of spec/opcode_table.json: FCNVUF, FCNVFU, FCNVFUT. -/
theorem test_table_unsigned : (((tableRow .pa20 0x30028200#32 0xFC03FE00#32 false fun r _ => .fcnvuf .op0C .sgl .sgl r r) &&
      (tableRow .pa20 0x38028200#32 0xFC03FE00#32 true fun r _ => .fcnvuf .op0E .sgl .sgl r r) &&
      (tableRow .pa20 0x3002A200#32 0xFC03FE00#32 false fun r _ => .fcnvuf .op0C .sgl .dbl r r) &&
      (tableRow .pa20 0x3802A200#32 0xFC03FE00#32 true fun r _ => .fcnvuf .op0E .sgl .dbl r r) &&
      (tableRow .pa20 0x30028A00#32 0xFC03FE00#32 false fun r _ => .fcnvuf .op0C .dbl .sgl r r) &&
      (tableRow .pa20 0x38028A00#32 0xFC03FE00#32 true fun r _ => .fcnvuf .op0E .dbl .sgl r r) &&
      (tableRow .pa20 0x3002AA00#32 0xFC03FE00#32 false fun r _ => .fcnvuf .op0C .dbl .dbl r r) &&
      (tableRow .pa20 0x3802AA00#32 0xFC03FE00#32 true fun r _ => .fcnvuf .op0E .dbl .dbl r r) &&
      (tableRow .pa20 0x30030200#32 0xFC03FE00#32 false fun r _ => .fcnvfu .op0C .sgl .sgl r r) &&
      (tableRow .pa20 0x38030200#32 0xFC03FE00#32 true fun r _ => .fcnvfu .op0E .sgl .sgl r r) &&
      (tableRow .pa20 0x30032200#32 0xFC03FE00#32 false fun r _ => .fcnvfu .op0C .sgl .dbl r r) &&
      (tableRow .pa20 0x38032200#32 0xFC03FE00#32 true fun r _ => .fcnvfu .op0E .sgl .dbl r r)) &&
    ((tableRow .pa20 0x30030A00#32 0xFC03FE00#32 false fun r _ => .fcnvfu .op0C .dbl .sgl r r) &&
      (tableRow .pa20 0x38030A00#32 0xFC03FE00#32 true fun r _ => .fcnvfu .op0E .dbl .sgl r r) &&
      (tableRow .pa20 0x30032A00#32 0xFC03FE00#32 false fun r _ => .fcnvfu .op0C .dbl .dbl r r) &&
      (tableRow .pa20 0x38032A00#32 0xFC03FE00#32 true fun r _ => .fcnvfu .op0E .dbl .dbl r r) &&
      (tableRow .pa20 0x30038200#32 0xFC03FE00#32 false fun r _ => .fcnvfut .op0C .sgl .sgl r r) &&
      (tableRow .pa20 0x38038200#32 0xFC03FE00#32 true fun r _ => .fcnvfut .op0E .sgl .sgl r r) &&
      (tableRow .pa20 0x3003A200#32 0xFC03FE00#32 false fun r _ => .fcnvfut .op0C .sgl .dbl r r) &&
      (tableRow .pa20 0x3803A200#32 0xFC03FE00#32 true fun r _ => .fcnvfut .op0E .sgl .dbl r r) &&
      (tableRow .pa20 0x30038A00#32 0xFC03FE00#32 false fun r _ => .fcnvfut .op0C .dbl .sgl r r) &&
      (tableRow .pa20 0x38038A00#32 0xFC03FE00#32 true fun r _ => .fcnvfut .op0E .dbl .sgl r r) &&
      (tableRow .pa20 0x3003AA00#32 0xFC03FE00#32 false fun r _ => .fcnvfut .op0C .dbl .dbl r r) &&
      (tableRow .pa20 0x3803AA00#32 0xFC03FE00#32 true fun r _ => .fcnvfut .op0E .dbl .dbl r r))) = true := by decide +kernel

/-- Rows of spec/opcode_table.json: FCMP, FTEST, FID. -/
theorem test_table_compare : (((tableRow .pa20 0x30000400#32 0xFC00FE20#32 false fun r n => .fcmp .op0C .sgl r r 0 n) &&
      (tableRow .pa11 0x30000400#32 0xFC00FE00#32 false fun r n => .fcmp .op0C .sgl r r 0 n) &&
      (tableRow .pa20 0x38000400#32 0xFC00EE20#32 true fun r n => .fcmp .op0E .sgl r r 0 n) &&
      (tableRow .pa11 0x38000400#32 0xFC00EE00#32 true fun r n => .fcmp .op0E .sgl r r 0 n) &&
      (tableRow .pa20 0x30000C00#32 0xFC00FE20#32 false fun r n => .fcmp .op0C .dbl r r 0 n) &&
      (tableRow .pa11 0x30000C00#32 0xFC00FE00#32 false fun r n => .fcmp .op0C .dbl r r 0 n) &&
      (tableRow .pa20 0x38000C00#32 0xFC00EE20#32 true fun r n => .fcmp .op0E .dbl r r 0 n) &&
      (tableRow .pa11 0x38000C00#32 0xFC00EE00#32 true fun r n => .fcmp .op0E .dbl r r 0 n) &&
      (tableRow .pa11 0x30000000#32 0xFFFFFFFF#32 false fun _ _ => .fid) &&
      (tableRow .pa20 0x30000000#32 0xFFFFFFFF#32 false fun _ _ => .fid) &&
      (tableRow .pa20 0x30000420#32 0xFC001E20#32 false fun _ _ => .ftest .op0C 0) &&
      (tableRow .pa20 0x38000420#32 0xFC000E20#32 true fun _ _ => .ftest .op0E 0))) = true := by decide +kernel

/-- Rows of spec/opcode_table.json: FADD, FSUB, FMPY, FDIV, FREM. -/
theorem test_table_arith : (((tableRow .pa11 0x30000600#32 0xFC00FE00#32 false fun r _ => .fadd .op0C .sgl r r r) &&
      (tableRow .pa20 0x30000600#32 0xFC00FE00#32 false fun r _ => .fadd .op0C .sgl r r r) &&
      (tableRow .pa11 0x38000600#32 0xFC00EE00#32 true fun r _ => .fadd .op0E .sgl r r r) &&
      (tableRow .pa20 0x38000600#32 0xFC00EE00#32 true fun r _ => .fadd .op0E .sgl r r r) &&
      (tableRow .pa11 0x30000E00#32 0xFC00FE00#32 false fun r _ => .fadd .op0C .dbl r r r) &&
      (tableRow .pa20 0x30000E00#32 0xFC00FE00#32 false fun r _ => .fadd .op0C .dbl r r r) &&
      (tableRow .pa11 0x38000E00#32 0xFC00EE00#32 true fun r _ => .fadd .op0E .dbl r r r) &&
      (tableRow .pa20 0x38000E00#32 0xFC00EE00#32 true fun r _ => .fadd .op0E .dbl r r r) &&
      (tableRow .pa11 0x30002600#32 0xFC00FE00#32 false fun r _ => .fsub .op0C .sgl r r r) &&
      (tableRow .pa20 0x30002600#32 0xFC00FE00#32 false fun r _ => .fsub .op0C .sgl r r r) &&
      (tableRow .pa11 0x38002600#32 0xFC00EE00#32 true fun r _ => .fsub .op0E .sgl r r r) &&
      (tableRow .pa20 0x38002600#32 0xFC00EE00#32 true fun r _ => .fsub .op0E .sgl r r r)) &&
    ((tableRow .pa11 0x30002E00#32 0xFC00FE00#32 false fun r _ => .fsub .op0C .dbl r r r) &&
      (tableRow .pa20 0x30002E00#32 0xFC00FE00#32 false fun r _ => .fsub .op0C .dbl r r r) &&
      (tableRow .pa11 0x38002E00#32 0xFC00EE00#32 true fun r _ => .fsub .op0E .dbl r r r) &&
      (tableRow .pa20 0x38002E00#32 0xFC00EE00#32 true fun r _ => .fsub .op0E .dbl r r r) &&
      (tableRow .pa11 0x30004600#32 0xFC00FE00#32 false fun r _ => .fmpy .op0C .sgl r r r) &&
      (tableRow .pa20 0x30004600#32 0xFC00FE00#32 false fun r _ => .fmpy .op0C .sgl r r r) &&
      (tableRow .pa11 0x38004600#32 0xFC00EF00#32 true fun r _ => .fmpy .op0E .sgl r r r) &&
      (tableRow .pa20 0x38004600#32 0xFC00EF00#32 true fun r _ => .fmpy .op0E .sgl r r r) &&
      (tableRow .pa11 0x30004E00#32 0xFC00FE00#32 false fun r _ => .fmpy .op0C .dbl r r r) &&
      (tableRow .pa20 0x30004E00#32 0xFC00FE00#32 false fun r _ => .fmpy .op0C .dbl r r r) &&
      (tableRow .pa11 0x38004E00#32 0xFC00EF00#32 true fun r _ => .fmpy .op0E .dbl r r r) &&
      (tableRow .pa20 0x38004E00#32 0xFC00EF00#32 true fun r _ => .fmpy .op0E .dbl r r r)) &&
    ((tableRow .pa11 0x30006600#32 0xFC00FE00#32 false fun r _ => .fdiv .op0C .sgl r r r) &&
      (tableRow .pa20 0x30006600#32 0xFC00FE00#32 false fun r _ => .fdiv .op0C .sgl r r r) &&
      (tableRow .pa11 0x38006600#32 0xFC00EE00#32 true fun r _ => .fdiv .op0E .sgl r r r) &&
      (tableRow .pa20 0x38006600#32 0xFC00EE00#32 true fun r _ => .fdiv .op0E .sgl r r r) &&
      (tableRow .pa11 0x30006E00#32 0xFC00FE00#32 false fun r _ => .fdiv .op0C .dbl r r r) &&
      (tableRow .pa20 0x30006E00#32 0xFC00FE00#32 false fun r _ => .fdiv .op0C .dbl r r r) &&
      (tableRow .pa11 0x38006E00#32 0xFC00EE00#32 true fun r _ => .fdiv .op0E .dbl r r r) &&
      (tableRow .pa20 0x38006E00#32 0xFC00EE00#32 true fun r _ => .fdiv .op0E .dbl r r r) &&
      (tableRow .pa11 0x30008600#32 0xFC00FE00#32 false fun r _ => .frem .op0C .sgl r r r) &&
      (tableRow .pa20 0x30008600#32 0xFC00FE00#32 false fun r _ => .frem .op0C .sgl r r r) &&
      (tableRow .pa11 0x38008600#32 0xFC00EE00#32 true fun r _ => .frem .op0E .sgl r r r) &&
      (tableRow .pa20 0x38008600#32 0xFC00EE00#32 true fun r _ => .frem .op0E .sgl r r r)) &&
    ((tableRow .pa11 0x30008E00#32 0xFC00FE00#32 false fun r _ => .frem .op0C .dbl r r r) &&
      (tableRow .pa20 0x30008E00#32 0xFC00FE00#32 false fun r _ => .frem .op0C .dbl r r r) &&
      (tableRow .pa11 0x38008E00#32 0xFC00EE00#32 true fun r _ => .frem .op0E .dbl r r r) &&
      (tableRow .pa20 0x38008E00#32 0xFC00EE00#32 true fun r _ => .frem .op0E .dbl r r r))) = true := by decide +kernel

/-- Rows of spec/opcode_table.json: FMPYADD, FMPYSUB, FMPYFADD, FMPYNFADD. -/
theorem test_table_multi_fused : (((tableRow .pa11 0x18000020#32 0xFC000020#32 false fun _ n => .fmpyadd .sgl n n n n n) &&
      (tableRow .pa20 0x18000020#32 0xFC000020#32 false fun _ n => .fmpyadd .sgl n n n n n) &&
      (tableRow .pa11 0x18000000#32 0xFC000020#32 false fun _ n => .fmpyadd .dbl n n n n n) &&
      (tableRow .pa20 0x18000000#32 0xFC000020#32 false fun _ n => .fmpyadd .dbl n n n n n) &&
      (tableRow .pa11 0x98000020#32 0xFC000020#32 false fun _ n => .fmpysub .sgl n n n n n) &&
      (tableRow .pa20 0x98000020#32 0xFC000020#32 false fun _ n => .fmpysub .sgl n n n n n) &&
      (tableRow .pa11 0x98000000#32 0xFC000020#32 false fun _ n => .fmpysub .dbl n n n n n) &&
      (tableRow .pa20 0x98000000#32 0xFC000020#32 false fun _ n => .fmpysub .dbl n n n n n) &&
      (tableRow .pa11 0xB8000000#32 0xFC000820#32 true fun r _ => .fmpyfadd .sgl r r r r) &&
      (tableRow .pa20 0xB8000000#32 0xFC000820#32 true fun r _ => .fmpyfadd .sgl r r r r) &&
      (tableRow .pa11 0xB8000800#32 0xFC000820#32 true fun r _ => .fmpyfadd .dbl r r r r) &&
      (tableRow .pa20 0xB8000800#32 0xFC000820#32 true fun r _ => .fmpyfadd .dbl r r r r)) &&
    ((tableRow .pa11 0xB8000020#32 0xFC000820#32 true fun r _ => .fmpynfadd .sgl r r r r) &&
      (tableRow .pa20 0xB8000020#32 0xFC000820#32 true fun r _ => .fmpynfadd .sgl r r r r) &&
      (tableRow .pa11 0xB8000820#32 0xFC000820#32 true fun r _ => .fmpynfadd .dbl r r r r) &&
      (tableRow .pa20 0xB8000820#32 0xFC000820#32 true fun r _ => .fmpynfadd .dbl r r r r))) = true := by decide +kernel

/-- The row of XMPYU: its format bit is an operand of the row (R229). -/
theorem test_table_xmpyu : (decodesTo .pa20 0x38004700#32 (.xmpyu .sgl ⟨0, false⟩ ⟨0, false⟩ ⟨0, false⟩) &&
    decodesTo .pa11 (0x38004700#32 ||| ~~~0xFC00E700#32) (.xmpyu .dbl ⟨31, true⟩ ⟨31, true⟩ ⟨31, true⟩)) = true := by
  decide +kernel
/-! ## Kernels: the vectors of 95_test_vectors.md section 2 -/

/-- A kernel's result, outcome and status word are these. -/
def gives {F : Fmt} (k : KResult F) (res : Nat) (o : FpOutcome) (st : Nat) : Bool :=
  k.res.toNat == res && k.outcome == o && k.status.toNat == st

/-- The same where the vector says ANY for the result. -/
def givesAny {F : Fmt} (k : KResult F) (o : FpOutcome) (st : Nat) : Bool := k.outcome == o && k.status.toNat == st

/-- The outcome and status word of a compare. -/
def compares (F : Fmt) (st : Nat) (x y : Enc F) (c : Nat) (o : FpOutcome) (st' : Nat) : Bool :=
  let k := kFcmp (BitVec.ofNat 32 st) x y (Fin.ofNat 32 c)
  k.1 == o && k.2.toNat == st'

/-- V-V1 to V-V3 of 95_test_vectors.md, the rows of FCPY. -/
theorem test_fcpy_vectors : (
    gives (KResult.clean 0x0#32 (moveCopy .sgl 0x7FC00001#32)) 0x7FC00001 .none 0x0 &&
    gives (KResult.clean 0x10#32 (moveCopy .dbl 0x3FF0000000000000#64)) 0x3FF0000000000000 .none 0x10 &&
    gives (KResult.clean 0x0#32 (moveCopy .dbl 0x0000000000000000#64)) 0x0 .none 0x0) = true := by decide +kernel

/-- V-V4 to V-V6 of 95_test_vectors.md, the rows of FABS. -/
theorem test_fabs_vectors : (
    gives (KResult.clean 0x0#32 (moveAbs .sgl 0xC0800000#32)) 0x40800000 .none 0x0 &&
    gives (KResult.clean 0x0#32 (moveAbs .sgl 0x80000000#32)) 0x0 .none 0x0 &&
    gives (KResult.clean 0x0#32 (moveAbs .dbl 0xFFF8000000000001#64)) 0x7FF8000000000001 .none 0x0) = true := by decide +kernel

/-- V-V7 to V-V9 of 95_test_vectors.md, the rows of FNEG. -/
theorem test_fneg_vectors : (
    gives (KResult.clean 0x0#32 (moveNeg .dbl 0x3FF0000000000000#64)) 0xBFF0000000000000 .none 0x0 &&
    gives (KResult.clean 0x0#32 (moveNeg .sgl 0x00000000#32)) 0x80000000 .none 0x0 &&
    gives (KResult.clean 0x0#32 (moveNeg .sgl 0x7F800005#32)) 0xFF800005 .none 0x0) = true := by decide +kernel

/-- V-V10 to V-V11 of 95_test_vectors.md, the rows of FNEGABS. -/
theorem test_fnegabs_vectors : (
    gives (KResult.clean 0x0#32 (moveNegAbs .sgl 0x3F800000#32)) 0xBF800000 .none 0x0 &&
    gives (KResult.clean 0x0#32 (moveNegAbs .dbl 0xFFF0000000000000#64)) 0xFFF0000000000000 .none 0x0) = true := by decide +kernel

/-- V-A1 to V-A23 of 95_test_vectors.md, the rows of FADD. -/
theorem test_fadd_vectors : (
    gives (kFadd .dbl 0x0#32 0 0x3FF0000000000000#64 0xBFF0000000000000#64) 0x0 .none 0x0 &&
    gives (kFadd .dbl 0x600#32 0 0x3FF0000000000000#64 0xBFF0000000000000#64) 0x8000000000000000 .none 0x600 &&
    gives (kFadd .sgl 0x0#32 0 0x00000000#32 0x80000000#32) 0x0 .none 0x0 &&
    gives (kFadd .sgl 0x600#32 0 0x00000000#32 0x80000000#32) 0x80000000 .none 0x600 &&
    gives (kFadd .sgl 0x400#32 0 0x80000000#32 0x80000000#32) 0x80000000 .none 0x400 &&
    gives (kFadd .sgl 0x0#32 0 0x3F800000#32 0x33800000#32) 0x3F800000 .none 0x8000000 &&
    gives (kFadd .sgl 0x400#32 0 0x3F800000#32 0x33800000#32) 0x3F800001 .none 0x8000400 &&
    gives (kFadd .sgl 0x0#32 0 0x3F800000#32 0x33C00000#32) 0x3F800001 .none 0x8000000 &&
    gives (kFadd .sgl 0x1#32 0 0x3F800000#32 0x33800000#32) 0x3F800000 .inexact 0x1 &&
    gives (kFadd .sgl 0x0#32 0 0x7F7FFFFF#32 0x7F7FFFFF#32) 0x7F800000 .none 0x28000000 &&
    gives (kFadd .sgl 0x200#32 0 0x7F7FFFFF#32 0x7F7FFFFF#32) 0x7F7FFFFF .none 0x28000200 &&
    gives (kFadd .sgl 0x4#32 0 0x7F7FFFFF#32 0x7F7FFFFF#32) 0x1FFFFFFF .overflow 0x4 &&
    gives (kFadd .sgl 0x0#32 0 0x7F800000#32 0xFF800000#32) 0x7FA00000 .none 0x80000000 &&
    givesAny (kFadd .sgl 0x10#32 0 0x7F800000#32 0xFF800000#32) .invalid 0x10 &&
    gives (kFadd .sgl 0x0#32 0 0x7F800005#32 0x7FC00001#32) 0x7F800001 .none 0x80000000 &&
    gives (kFadd .sgl 0x0#32 0 0x7F800005#32 0x3F800000#32) 0x7F800005 .none 0x0 &&
    gives (kFadd .sgl 0x0#32 0 0x7F800000#32 0x3F800000#32) 0x7F800000 .none 0x0 &&
    gives (kFadd .sgl 0x0#32 0 0x00800000#32 0x80000001#32) 0x7FFFFF .none 0x0 &&
    gives (kFadd .sgl 0x2#32 0 0x00800000#32 0x80000001#32) 0x607FFFFE .underflow 0x2 &&
    gives (kFadd .dbl 0x0#32 0 0x3FB999999999999A#64 0x3FC999999999999A#64) 0x3FD3333333333334 .none 0x8000000) = true := by decide +kernel

/-- V-A6 to V-A24 of 95_test_vectors.md, the rows of FSUB. -/
theorem test_fsub_vectors : (
    gives (kFsub .sgl 0x0#32 0 0x00000000#32 0x00000000#32) 0x0 .none 0x0 &&
    gives (kFsub .sgl 0x600#32 0 0x00000000#32 0x00000000#32) 0x80000000 .none 0x600 &&
    gives (kFsub .sgl 0x0#32 0 0x7F800000#32 0x7F800000#32) 0x7FA00000 .none 0x80000000 &&
    gives (kFsub .dbl 0x0#32 0 0x3FF0000000000000#64 0x3CA0000000000000#64) 0x3FEFFFFFFFFFFFFF .none 0x0) = true := by decide +kernel

/-- V-M1 to V-M20 of 95_test_vectors.md, the rows of FMPY. -/
theorem test_fmpy_vectors : (
    gives (kFmpy .dbl 0x0#32 0 0x7FEFFFFFFFFFFFFF#64 0x4000000000000000#64) 0x7FF0000000000000 .none 0x28000000 &&
    gives (kFmpy .dbl 0x200#32 0 0x7FEFFFFFFFFFFFFF#64 0x4000000000000000#64) 0x7FEFFFFFFFFFFFFF .none 0x28000200 &&
    gives (kFmpy .dbl 0x600#32 0 0x7FEFFFFFFFFFFFFF#64 0x4000000000000000#64) 0x7FEFFFFFFFFFFFFF .none 0x28000600 &&
    gives (kFmpy .dbl 0x400#32 0 0xFFEFFFFFFFFFFFFF#64 0x4000000000000000#64) 0xFFEFFFFFFFFFFFFF .none 0x28000400 &&
    gives (kFmpy .dbl 0x4#32 0 0x7FEFFFFFFFFFFFFF#64 0x4000000000000000#64) 0x1FFFFFFFFFFFFFFF .overflow 0x4 &&
    gives (kFmpy .dbl 0x1#32 0 0x7FEFFFFFFFFFFFFF#64 0x4000000000000000#64) 0x7FF0000000000000 .inexact 0x20000001 &&
    gives (kFmpy .dbl 0x5#32 0 0x7FEFFFFFFFFFFFFF#64 0x3FF8000000000000#64) 0x1FF7FFFFFFFFFFFF .overflowInexact 0x5 &&
    gives (kFmpy .sgl 0x0#32 0 0x7F800000#32 0x80000000#32) 0x7FA00000 .none 0x80000000 &&
    gives (kFmpy .sgl 0x0#32 0 0xFF800000#32 0x40000000#32) 0xFF800000 .none 0x0 &&
    gives (kFmpy .sgl 0x0#32 0 0x80000000#32 0x40A00000#32) 0x80000000 .none 0x0 &&
    gives (kFmpy .sgl 0x0#32 0 0x0D800000#32 0x2B800000#32) 0x200 .none 0x0 &&
    gives (kFmpy .sgl 0x0#32 0 0x1A400000#32 0x1A000000#32) 0x1 .none 0x18000000 &&
    gives (kFmpy .sgl 0x0#32 0 0x0D800000#32 0x26800000#32) 0x0 .none 0x18000000 &&
    gives (kFmpy .sgl 0x400#32 0 0x0D800000#32 0x26800000#32) 0x1 .none 0x18000400 &&
    gives (kFmpy .sgl 0x2#32 0 0x0D800000#32 0x26800000#32) 0x54800000 .underflow 0x2 &&
    gives (kFmpy .sgl 0x2#32 0 0x00000001#32 0x00000001#32) 0xA800000 .underflow 0x2 &&
    gives (kFmpy .sgl 0x0#32 0 0x3F7FFFFF#32 0x00800000#32) 0x800000 .none 0x18000000 &&
    gives (kFmpy .sgl 0x0#32 0 0x3F7FFFFE#32 0x00800001#32) 0x800000 .none 0x8000000 &&
    gives (kFmpy .sgl 0x200#32 0 0x3F7FFFFE#32 0x00800001#32) 0x7FFFFF .none 0x18000200 &&
    gives (kFmpy .sgl 0x0#32 0 0x40400000#32 0x3EAAAAAB#32) 0x3F800000 .none 0x8000000) = true := by decide +kernel

/-- V-D1 to V-D16 of 95_test_vectors.md, the rows of FDIV. -/
theorem test_fdiv_vectors : (
    gives (kFdiv .sgl 0x0#32 0 0x3F800000#32 0x00000000#32) 0x7F800000 .none 0x40000000 &&
    gives (kFdiv .sgl 0x0#32 0 0xBF800000#32 0x00000000#32) 0xFF800000 .none 0x40000000 &&
    gives (kFdiv .sgl 0x0#32 0 0x3F800000#32 0x80000000#32) 0xFF800000 .none 0x40000000 &&
    givesAny (kFdiv .sgl 0x8#32 0 0x3F800000#32 0x00000000#32) .divByZero 0x8 &&
    gives (kFdiv .sgl 0x0#32 0 0x00000000#32 0x00000000#32) 0x7FA00000 .none 0x80000000 &&
    gives (kFdiv .sgl 0x0#32 0 0x7F800000#32 0x7F800000#32) 0x7FA00000 .none 0x80000000 &&
    gives (kFdiv .sgl 0x0#32 0 0x7F800000#32 0x80000000#32) 0xFF800000 .none 0x0 &&
    gives (kFdiv .sgl 0x0#32 0 0xC0A00000#32 0x7F800000#32) 0x80000000 .none 0x0 &&
    gives (kFdiv .sgl 0x0#32 0 0x3F800000#32 0x40400000#32) 0x3EAAAAAB .none 0x8000000 &&
    gives (kFdiv .sgl 0x200#32 0 0x3F800000#32 0x40400000#32) 0x3EAAAAAA .none 0x8000200 &&
    gives (kFdiv .sgl 0x400#32 0 0xBF800000#32 0x40400000#32) 0xBEAAAAAA .none 0x8000400 &&
    gives (kFdiv .dbl 0x0#32 0 0x3FF0000000000000#64 0x4008000000000000#64) 0x3FD5555555555555 .none 0x8000000 &&
    gives (kFdiv .dbl 0x0#32 0 0x4018000000000000#64 0x4008000000000000#64) 0x4000000000000000 .none 0x0 &&
    gives (kFdiv .sgl 0x0#32 0 0x7F7FFFFF#32 0x3F000000#32) 0x7F800000 .none 0x28000000 &&
    gives (kFdiv .sgl 0x4#32 0 0x7F7FFFFF#32 0x00000001#32) 0x69FFFFFF .overflow 0x4 &&
    gives (kFdiv .sgl 0x0#32 0 0x7FC00001#32 0x00000000#32) 0x7F800001 .none 0x80000000) = true := by decide +kernel

/-- V-R1 to V-R12 of 95_test_vectors.md, the rows of FREM. -/
theorem test_frem_vectors : (
    gives (kFrem .dbl 0x0#32 0 0x4014000000000000#64 0x4000000000000000#64) 0x3FF0000000000000 .none 0x0 &&
    gives (kFrem .dbl 0x0#32 0 0x401C000000000000#64 0x4000000000000000#64) 0xBFF0000000000000 .none 0x0 &&
    gives (kFrem .dbl 0x0#32 0 0xC014000000000000#64 0x4000000000000000#64) 0xBFF0000000000000 .none 0x0 &&
    gives (kFrem .dbl 0x600#32 0 0x4010000000000000#64 0x4000000000000000#64) 0x0 .none 0x600 &&
    gives (kFrem .dbl 0x0#32 0 0xC010000000000000#64 0x4000000000000000#64) 0x8000000000000000 .none 0x0 &&
    gives (kFrem .sgl 0x0#32 0 0x3F800000#32 0x7F800000#32) 0x3F800000 .none 0x0 &&
    gives (kFrem .sgl 0x0#32 0 0x7F800000#32 0x3F800000#32) 0x7FA00000 .none 0x80000000 &&
    gives (kFrem .sgl 0x0#32 0 0x3F800000#32 0x00000000#32) 0x7FA00000 .none 0x80000000 &&
    gives (kFrem .sgl 0x0#32 0 0x80000000#32 0x40400000#32) 0x80000000 .none 0x0 &&
    gives (kFrem .sgl 0x0#32 0 0x41200000#32 0x40400000#32) 0x3F800000 .none 0x0 &&
    gives (kFrem .sgl 0x0#32 0 0x41300000#32 0x40400000#32) 0xBF800000 .none 0x0 &&
    gives (kFrem .sgl 0x2#32 0 0x00800001#32 0x00800000#32) 0x55000000 .underflow 0x2) = true := by decide +kernel

/-- V-Q1 to V-Q11 of 95_test_vectors.md, the rows of FSQRT. -/
theorem test_fsqrt_vectors : (
    gives (kFsqrt .sgl 0x0#32 0 0xC0800000#32) 0x7FA00000 .none 0x80000000 &&
    givesAny (kFsqrt .sgl 0x10#32 0 0xC0800000#32) .invalid 0x10 &&
    gives (kFsqrt .sgl 0x0#32 0 0x80000000#32) 0x80000000 .none 0x0 &&
    gives (kFsqrt .sgl 0x0#32 0 0x7F800000#32) 0x7F800000 .none 0x0 &&
    gives (kFsqrt .sgl 0x0#32 0 0xFF800000#32) 0x7FA00000 .none 0x80000000 &&
    gives (kFsqrt .sgl 0x0#32 0 0x40800000#32) 0x40000000 .none 0x0 &&
    gives (kFsqrt .sgl 0x0#32 0 0x40000000#32) 0x3FB504F3 .none 0x8000000 &&
    gives (kFsqrt .sgl 0x400#32 0 0x40000000#32) 0x3FB504F4 .none 0x8000400 &&
    gives (kFsqrt .dbl 0x0#32 0 0x4000000000000000#64) 0x3FF6A09E667F3BCD .none 0x8000000 &&
    gives (kFsqrt .sgl 0x0#32 0 0x00000002#32) 0x1A800000 .none 0x0 &&
    gives (kFsqrt .sgl 0x0#32 0 0xFF800005#32) 0xFF800005 .none 0x0) = true := by decide +kernel

/-- V-N1 to V-N9 of 95_test_vectors.md, the rows of FRND. -/
theorem test_frnd_vectors : (
    gives (kFrnd .sgl 0x0#32 0 0x40200000#32) 0x40000000 .none 0x8000000 &&
    gives (kFrnd .sgl 0x0#32 0 0x3FC00000#32) 0x40000000 .none 0x8000000 &&
    gives (kFrnd .sgl 0x0#32 0 0x3F000000#32) 0x0 .none 0x8000000 &&
    gives (kFrnd .sgl 0x0#32 0 0xBE99999A#32) 0x80000000 .none 0x8000000 &&
    gives (kFrnd .sgl 0x600#32 0 0xBE99999A#32) 0xBF800000 .none 0x8000600 &&
    gives (kFrnd .sgl 0x400#32 0 0x3E99999A#32) 0x3F800000 .none 0x8000400 &&
    gives (kFrnd .dbl 0x200#32 0 0xC00599999999999A#64) 0xC000000000000000 .none 0x8000200 &&
    gives (kFrnd .dbl 0x0#32 0 0x4330000000000001#64) 0x4330000000000001 .none 0x0 &&
    gives (kFrnd .sgl 0x1#32 0 0x40200000#32) 0x40000000 .inexact 0x1) = true := by decide +kernel

/-- V-F1 to V-F13 of 95_test_vectors.md, the rows of FMPYFADD. -/
theorem test_fmpyfadd_vectors : (
    gives (kFma .sgl false 0x0#32 0 0x3F800800#32 0x3F800800#32 0xBF800000#32) 0x3A000400 .none 0x0 &&
    gives (kFma .sgl false 0x0#32 0 0x7F800000#32 0x00000000#32 0x7F800005#32) 0x7F800005 .none 0x0 &&
    gives (kFma .sgl false 0x0#32 0 0x7F800000#32 0x00000000#32 0x3F800000#32) 0x7FA00000 .none 0x80000000 &&
    gives (kFma .sgl false 0x0#32 0 0x7F800000#32 0x40000000#32 0xFF800000#32) 0x7FA00000 .none 0x80000000 &&
    gives (kFma .sgl false 0x0#32 0 0x40400000#32 0x40000000#32 0xC0C00000#32) 0x0 .none 0x0 &&
    gives (kFma .sgl false 0x600#32 0 0x40400000#32 0x40000000#32 0xC0C00000#32) 0x80000000 .none 0x600 &&
    gives (kFma .sgl false 0x0#32 0 0x00000000#32 0x40A00000#32 0x80000000#32) 0x0 .none 0x0 &&
    gives (kFma .sgl false 0x4#32 0 0x7F7FFFFF#32 0x40000000#32 0xFF7FFFFF#32) 0x7F7FFFFF .none 0x4 &&
    gives (kFma .sgl false 0x0#32 0 0x7F7FFFFF#32 0x7F7FFFFF#32 0x3F800000#32) 0x7F800000 .none 0x28000000) = true := by decide +kernel

/-- V-F3 to V-F14 of 95_test_vectors.md, the rows of FMPYNFADD. -/
theorem test_fmpynfadd_vectors : (
    gives (kFma .dbl true 0x0#32 0 0x4000000000000000#64 0x4008000000000000#64 0x4024000000000000#64) 0x4010000000000000 .none 0x0 &&
    gives (kFma .sgl true 0x0#32 0 0x7F800000#32 0x40000000#32 0xFF800000#32) 0xFF800000 .none 0x0 &&
    gives (kFma .sgl true 0x0#32 0 0x00000000#32 0x40A00000#32 0x80000000#32) 0x80000000 .none 0x0 &&
    gives (kFma .sgl true 0x0#32 0 0xFFC00001#32 0x3F800000#32 0x3F800000#32) 0xFF800001 .none 0x80000000) = true := by decide +kernel

/-- V-C1 to V-C16 of 95_test_vectors.md, the rows of FCNVFF. -/
theorem test_fcnvff_vectors : (
    gives (kCnvSD 0x0#32 0 0x3F800000#32) 0x3FF0000000000000 .none 0x0 &&
    gives (kCnvSD 0x0#32 0 0x00000001#32) 0x36A0000000000000 .none 0x0 &&
    gives (kCnvSD 0x0#32 0 0x7FC00001#32) 0x7FF0000020000000 .none 0x80000000 &&
    gives (kCnvSD 0x0#32 0 0xFF800005#32) 0xFFF00000A0000000 .none 0x0 &&
    givesAny (kCnvSD 0x0#32 0 0x7FC00000#32) .none 0x80000000 &&
    gives (kCnvDS 0x0#32 0 0 0x3FF0000000000000#64) 0x3F800000 .none 0x0 &&
    gives (kCnvDS 0x0#32 0 0 0x7FEFFFFFFFFFFFFF#64) 0x7F800000 .none 0x28000000 &&
    givesAny (kCnvDS 0x4#32 0 0 0x7FEFFFFFFFFFFFFF#64) .overflow 0x8000004 &&
    gives (kCnvDS 0x0#32 0 0 0x3730000000000000#64) 0x200 .none 0x0 &&
    gives (kCnvDS 0x0#32 0 0 0x3FF0000010000000#64) 0x3F800000 .none 0x8000000 &&
    gives (kCnvDS 0x400#32 0 0 0x3FF0000010000000#64) 0x3F800001 .none 0x8000400 &&
    gives (kCnvDS 0x0#32 0 0 0x3FB999999999999A#64) 0x3DCCCCCD .none 0x8000000 &&
    gives (kCnvDS 0x0#32 0 0 0x7FF0000020000000#64) 0x7F800001 .none 0x0 &&
    givesAny (kCnvDS 0x0#32 0 0 0x7FF0000000000001#64) .none 0x0 &&
    gives (kCnvDS 0x2#32 0 0 0x3730000000000000#64) 0x59800000 .underflow 0x2 &&
    gives (kCnvDS 0x0#32 0 0 0x3698000000000000#64) 0x1 .none 0x18000000) = true := by decide +kernel

/-- V-C17 to V-C24 of 95_test_vectors.md, the rows of FCNVXF. -/
theorem test_fcnvxf_vectors : (
    gives (kCnvXF .sgl .sgl true 0x0#32 0 0x80000000#32) 0xCF000000 .none 0x0 &&
    gives (kCnvXF .sgl .sgl true 0x0#32 0 0x7FFFFFFF#32) 0x4F000000 .none 0x8000000 &&
    gives (kCnvXF .sgl .sgl true 0x200#32 0 0x7FFFFFFF#32) 0x4EFFFFFF .none 0x8000200 &&
    gives (kCnvXF .sgl .dbl true 0x0#32 0 0x00000003#32) 0x4008000000000000 .none 0x0 &&
    gives (kCnvXF .sgl .dbl true 0x0#32 0 0xFFFFFFFF#32) 0xBFF0000000000000 .none 0x0 &&
    gives (kCnvXF .sgl .sgl true 0x0#32 0 0x00000000#32) 0x0 .none 0x0 &&
    gives (kCnvXF .dbl .dbl true 0x0#32 0 0x7FFFFFFFFFFFFFFF#64) 0x43E0000000000000 .none 0x8000000 &&
    gives (kCnvXF .dbl .sgl true 0x0#32 0 0x0000000001000001#64) 0x4B800000 .none 0x8000000) = true := by decide +kernel

/-- V-C25 to V-C28 of 95_test_vectors.md, the rows of FCNVUF. -/
theorem test_fcnvuf_vectors : (
    gives (kCnvXF .sgl .sgl false 0x0#32 0 0xFFFFFFFF#32) 0x4F800000 .none 0x8000000 &&
    gives (kCnvXF .sgl .dbl false 0x0#32 0 0xFFFFFFFF#32) 0x41EFFFFFFFE00000 .none 0x0 &&
    gives (kCnvXF .sgl .sgl false 0x0#32 0 0x80000000#32) 0x4F000000 .none 0x0 &&
    gives (kCnvXF .dbl .dbl false 0x0#32 0 0xFFFFFFFFFFFFFFFF#64) 0x43F0000000000000 .none 0x8000000) = true := by decide +kernel

/-- V-C29 to V-C54 of 95_test_vectors.md, the rows of FCNVFX. -/
theorem test_fcnvfx_vectors : (
    gives (kCnvFX .dbl .sgl true (rmOf 0x0#32) 0x0#32 0 0x4004000000000000#64) 0x2 .none 0x8000000 &&
    gives (kCnvFX .dbl .sgl true (rmOf 0x0#32) 0x0#32 0 0x41DFFFFFFFE00000#64) 0x7FFFFFFF .none 0x80000000 &&
    gives (kCnvFX .dbl .sgl true (rmOf 0x200#32) 0x200#32 0 0x41DFFFFFFFE00000#64) 0x7FFFFFFF .none 0x8000200 &&
    gives (kCnvFX .dbl .sgl true (rmOf 0x0#32) 0x0#32 0 0xC1E0000000100000#64) 0x80000000 .none 0x8000000 &&
    gives (kCnvFX .dbl .sgl true (rmOf 0x0#32) 0x0#32 0 0xBFE0000000000000#64) 0x0 .none 0x8000000 &&
    gives (kCnvFX .sgl .sgl true (rmOf 0x400#32) 0x400#32 0 0x00000001#32) 0x1 .none 0x8000400 &&
    gives (kCnvFX .sgl .sgl true (rmOf 0x600#32) 0x600#32 0 0x80000001#32) 0xFFFFFFFF .none 0x8000600 &&
    gives (kCnvFX .sgl .sgl true (rmOf 0x0#32) 0x0#32 0 0x7F800005#32) 0x7FFFFFFF .none 0x80000000 &&
    gives (kCnvFX .sgl .sgl true (rmOf 0x0#32) 0x0#32 0 0xFF800000#32) 0x80000000 .none 0x80000000 &&
    gives (kCnvFX .sgl .dbl true (rmOf 0x0#32) 0x0#32 0 0x7F800000#32) 0x7FFFFFFFFFFFFFFF .none 0x80000000 &&
    givesAny (kCnvFX .sgl .sgl true (rmOf 0x10#32) 0x10#32 0 0x7F800000#32) .invalid 0x10 &&
    gives (kCnvFX .dbl .dbl true (rmOf 0x0#32) 0x0#32 0 0xC3E0000000000000#64) 0x8000000000000000 .none 0x0 &&
    gives (kCnvFX .dbl .dbl true (rmOf 0x0#32) 0x0#32 0 0x43E0000000000000#64) 0x7FFFFFFFFFFFFFFF .none 0x80000000 &&
    gives (kCnvFX .sgl .sgl true (rmOf 0x0#32) 0x0#32 0 0x80000000#32) 0x0 .none 0x0 &&
    gives (kCnvFX .sgl .sgl true (rmOf 0x1#32) 0x1#32 0 0x3FC00000#32) 0x2 .inexact 0x1) = true := by decide +kernel

/-- V-C43 to V-C45 of 95_test_vectors.md, the rows of FCNVFXT. -/
theorem test_fcnvfxt_vectors : (
    gives (kCnvFX .sgl .sgl true .rz 0x400#32 0 0xC02CCCCD#32) 0xFFFFFFFE .none 0x8000400 &&
    gives (kCnvFX .dbl .sgl true .rz 0x0#32 0 0x41DFFFFFFFF9999A#64) 0x7FFFFFFF .none 0x8000000 &&
    gives (kCnvFX .dbl .sgl true .rz 0x0#32 0 0x41E0000000000000#64) 0x7FFFFFFF .none 0x80000000) = true := by decide +kernel

/-- V-C46 to V-C51 of 95_test_vectors.md, the rows of FCNVFU. -/
theorem test_fcnvfu_vectors : (
    gives (kCnvFX .dbl .sgl false (rmOf 0x0#32) 0x0#32 0 0x41EFFFFFFFE00000#64) 0xFFFFFFFF .none 0x0 &&
    gives (kCnvFX .dbl .sgl false (rmOf 0x0#32) 0x0#32 0 0xBFD3333333333333#64) 0x0 .none 0x8000000 &&
    gives (kCnvFX .dbl .sgl false (rmOf 0x0#32) 0x0#32 0 0xBFE6666666666666#64) 0x0 .none 0x80000000 &&
    gives (kCnvFX .sgl .sgl false (rmOf 0x0#32) 0x0#32 0 0xFF800000#32) 0x0 .none 0x80000000 &&
    gives (kCnvFX .sgl .dbl false (rmOf 0x0#32) 0x0#32 0 0x7F800005#32) 0xFFFFFFFFFFFFFFFF .none 0x80000000 &&
    gives (kCnvFX .dbl .sgl false (rmOf 0x0#32) 0x0#32 0 0x41F0000000000000#64) 0xFFFFFFFF .none 0x80000000) = true := by decide +kernel

/-- V-C52 to V-C53 of 95_test_vectors.md, the rows of FCNVFUT. -/
theorem test_fcnvfut_vectors : (
    gives (kCnvFX .sgl .sgl false .rz 0x0#32 0 0xBF666666#32) 0x0 .none 0x8000000 &&
    gives (kCnvFX .sgl .sgl false .rz 0x0#32 0 0x407F5C29#32) 0x3 .none 0x8000000) = true := by decide +kernel

/-- V-K1 to V-K19 of 95_test_vectors.md, the rows of FCMP. -/
theorem test_fcmp_vectors : (
    compares .sgl 0x0 0x3F800000#32 0x40000000#32 9 .none 0x4000000 &&
    compares .sgl 0x0 0x3F800000#32 0x7F800005#32 9 .none 0x80000000 &&
    compares .sgl 0x10 0x3F800000#32 0x7F800005#32 9 .invalid 0x10 &&
    compares .sgl 0x0 0x3F800000#32 0x7F800005#32 8 .none 0x0 &&
    compares .sgl 0x0 0x3F800000#32 0x7F800005#32 10 .none 0x4000000 &&
    compares .sgl 0x0 0x3F800000#32 0x7FC00001#32 10 .none 0x84000000 &&
    compares .sgl 0x10 0x3F800000#32 0x7FC00001#32 10 .invalid 0x4000010 &&
    compares .sgl 0x0 0x00000000#32 0x80000000#32 4 .none 0x4000000 &&
    compares .sgl 0x0 0x7F800005#32 0x7F800005#32 4 .none 0x0 &&
    compares .sgl 0x0 0x7F800005#32 0x7F800005#32 2 .none 0x4000000 &&
    compares .dbl 0x0 0x4000000000000000#64 0x3FF0000000000000#64 17 .none 0x4000000 &&
    compares .dbl 0x0 0x4000000000000000#64 0x3FF0000000000000#64 13 .none 0x0 &&
    compares .dbl 0x0 0xFFF0000000000000#64 0xFFE1CCF385EBC8A0#64 9 .none 0x4000000 &&
    compares .sgl 0x0 0x3F800000#32 0x3F800000#32 0 .none 0x0 &&
    compares .sgl 0x0 0x7F800005#32 0x3F800000#32 31 .none 0x84000000 &&
    compares .sgl 0x0 0x3F800000#32 0x3F800000#32 30 .none 0x4000000 &&
    compares .sgl 0x4000000 0x3F800000#32 0x40000000#32 16 .none 0x0 &&
    compares .sgl 0x0 0x00000001#32 0x80000001#32 21 .none 0x4000000 &&
    compares .sgl 0x0 0x3F800000#32 0x40000000#32 21 .none 0x0) = true := by decide +kernel
/-! ## One step: the whole register file after it -/

/-- Words written into a state. -/
def sets (s : State) (ws : List (Nat × Nat)) : State :=
  ws.foldl (fun s w => s.setWord (Fin.ofNat 64 w.1) (BitVec.ofNat 32 w.2)) s

/-- A start state: variant, status word, and the words that are not zero. -/
def start (v : Variant) (st : Nat) (ws : List (Nat × Nat)) : State :=
  sets ({ State.reset with variant := v }.setStatus (BitVec.ofNat 32 st)) ws

/-- The call answers a state with this returned value, this status word, and every other word as in `s` but `ws`. -/
def endsWith (r : Result) (s : State) (o : Returned) (st : Nat) (ws : List (Nat × Nat)) : Bool :=
  match r with
  | .next t => decide (t.returned = o ∧ t.fr = (sets (s.setStatus (BitVec.ofNat 32 st)) ws).fr)
  | .fault _ => false
  | .refused _ => false

/-- One step with word `iw` as the next instruction. -/
def runs (s : State) (iw : Nat) (o : FpOutcome) (st : Nat) (ws : List (Nat × Nat)) : Bool :=
  endsWith (step (s.withFetchWord 32 iw)) s (.outcome o) st ws

/-- One step refuses. -/
def stops (r : Result) (why : Refusal) : Bool :=
  match r with
  | .refused x => decide (x = why)
  | .next _ => false
  | .fault _ => false

/-- FCPY,SGL fr4R,fr6R (0E): a sNaN moves unchanged (V-V1). -/
theorem test_step_fcpy : runs (start .pa20 0 [(9, 0x7FC00001)]) 0x388040C6 .none 0 [(13, 0x7FC00001)] = true := by
  decide +kernel

/-- FABS,DBL fr4,fr6 (V-V6). -/
theorem test_step_fabs : runs (start .pa20 0 [(8, 0xFFF80000), (9, 1)]) 0x30806806 .none 0
    [(12, 0x7FF80000), (13, 1)] = true := by decide +kernel

/-- FNEG,DBL fr8,fr10 (program 1 step 6). -/
theorem test_step_fneg : runs (start .pa11 0x0C000000 []) 0x3100C80A .none 0x0C000000 [(20, 0x80000000)] = true := by
  decide +kernel

/-- FNEGABS,SGL fr4L,fr6L (V-V10). -/
theorem test_step_fnegabs : runs (start .pa20 0 [(8, 0x3F800000)]) 0x3080E006 .none 0 [(12, 0xBF800000)] = true := by
  decide +kernel

/-- FADD,DBL fr4,fr5,fr6 (T-D1, T-E2). -/
theorem test_step_fadd : runs (start .pa20 0 [(8, 0x3FF00000), (10, 0x40000000)]) 0x30850E06 .none 0
    [(12, 0x40080000)] = true := by decide +kernel

/-- FSUB,DBL with all half bits 1 (T-D28, V-A24). -/
theorem test_step_fsub : runs (start .pa20 0 [(8, 0x3FF00000), (10, 0x3CA00000)]) 0x38853EC6 .none 0
    [(12, 0x3FEFFFFF), (13, 0xFFFFFFFF)] = true := by decide +kernel

/-- FMPY,SGL fr4R,fr5R,fr6R (T-D3, V-M9). -/
theorem test_step_fmpy : runs (start .pa20 0 [(9, 0xFF800000), (11, 0x40000000)]) 0x388556C6 .none 0
    [(13, 0xFF800000)] = true := by decide +kernel

/-- FDIV,DBL fr4,fr5,fr6 (program 1 step 1). -/
theorem test_step_fdiv : runs (start .pa20 0 [(8, 0x3FF00000), (10, 0x40080000)]) 0x30856E06 .none 0x08000000
    [(12, 0x3FD55555), (13, 0x55555555)] = true := by decide +kernel

/-- FREM,SGL fr4L,fr5L,fr6L (V-R11). -/
theorem test_step_frem : runs (start .pa20 0 [(8, 0x41300000), (10, 0x40400000)]) 0x30858606 .none 0
    [(12, 0xBF800000)] = true := by decide +kernel

/-- FSQRT,DBL fr8,fr9 (T-D4, V-Q9). -/
theorem test_step_fsqrt : runs (start .pa20 0 [(16, 0x40000000)]) 0x31008809 .none 0x08000000
    [(18, 0x3FF6A09E), (19, 0x667F3BCD)] = true := by decide +kernel

/-- FRND,DBL fr4,fr6 (V-N7). -/
theorem test_step_frnd : runs (start .pa20 0x200 [(8, 0xC0059999), (9, 0x9999999A)]) 0x3080A806 .none 0x08000200
    [(12, 0xC0000000)] = true := by decide +kernel

/-- FCNVFF,DBL,SGL fr7,fr9L (program 3 step 4). -/
theorem test_step_fcnvff : runs (start .pa20 0x08000200 [(14, 0xC00C0000)]) 0x30E00A09 .none 0x08000200
    [(18, 0xC0600000)] = true := by decide +kernel

/-- FCNVXF,SGL,DBL fr4L,fr5 (program 3 step 1). -/
theorem test_step_fcnvxf : runs (start .pa20 0x200 [(8, 0xFFFFFFF9)]) 0x3080A205 .none 0x200 [(10, 0xC01C0000)] = true := by
  decide +kernel

/-- FCNVFX,DBL,SGL fr7,fr8L (program 3 step 3). -/
theorem test_step_fcnvfx : runs (start .pa20 0x200 [(14, 0xC00C0000)]) 0x30E10A08 .none 0x08000200
    [(16, 0xFFFFFFFD)] = true := by decide +kernel

/-- FCNVFXT,SGL,SGL fr9L,fr11R (program 3 step 7). -/
theorem test_step_fcnvfxt : runs (start .pa20 0x88000200 [(18, 0xC0600000)]) 0x3921824B .none 0x88000200
    [(23, 0xFFFFFFFD)] = true := by decide +kernel

/-- FCNVUF,SGL,DBL fr4L,fr6 under PA20; under PA11 the same word is the signed FCNVXF (T-D18). -/
theorem test_step_fcnvuf :
    runs (start .pa20 0 [(8, 0xFFFFFFFF)]) 0x3082A206 .none 0 [(12, 0x41EFFFFF), (13, 0xFFE00000)] = true ∧
    runs (start .pa11 0 [(8, 0xFFFFFFFF)]) 0x3082A206 .none 0 [(12, 0xBFF00000)] = true := by decide +kernel

/-- FCNVFU,DBL,SGL fr7,fr11L (program 3 step 6). -/
theorem test_step_fcnvfu : runs (start .pa20 0x08000200 [(14, 0xC00C0000)]) 0x30E30A0B .none 0x88000200 [(22, 0)] = true := by
  decide +kernel

/-- FCNVFUT,DBL,SGL fr7,fr11L of 3.5: 3, inexact (R288). -/
theorem test_step_fcnvfut : runs (start .pa20 0 [(14, 0x400C0000)]) 0x30E38A0B .none 0x08000000 [(22, 3)] = true := by
  decide +kernel

/-- FCMP,DBL,= fr7,fr4 under PA11 (program 1 step 3). -/
theorem test_step_fcmp : runs (start .pa11 0x08000000 [(8, 0x3FF00000), (14, 0x3FF00000)]) 0x30E40C04 .none 0x0C000000
    [] = true := by decide +kernel

/-- FTEST: refused in the single-format encoding, UNIMPLEMENTED in the others (T-D26, R315). -/
theorem test_step_ftest : stops (step ((start .pa20 0 []).withFetchWord 32 0x30000420)) .ftest = true ∧
    runs (start .pa20 0 []) 0x30000C20 .unimplemented 0 [] = true := by decide +kernel

/-- XMPYU: an odd destination is UNIMPLEMENTED (T-D24), an even one refused (R229). -/
theorem test_step_xmpyu : runs (start .pa20 0 []) 0x38854746 .unimplemented 0 [] = true ∧
    stops (step ((start .pa20 0 []).withFetchWord 32 0x38854706)) .xmpyu = true := by decide +kernel

/-- FMPYADD,SGL (program 2 step 1) and FMPYADD,DBL V-P5, V-P6. -/
theorem test_step_fmpyadd :
    runs (start .pa20 0 [(32, 0x3FC00000), (34, 0x40800000), (36, 0x41200000), (38, 0x3E800000)]) 0x180110E4 .none 0
      [(40, 0x40C00000), (36, 0x41240000)] = true ∧
    runs (start .pa20 0 [(8, 0x40000000), (10, 0x40080000), (12, 0x7FF00000), (14, 0xFFF00000)]) 0x188531C8 .none
      0x80000000 [(16, 0x40180000), (12, 0x7FF40000)] = true ∧
    runs (start .pa20 0x10 [(8, 0x40000000), (10, 0x40080000), (12, 0x7FF00000), (14, 0xFFF00000)]) 0x188531C8
      .unimplemented 0x10 [] = true := by decide +kernel

/-- FMPYSUB,SGL (T-D10, program 2) and FMPYSUB,DBL V-P7. -/
theorem test_step_fmpysub :
    runs (start .pa20 0 [(32, 0x3FC00000), (34, 0x40800000), (36, 0x41200000), (38, 0x3E800000)]) 0x980110E4 .none 0
      [(40, 0x40C00000), (36, 0x411C0000)] = true ∧
    runs (start .pa20 0 [(8, 0x40000000), (10, 0x40080000), (12, 0x7FF00000), (14, 0x7FF00000)]) 0x988531C8 .none
      0x80000000 [(16, 0x40180000), (12, 0x7FF40000)] = true := by decide +kernel

/-- FMPYFADD,SGL fr24L,fr24L,fr24R,fr25L: the triple of R260 (program 2 step 5). -/
theorem test_step_fmpyfadd : runs (start .pa20 0x04000000 [(48, 0x3F800800), (49, 0xBF800000)]) 0xBB18C119 .none 0x04000000
    [(50, 0x3A000400)] = true := by decide +kernel

/-- FMPYNFADD,SGL fr20L,fr17L,fr18L,fr22L (program 2 step 3). -/
theorem test_step_fmpynfadd : runs (start .pa20 0 [(40, 0x40C00000), (34, 0x40800000), (36, 0x41240000)]) 0xBA918436 .none 0
    [(44, 0xC15C0000)] = true := by decide +kernel

/-- FID (T-D19). -/
theorem test_step_fid : stops (step ((start .pa20 0 []).withFetchWord 32 0x30000000)) .fid = true := by decide +kernel

/-- Words that complete with UNIMPLEMENTED (T-D13, T-D16, T-D20) and words refused (T-D22, T-D23, T-D25, and a PA20 compare
with `y ≠ 0`, R316). -/
theorem test_step_unimplemented_and_refused :
    runs (start .pa20 0x40 []) 0x30802006 .unimplemented 0x40 [] = true ∧
    runs (start .pa20 0 []) 0x30850E00 .unimplemented 0 [] = true ∧
    runs (start .pa11 0 []) 0x34000000 .unimplemented 0 [] = true ∧
    stops (step ((start .pa20 0 []).withFetchWord 32 0x30805806)) .quadMove = true ∧
    stops (step ((start .pa20 0 []).withFetchWord 32 0x30804801)) .queueDestination = true ∧
    stops (step ((start .pa20 0 []).withFetchWord 32 0x18853008)) .multiRaZero = true ∧
    stops (step ((start .pa20 0 []).withFetchWord 32 0x30852C09)) .compareQueueForm = true := by decide +kernel

/-- The assembler text of R102, from the decode vectors T-D3, T-D5 and T-D7. -/
theorem test_assembler :
    (Instr.fmpy .op0E .sgl ⟨4, true⟩ ⟨5, true⟩ ⟨6, true⟩).asm = "FMPY,SGL %fr4R,%fr5R,%fr6R" ∧
    (Instr.fcnvff .op0C .sglToDbl ⟨4, false⟩ ⟨6, false⟩).asm = "FCNVFF,SGL,DBL %fr4,%fr6" ∧
    (Instr.fcmp .op0C .dbl ⟨4, false⟩ ⟨5, false⟩ 0 9).asm = "FCMP,DBL,< %fr4,%fr5" := by decide +kernel

/-- The bit-field primitives of R11. -/
theorem test_bit_fields :
    extract 21 2 0x00000600#32 = 3 ∧ signedExtract 0 4 0x90000000#32 = 0xFFFFFFF9#32 ∧
    mask 27 5 0xFFFFFFFF#32 = 0x1F#32 ∧ deposit 3 21 2 0#32 = 0x600#32 := by decide

/-! ## The exception queue: T-E1 to T-E15 and program 4 -/

/-- The major opcodes that have instructions, in the order used by the test codec. -/
def majors : List (BitVec 6) := [0x0C, 0x0E, 0x06, 0x26, 0x2E]

/-- The type of outcome number `o` under major number `m`. -/
def testType (m o : Nat) : ExcType :=
  match o, m with
  | 0, _ => .none
  | 1, 4 => .fma .invalid
  | 1, _ => .invalid
  | 2, _ => .divByZero
  | 3, 4 => .fma .overflow
  | 3, _ => .overflow
  | 4, 4 => .fma .underflow
  | 4, _ => .underflow
  | 5, 4 => .fma .inexact
  | 5, _ => .inexact
  | 6, 4 => .fma .overflowInexact
  | 6, _ => .overflowInexact
  | 7, 4 => .fma .underflowInexact
  | 7, _ => .underflowInexact
  | _, _ => .unimplemented

/-- Outcomes as numbers 0 to 8. -/
def outcomeNumber : FpOutcome → Nat
  | .none => 0
  | .invalid => 1
  | .divByZero => 2
  | .overflow => 3
  | .underflow => 4
  | .inexact => 5
  | .overflowInexact => 6
  | .underflowInexact => 7
  | .unimplemented => 8

/-- A major opcode as its number in `majors`; the others, which no slot of the codec holds, count as 0x0C. -/
def majorNumber (major : Nat) : Nat :=
  match major with
  | 0x0E => 1
  | 0x06 => 2
  | 0x26 => 3
  | 0x2E => 4
  | _ => 0

/-- The major opcode a code of the test codec stands for. -/
def codeMajor (c : BitVec 6) : BitVec 6 := majors.getD (c.toNat / 9) 0x0C

/-- A lawful slot codec that keeps every one of the five major opcodes: code `9 m + o` for major number `m` and outcome
number `o` in the top 6 bits, the low 26 bits those of the instruction. -/
def codec : QueueParams where
  slotUnpack w := (w.extractLsb' 26 6, codeMajor (w.extractLsb' 26 6) ++ w.extractLsb' 0 26)
  slotPack c iw := c ++ iw.extractLsb' 0 26
  excTypeOf c := if c.toNat < 45 then testType (c.toNat / 9) (c.toNat % 9) else .unrecognized
  codeOf o major := BitVec.ofNat 6 (9 * majorNumber major + outcomeNumber o)

theorem low_of_append (c : BitVec 6) (x : BitVec 26) : (c ++ x).extractLsb' 0 26 = x := by
  apply BitVec.eq_of_getLsbD_eq
  intro i hi
  rw [BitVec.getLsbD_extractLsb', BitVec.getLsbD_append]
  simp [hi]

theorem high_of_append (c : BitVec 6) (x : BitVec 26) : (c ++ x).extractLsb' 26 6 = c := by
  apply BitVec.eq_of_getLsbD_eq
  intro i hi
  rw [BitVec.getLsbD_extractLsb', BitVec.getLsbD_append]
  simp [hi]

theorem majorOf_append (c : BitVec 6) (x : BitVec 26) : majorOf (c ++ x) = c.toNat := by
  have hx := x.isLt
  unfold majorOf
  rw [BitVec.toNat_append, Nat.shiftLeft_eq, Nat.mul_comm, ← Nat.two_pow_add_eq_or_of_lt hx]
  omega

theorem codec_lawful : codec.Lawful where
  code_zero := by decide
  slot_zero := by decide
  pack_unpack w := by
    show w.extractLsb' 26 6 ++ (codeMajor (w.extractLsb' 26 6) ++ w.extractLsb' 0 26 : Word).extractLsb' 0 26 = w
    rw [low_of_append]
    apply BitVec.eq_of_getLsbD_eq
    intro i hi
    rw [BitVec.getLsbD_append, BitVec.getLsbD_extractLsb', BitVec.getLsbD_extractLsb']
    by_cases h : i < 26
    · simp [h]
    · simp [h, show 26 + (i - 26) = i by omega, show i - 26 < 6 by omega]
  retag_unpack w o := by
    have hk : ∀ (c : BitVec 6) (n : Fin 9),
        codeMajor (BitVec.ofNat 6 (9 * majorNumber (codeMajor c).toNat + n.val)) = codeMajor c := by decide
    have hn : outcomeNumber o < 9 := by cases o <;> decide
    show ((codec.codeOf o _ ++ _ : Word).extractLsb' 26 6,
      codeMajor ((codec.codeOf o _ ++ _ : Word).extractLsb' 26 6) ++ (codec.codeOf o _ ++ _ : Word).extractLsb' 0 26) = _
    rw [high_of_append, low_of_append]
    refine Prod.ext rfl ?_
    show codeMajor (BitVec.ofNat 6 (9 * majorNumber (majorOf (codeMajor (w.extractLsb' 26 6) ++ w.extractLsb' 0 26))
      + outcomeNumber o)) ++ (codeMajor (w.extractLsb' 26 6) ++ w.extractLsb' 0 26 : Word).extractLsb' 0 26
      = codeMajor (w.extractLsb' 26 6) ++ w.extractLsb' 0 26
    rw [majorOf_append, low_of_append, hk _ ⟨outcomeNumber o, hn⟩]
  retag_type o major ty h := by
    by_cases h1 : major = 0x2E
    · subst h1; cases o <;> simp_all [retagType] <;> subst h <;> decide
    · have hm : majorNumber major < 4 := by unfold majorNumber; split <;> simp_all
      have : ∀ m : Fin 4, ∀ n : Fin 8, testType m.val n.val =
          ([.none, .invalid, .divByZero, .overflow, .underflow, .inexact, .overflowInexact, .underflowInexact].getD n.val .none) ∧
          (BitVec.ofNat 6 (9 * m.val + n.val)).toNat = 9 * m.val + n.val := by decide
      have key : ∀ n, n < 8 → codec.excTypeOf (BitVec.ofNat 6 (9 * majorNumber major + n)) =
          ([.none, .invalid, .divByZero, .overflow, .underflow, .inexact, .overflowInexact, .underflowInexact].getD n .none) := by
        intro n hn
        obtain ⟨h2, h3⟩ := this ⟨_, hm⟩ ⟨n, hn⟩
        show (if _ < 45 then testType _ _ else _) = _
        simp only at h2 h3
        rw [h3, if_pos (by omega), show (9 * majorNumber major + n) / 9 = majorNumber major by omega,
          show (9 * majorNumber major + n) % 9 = n by omega, h2]
      cases o <;> simp only [retagType, if_neg h1, Option.some.injEq, reduceCtorEq] at h <;> subst h <;> exact key _ (by decide)

/-- `slot(TYPE, iw)` with outcome number `o` and major number `m`. -/
def slot (m o iw : Nat) : Nat := (9 * m + o) * 2 ^ 26 + iw % 2 ^ 26

/-- A run of the decoder answers signal value `n`, status word `st` and these words. -/
def drains (st : Nat) (ws : List (Nat × Nat)) (n st' : Nat) (ws' : List (Nat × Nat)) : Bool :=
  let s := start .pa20 st ws
  endsWith (decodeQueue codec s) s (.signal (BitVec.ofNat 32 n)) st' ws'

/-- T-E1, T-E2: UNIMPLEMENTED slots. -/
theorem test_queue_unimplemented :
    drains 0x40 [(1, slot 0 8 0x30802006)] 0x04000007 0x40 [] = true ∧
    drains 0x40 [(2, slot 0 8 0x30850E06), (3, slot 0 8 0x30802006), (8, 0x3FF00000), (10, 0x40000000)] 0x04000007 0x40
      [(12, 0x40080000), (2, 0)] = true := by decide +kernel

/-- T-E3, with any value in the destination: DIV_BY_ZERO at the re-dispatch. -/
theorem test_queue_retagged :
    (match decodeQueue codec (start .pa20 0x48 [(1, slot 0 8 0x30856606), (8, 0x3F800000), (2, slot 0 8 0x30802006)]) with
      | .next t => decide (t.returned = .signal 0x08000003#32 ∧ t.status = 0x48#32 ∧
          t.word 1 = BitVec.ofNat 32 (slot 0 2 0x30856606) ∧ t.word 2 = BitVec.ofNat 32 (slot 0 8 0x30802006))
      | .fault _ => false
      | .refused _ => false) = true := by decide +kernel

/-- A re-dispatched FCNVFF,DBL,SGL whose wrapped result is free (V-C8, and 2^-1000): the enabled trap ends the run
whatever was delivered (R343, R344). -/
theorem test_queue_retagged_free :
    let run (st w8 w9 n st' tag : Nat) : Bool :=
      match decodeQueue codec (start .pa20 st [(1, slot 0 8 0x30800A06), (8, w8), (9, w9)]) with
      | .next t => decide (t.returned = .signal (BitVec.ofNat 32 n) ∧ t.status = BitVec.ofNat 32 st' ∧
          t.word 1 = BitVec.ofNat 32 (slot 0 tag 0x30800A06))
      | .fault _ => false
      | .refused _ => false
    run 0x44 0x7FEFFFFF 0xFFFFFFFF 0x08000004 0x08000044 3 = true ∧
    run 0x42 0x01700000 0 0x08000005 0x42 4 = true := by decide +kernel

/-- T-E4, T-E10 to T-E13: empty queue, INVALID, unrecognized, INEXACT, FMA(OVERFLOW). -/
theorem test_queue_terminal :
    drains 0x40 [] 0 0 [] = true ∧
    drains 0x40 [(1, slot 0 1 0x30850E0B), (2, slot 0 8 0x30802006)] 0x08000007 0x40 [] = true ∧
    drains 0x40 [(1, 63 * 2 ^ 26)] 0x04000007 0x40 [] = true ∧
    drains 0x40 [(1, slot 0 5 0x30850E0B)] 0x08000006 0x40 [] = true ∧
    drains 0x40 [(1, slot 4 3 0xB8852407)] 0x08000004 0x40 [] = true := by decide +kernel

/-- T-E5 to T-E7: UNDERFLOW slots. -/
theorem test_queue_underflow :
    drains 0x40 [(3, slot 0 4 0x3109460A), (20, 0x55400000)] 0 0x18000000 [(3, 0), (20, 2)] = true ∧
    drains 0x40 [(3, slot 0 4 0x3109460A), (20, 0x59800000)] 0 0 [(3, 0), (20, 0x200)] = true ∧
    drains 0x42 [(3, slot 0 4 0x3109460A), (20, 0x55400000)] 0x08000005 0x42 [] = true := by decide +kernel

/-- T-E8, T-E9, and T-E8's slot with the overflow trap enabled (R344): OVERFLOW slots. -/
theorem test_queue_overflow :
    drains 0x240 [(1, slot 0 3 0x30850E0B), (22, 0x5FE00000)] 0 0x28000200
      [(1, 0), (22, 0x7FEFFFFF), (23, 0xFFFFFFFF)] = true ∧
    drains 0x41 [(1, slot 0 3 0x30850E0B), (22, 0x5FE00000)] 0x08000006 0x20000041 [(22, 0x7FF00000)] = true ∧
    drains 0x44 [(1, slot 0 3 0x30850E0B), (22, 0x5FE00000)] 0x08000004 0x44 [] = true := by decide +kernel

/-- T-E14, T-E15: a fused and a multiple instruction in an UNIMPLEMENTED slot. -/
theorem test_queue_fused_and_multiple :
    drains 0x44 [(1, slot 4 8 0xB8852407), (8, 0x7F7FFFFF), (10, 0x40000000)] 0x08000004 0x44
      [(1, slot 4 3 0xB8852407), (14, 0x1FFFFFFF)] = true ∧
    drains 0x50 [(1, slot 2 8 0x188531C8), (8, 0x40000000), (10, 0x40080000), (12, 0x7FF00000), (14, 0xFFF00000)]
      0x04000007 0x50 [] = true := by decide +kernel

/-- Program 4, and its variant with the inexact trap enabled. -/
theorem test_queue_program4 :
    let ws := [(8, 0x3FF00000), (10, 0x40000000), (20, 0x55400000), (22, 0x5FE00000), (2, slot 0 8 0x30850E06),
      (3, slot 0 4 0x3109460A), (4, slot 0 3 0x30850E0B)]
    drains 0x40 ws 0 0x38000000 [(2, 0), (3, 0), (4, 0), (12, 0x40080000), (20, 2), (22, 0x7FF00000)] = true ∧
    drains 0x41 ws 0x08000006 0x10000041 [(2, 0), (12, 0x40080000), (20, 2)] = true := by decide +kernel

/-- Refused slots, the trap disabled and enabled (R382): an UNDERFLOW slot of an instruction with no float destination
(R346), one whose destination holds infinity (R343), and an OVERFLOW slot whose destination holds a NaN (R344). -/
theorem test_queue_refused :
    stops (decodeQueue codec (start .pa20 0x40 [(1, slot 2 4 0x188531C8)])) .slotDestination = true ∧
    stops (decodeQueue codec (start .pa20 0x40 [(1, slot 0 4 0x3109460A), (20, 0x7F800000)])) .slotValue = true ∧
    stops (decodeQueue codec (start .pa20 0x42 [(1, slot 2 4 0x188531C8)])) .slotDestination = true ∧
    stops (decodeQueue codec (start .pa20 0x42 [(1, slot 0 4 0x3109460A), (20, 0x7F800000)])) .slotValue = true ∧
    stops (decodeQueue codec (start .pa20 0x44 [(1, slot 0 3 0x30850E0B), (22, 0x7FF00000), (23, 1)])) .slotValue =
      true := by decide +kernel

/-! ## Witnesses: for each statement with hypotheses, states and operands that meet them -/

/-- The result is a next state. -/
def answers (r : Result) : Bool :=
  match r with
  | .next _ => true
  | .fault _ => false
  | .refused _ => false

theorem answers_next {r : Result} (h : answers r = true) : ∃ t, r = .next t := by
  cases r with
  | next t => exact ⟨t, rfl⟩
  | fault f => cases h
  | refused f => cases h

/-- The result is a next state of which `p` holds. -/
def answersWith (r : Result) (p : State → Bool) : Bool :=
  match r with
  | .next t => p t
  | .fault _ => false
  | .refused _ => false

theorem answersWith_next {r : Result} {p : State → Bool} (h : answersWith r p = true) : ∃ t, r = .next t ∧ p t = true := by
  cases r with
  | next t => exact ⟨t, rfl, h⟩
  | fault f => cases h
  | refused f => cases h

/-- A rounding read off `roundmag`. -/
theorem isRounding_of_eq {m : RMode} {s : Bool} {q : Int} {a w : ℚ} (ha : 0 ≤ a)
    (h : (roundmag (.rat a) q s m).value = w) : IsRounding m s q (a : ℝ) w :=
  h ▸ roundmag_isRounding (a := .rat a) ha q s m

/-- A word as a single encoding. -/
abbrev asS (x : Word) : Enc .sgl := x

/-- A pair as a double encoding. -/
abbrev asD (x : BitVec 64) : Enc .dbl := x

/-- The data operands of the witnesses: fr4 = 1.0 (left word 1.875 as a single), fr5 = 2.0, all else 0. -/
def data : State := start .pa20 0 [(8, 0x3FF00000), (10, 0x40000000)]

theorem witness_DecodeOfEncode :
    (Instr.fadd .op0E .dbl ⟨31, true⟩ ⟨31, true⟩ ⟨31, true⟩).wf .pa11 = true ∧
    (Instr.fcmp .op0C .sgl ⟨0, false⟩ ⟨31, false⟩ 7 31).wf .pa20 = true := by decide

theorem witness_DecodedIsWellFormed :
    decode .pa11 0x388556C6#32 = .ok (.fmpy .op0E .sgl ⟨4, true⟩ ⟨5, true⟩ ⟨6, true⟩) := by decide +kernel

/-- Bits 23..26 of a 0C class-3 word set. -/
theorem witness_IgnoredBitsDecodeAlike :
    (0x30850E06#32 ≠ 0x30000000#32 ∧ 0x30850FE6#32 ≠ 0x30000000#32) ∧
    (∀ b, b < 32 → b ∉ ignoredBits .pa11 0x30850E06#32 → bitAt 0x30850FE6#32 b = bitAt 0x30850E06#32 b) := by decide

/-- One word for each clause, in the order of the statement. -/
theorem witness_ReservedEncodingsAreUnimplemented :
    (field 0x34000000#32 0 5 = 0x0D) ∧
    (field 0x30802006#32 0 5 = 0x0C ∧ field 0x30802006#32 21 22 = 0 ∧ field 0x30802006#32 16 18 = 1) ∧
    (field 0x38805006#32 0 5 = 0x0E ∧ field 0x38805006#32 21 22 = 0 ∧ field 0x38805006#32 19 20 = 2) ∧
    (field 0x30809806#32 21 22 = 0 ∧ field 0x30809806#32 16 18 = 4 ∧ field 0x30809806#32 19 20 = 3) ∧
    (field 0x3080B806#32 21 22 = 0 ∧ field 0x3080B806#32 16 18 = 5 ∧ field 0x3080B806#32 19 20 = 3) ∧
    (field 0x30801206#32 21 22 = 1 ∧ field 0x30801206#32 19 20 = 2) ∧
    (field 0x30804206#32 21 22 = 1 ∧ field 0x30804206#32 17 18 = 2) ∧
    (field 0x30822206#32 21 22 = 1 ∧ field 0x30822206#32 14 16 = 4) ∧
    (field 0x30802A06#32 21 22 = 1 ∧ field 0x30802A06#32 14 16 = 0 ∧
      field 0x30802A06#32 19 20 = field 0x30802A06#32 17 18) ∧
    (field 0x30822A06#32 21 22 = 1 ∧ field 0x30822A06#32 15 16 = 0 ∧
      field 0x30822A06#32 19 20 = field 0x30822A06#32 17 18) ∧
    (field 0x30854C09#32 21 22 = 2 ∧ field 0x30854C09#32 16 18 = 2) ∧
    (field 0x30851409#32 21 22 = 2 ∧ field 0x30851409#32 19 20 = 2 ∧ bitAt 0x30851409#32 26 = false ∧
      field 0x30851409#32 16 18 = 0) ∧
    (field 0x3085A606#32 21 22 = 3 ∧ field 0x3085A606#32 16 18 = 5) ∧
    (field 0x30851606#32 0 5 = 0x0C ∧ field 0x30851606#32 21 22 = 3 ∧ field 0x30851606#32 19 20 = 2) := by decide

theorem witness_StepRunsDecodedInstruction :
    (data.withFetchWord 32 0x30850E06).calls = .dispatch 0x30850E06#32 :: [] ∧
    decode data.variant (BitVec.ofNat 32 0x30850E06) =
      .ok (.fadd .op0C .dbl ⟨4, false⟩ ⟨5, false⟩ ⟨6, false⟩) := by decide +kernel

theorem witness_StepRunsOldestCall :
    (decode data.variant 0x34000000#32 = .error .majorOpcode ∧
      (data.withFetchWord 32 0x34000000).calls = .dispatch 0x34000000#32 :: []) ∧
    ({ data with calls := [.decodeQueue] } : State).calls = .decodeQueue :: [] ∧ data.calls = [] := by decide +kernel

theorem witness_StepKeepsStatusSince :
    StatusSince .pa20 0x8000061F#32 ((start .pa20 0x8000061F []).withFetchWord 32 0x30850E06) ∧
    ∃ t, step ((start .pa20 0x8000061F []).withFetchWord 32 0x30850E06) = .next t :=
  ⟨StatusSince.refl ((start .pa20 0x8000061F []).withFetchWord 32 0x30850E06), answers_next (by decide +kernel)⟩

theorem witness_InstructionWordFrame :
    (∃ t, exec (.fadd .op0C .dbl ⟨4, false⟩ ⟨5, false⟩ ⟨6, false⟩) data = .next t) ∧
    (∃ t, exec (.fcmp .op0C .dbl ⟨4, false⟩ ⟨5, false⟩ 0 9) data = .next t) :=
  ⟨answers_next (by decide +kernel), answers_next (by decide +kernel)⟩

theorem witness_InstructionStatusFrame :
    (Instr.fadd .op0C .dbl ⟨4, false⟩ ⟨5, false⟩ ⟨6, false⟩).isCompare = false ∧
    (Instr.fcmp .op0C .dbl ⟨4, false⟩ ⟨5, false⟩ 0 9).isCompare = true ∧
    (∃ t, exec (.fadd .op0C .dbl ⟨4, false⟩ ⟨5, false⟩ ⟨6, false⟩) data = .next t) ∧
    (∃ t, exec (.fcmp .op0C .dbl ⟨4, false⟩ ⟨5, false⟩ 0 9) data = .next t) :=
  ⟨rfl, rfl, witness_InstructionWordFrame⟩

/-- V-M5 (a named exception) and V-D9 (a raised flag). -/
theorem witness_FlagOrTrapOfEveryInstruction :
    (∃ t, exec (.fmpy .op0C .dbl ⟨4, false⟩ ⟨5, false⟩ ⟨6, false⟩)
        (start .pa20 4 [(8, 0x7FEFFFFF), (9, 0xFFFFFFFF), (10, 0x40000000)]) = .next t ∧
      decide (Exc.O ∈ t.outcome.names) = true) ∧
    (∃ t, exec (.fdiv .op0C .sgl ⟨4, false⟩ ⟨5, false⟩ ⟨6, false⟩)
        (start .pa20 0 [(8, 0x3F800000), (10, 0x40400000)]) = .next t ∧
      (!flagSet .I 0#32 && flagSet .I t.status) = true) :=
  ⟨answersWith_next (p := fun t => decide (Exc.O ∈ t.outcome.names)) (by decide +kernel),
    answersWith_next (p := fun t => !flagSet .I 0#32 && flagSet .I t.status) (by decide +kernel)⟩

theorem witness_UnimplementedWritesNothing :
    ∃ t, dispatchWord 0x30802006#32 data = .next t ∧ decide (t.returned = .outcome .unimplemented) = true :=
  answersWith_next (p := fun t => decide (t.returned = .outcome .unimplemented)) (by decide +kernel)

theorem witness_DestinationZeroIsUnimplemented :
    (0 : Fin 64) ∈ (Instr.fadd .op0C .dbl ⟨4, false⟩ ⟨5, false⟩ ⟨0, false⟩).dstIndices ∧
    (Instr.fadd .op0C .dbl ⟨4, false⟩ ⟨5, false⟩ ⟨0, false⟩).raZero = false ∧
    (0 : Fin 64) ∈ (Instr.fmpyadd .dbl 4 5 0 1 8).dstIndices ∧ (Instr.fmpyadd .dbl 4 5 0 1 8).raZero = false := by decide

/-- Destinations at words 1 and 6, the lowest and highest that are refused; the half-bit-1 destination of field 0 whose
aligned index is 0; and the status source. -/
theorem witness_QueueAndStatusOperandsAreRefused :
    ((0 : Fin 64) ∉ (Instr.fcpy .op0E (.num .sgl) ⟨4, false⟩ ⟨0, true⟩).dstIndices ∧
      (1 : Fin 64) ∈ (Instr.fcpy .op0E (.num .sgl) ⟨4, false⟩ ⟨0, true⟩).alignedDsts) ∧
    ((0 : Fin 64) ∉ (Instr.fcpy .op0E (.num .dbl) ⟨4, false⟩ ⟨0, true⟩).dstIndices ∧
      (0 : Fin 64) ∈ (Instr.fcpy .op0E (.num .dbl) ⟨4, false⟩ ⟨0, true⟩).alignedDsts) ∧
    ((0 : Fin 64) ∉ (Instr.fmpyadd .dbl 4 5 3 7 8).dstIndices ∧ (6 : Fin 64) ∈ (Instr.fmpyadd .dbl 4 5 3 7 8).alignedDsts ∧
      (Instr.fmpyadd .dbl 4 5 3 7 8).raZero = false) ∧
    ((0 : Fin 64) ∉ (Instr.fsqrt .op0E .dbl ⟨0, true⟩ ⟨6, false⟩).dstIndices ∧
      SrcOp.status ∈ (Instr.fsqrt .op0E .dbl ⟨0, true⟩ ⟨6, false⟩).sources) := by decide

theorem witness_BitFieldPrimitives :
    (0 < 32 ∧ 0 + 32 ≤ 32 ∧ 31 < 32) ∧ (0 < 1 ∧ 31 + 1 ≤ 32 ∧ 31 < 32) ∧ (0 < 1 ∧ 0 + 1 ≤ 32 ∧ 0 < 32) := by decide

/-- Words 8 and 63 as single destinations, 8 and 62 as double ones; the sources Z, a slot word and a data word. -/
theorem witness_MovesCompleteAndMove :
    (Form.op0C.dst .sgl ⟨4, false⟩ = .word 8 ∧ srcVal data .sgl (Form.op0C.src .sgl ⟨0, false⟩) = some 0) ∧
    (Form.op0E.dst .sgl ⟨31, true⟩ = .word 63 ∧ srcVal data .sgl (Form.op0E.src .sgl ⟨0, true⟩) = some 0) ∧
    (Form.op0C.dst .dbl ⟨4, false⟩ = .word 8 ∧
      srcVal data .dbl (Form.op0C.src .dbl ⟨4, false⟩) = some 0x3FF0000000000000#64) ∧
    (Form.op0E.dst .dbl ⟨31, true⟩ = .word 62 ∧
      srcVal data .dbl (Form.op0E.src .dbl ⟨4, true⟩) = some 0x3FF0000000000000#64) := by decide +kernel

theorem witness_RefusedForms :
    ((1 : Fin 8) ≠ 0 ∧ (7 : Fin 8) ≠ 0) ∧ ((1 : Fin 32) ≠ 0 ∧ (31 : Fin 32) ≠ 0) ∧
    Form.op0C.dstIndex ⟨1, false⟩ ≠ 0 ∧ Form.op0E.dstIndex ⟨0, true⟩ ≠ 0 := by decide

theorem witness_FidStops :
    0x30000001#32 ≠ 0x30000000#32 ∧ field 0x30000001#32 0 5 = 0x0C ∧ field 0x30000001#32 21 22 = 0 ∧
    field 0x30000001#32 16 18 < 2 := by decide

theorem witness_FtestAndXmpyuForms :
    (RegSel.mk 6 true).single.val % 2 = 1 ∧ (RegSel.mk 6 false).single.val % 2 = 0 ∧ (RegSel.mk 6 false).single ≠ 0 ∧
    (RegSel.mk 0 true).single.val % 2 = 1 ∧ (RegSel.mk 0 false).single = 0 := by decide

theorem witness_ArithmeticCompletes :
    Form.op0C.dst .dbl ⟨6, false⟩ = .word 12 ∧
    srcVal data .dbl (Form.op0C.src .dbl ⟨4, false⟩) = some 0x3FF0000000000000#64 ∧
    srcVal data .dbl (Form.op0C.src .dbl ⟨5, false⟩) = some 0x4000000000000000#64 ∧
    Form.op0E.dst .sgl ⟨6, true⟩ = .word 13 ∧
    srcVal data .sgl (Form.op0E.src .sgl ⟨4, false⟩) = some 0x3FF00000#32 ∧
    srcVal data .sgl (Form.op0E.src .sgl ⟨0, false⟩) = some 0 := by decide +kernel

theorem witness_ConversionsComplete :
    (Form.op0C.dst .dbl ⟨6, false⟩ = .word 12 ∧ srcVal data .sgl (Form.op0C.src .sgl ⟨4, false⟩) = some 0x3FF00000#32) ∧
    (Form.op0E.dst .sgl ⟨6, true⟩ = .word 13 ∧
      srcVal data .dbl (Form.op0E.src .dbl ⟨4, false⟩) = some 0x3FF0000000000000#64) := by decide +kernel

theorem witness_FusedCompletes :
    dstOf (fusedIndex .sgl ⟨7, true⟩) = .word 15 ∧ srcVal data .sgl (srcOf (fusedIndex .sgl ⟨4, false⟩)) = some 0x3FF00000#32 ∧
    srcVal data .sgl (srcOf (fusedIndex .sgl ⟨5, false⟩)) = some 0x40000000#32 ∧
    srcVal data .sgl (srcOf (fusedIndex .sgl ⟨0, false⟩)) = some 0 ∧ dstOf (fusedIndex .dbl ⟨31, true⟩) = .word 62 := by
  decide +kernel

theorem witness_MultipleComplete :
    ¬ (Fmt.dbl = .dbl ∧ (7 : Fin 32) = 0) ∧ 8 ≤ (multiIndex .dbl 4).val ∧ 8 ≤ (multiIndex .dbl 31).val ∧
    srcVal data .dbl (srcOf (multiIndex .dbl 4)) = some 0x3FF0000000000000#64 ∧
    srcVal data .dbl (srcOf (multiIndex .dbl 0)) = some 0 ∧
    ¬ (Fmt.sgl = .dbl ∧ (0 : Fin 32) = 0) ∧ 8 ≤ (multiIndex .sgl 0).val ∧
    (kFmpy .dbl 0 0 0x3FF0000000000000#64 0x4000000000000000#64).outcome = .none ∧
    (kFmpy .sgl 1 0 0x3EAAAAAB#32 0x40400000#32).outcome ≠ .none := by decide +kernel

theorem witness_MultipleAllOrNothing :
    (∃ t, exec (.fmpyadd .dbl 4 5 6 7 8) data = .next t) ∧ (∃ t, exec (.fmpysub .sgl 0 1 2 3 4) data = .next t) :=
  ⟨answers_next (by decide +kernel), answers_next (by decide +kernel)⟩

/-- A quiet compare, and an invalid one with the trap off and on. -/
theorem witness_FcmpCompletes :
    srcVal data .dbl (Form.op0C.src .dbl ⟨4, false⟩) = some 0x3FF0000000000000#64 ∧
    srcVal data .dbl (Form.op0C.src .dbl ⟨0, false⟩) = some 0 ∧
    (isNaN (asS 0x7F800005#32) = true ∧ (31 : Fin 32).val.testBit 0 = true ∧ isSNaN (asS 0x7FC00001#32) = true) ∧
    enabled .V 0x10#32 = true ∧ enabled .V 0#32 = false := by decide +kernel

theorem witness_RelationRule :
    isNaN (asS 0x7F800001#32) = true ∧
    (isFinite (asS 0x80000001#32) = true ∧ isFinite (asS 0x7F7FFFFF#32) = true) ∧
    (isInf (asS 0x7F800000#32) = true ∧ isInf (asS 0xFF800000#32) = true) := by decide

/-- The operands of the arithmetic clauses: both infinities, both zeros, 1.0, the largest finite value, and no NaN
among them. -/
theorem witness_arithmetic_operands :
    noNaN ([0x7F800000#32, 0xFF800000#32, 0#32, 0x80000000#32, 0x3F800000#32, 0x7F7FFFFF#32] : List (Enc .sgl)) = true ∧
    (isInf (asS 0x7F800000#32) = true ∧ signOf (asS 0x7F800000#32) = false) ∧
    (isInf (asS 0xFF800000#32) = true ∧ signOf (asS 0xFF800000#32) = true) ∧
    (isZero (asS 0#32) = true ∧ isInf (asS 0#32) = false) ∧
    (isZero (asS 0x80000000#32) = true ∧ signOf (asS 0x80000000#32) = true) ∧
    (isInf (asS 0x3F800000#32) = false ∧ isZero (asS 0x3F800000#32) = false ∧
      isFinite (asS 0x3F800000#32) = true) ∧
    (isInf (asS 0x7F7FFFFF#32) = false ∧ isZero (asS 0x7F7FFFFF#32) = false) := by decide

/-- The NaN clauses of every kernel: a signaling operand after a quiet one, a lone signaling bit, quiet operands only. -/
theorem witness_nan_operands :
    ([0x7F800005#32, 0x7FC00001#32] : List (Enc .sgl)).find? isSNaN = some 0x7FC00001#32 ∧
    (fracOf (asS 0x7FC00001#32) ≠ 2 ^ 22 ∧ fracOf (asS 0x7FC00000#32) = 2 ^ 22 ∧
      isSNaN (asS 0x7FC00000#32) = true) ∧
    ([0x7F800005#32, 0x3F800000#32] : List (Enc .sgl)).find? isSNaN = none ∧
    ([0x7F800005#32, 0x3F800000#32] : List (Enc .sgl)).find? isQNaN = some 0x7F800005#32 := by decide

theorem witness_FaddRule : noNaN ([0x7F800000#32, 0xFF800000#32] : List (Enc .sgl)) = true ∧
    (isInf (asS 0x7F800000#32) = true ∧ isInf (asS 0xFF800000#32) = true ∧
      signOf (asS 0x7F800000#32) ≠ signOf (asS 0xFF800000#32)) ∧
    isInf (asS 0x3F800000#32) = false := by decide

theorem witness_FsubRule : noNaN ([0x7F800000#32, 0x7F800000#32] : List (Enc .sgl)) = true ∧
    isInf (asS 0x7F800000#32) = true ∧ isInf (asS 0x3F800000#32) = false := by decide

theorem witness_FmpyRule : noNaN ([0x7F800000#32, 0x80000000#32] : List (Enc .sgl)) = true ∧
    (isInf (asS 0x7F800000#32) = true ∧ isZero (asS 0x80000000#32) = true) ∧
    isZero (asS 0x3F800000#32) = false ∧ isInf (asS 0x3F800000#32) = false := by decide

theorem witness_FdivRule : noNaN ([0x3F800000#32, 0x80000000#32] : List (Enc .sgl)) = true ∧
    (isInf (asS 0x3F800000#32) = false ∧ isZero (asS 0x3F800000#32) = false ∧
      isZero (asS 0x80000000#32) = true) ∧ isInf (asS 0x7F800000#32) = true := by decide

/-- 5 rem 2: `n = 2`; 7 rem 2: the tie goes to the even `n = 4` (V-R1, V-R2). -/
theorem witness_FremRule :
    noNaN ([0x40A00000#32, 0x40000000#32] : List (Enc .sgl)) = true ∧
    (isInf (asS 0x40A00000#32) = false ∧ isZero (asS 0x40A00000#32) = false ∧
      isInf (asS 0x40000000#32) = false ∧ isZero (asS 0x40000000#32) = false) ∧
    (|val (asS 0x40A00000#32) / val (asS 0x40000000#32) - (2 : Int)| ≤ 1 / 2 ∧ (2 : Int) % 2 = 0) ∧
    (|val (asS 0x40E00000#32) / val (asS 0x40000000#32) - (4 : Int)| = 1 / 2 ∧ (4 : Int) % 2 = 0) := by
  decide +kernel

/-- V-R1 and, for the UNDERFLOW outcome, V-R12. -/
theorem witness_RemainderIsExact :
    (isFinite (asS 0x40A00000#32) = true ∧ isFinite (asS 0x40000000#32) = true ∧
      isZero (asS 0x40A00000#32) = false ∧ isZero (asS 0x40000000#32) = false) ∧
    (kFrem .sgl 0 0 0x40A00000#32 0x40000000#32).outcome = .none ∧
    (kFrem .sgl 2 0 0x00800001#32 0x00800000#32).outcome = .underflow ∧ enabled .U 2#32 = true := by decide +kernel

/-- The root of 2.0 under RN (V-Q7). -/
theorem witness_FsqrtRule :
    (isFinite (asS 0x40000000#32) = true ∧ isZero (asS 0x40000000#32) = false ∧
      signOf (asS 0x40000000#32) = false) ∧
    ∃ w : ℚ, ((pow2 0 : ℚ) : ℝ) ≤ √(val (asS 0x40000000#32) : ℝ) ∧
      √(val (asS 0x40000000#32) : ℝ) < ((pow2 (0 + 1) : ℚ) : ℝ) ∧
      IsRounding .rn false (0 - Fmt.sgl.prec + 1) √(val (asS 0x40000000#32) : ℝ) w := by
  have hv : val (asS 0x40000000#32) = 2 := by decide +kernel
  refine ⟨by decide, _, ?_, ?_, roundmag_isRounding (a := .root (val (asS 0x40000000#32))) ?_ _ _ _⟩
  · rw [hv, show pow2 0 = 1 by decide +kernel]
    exact Real.le_sqrt_of_sq_le (by norm_num)
  · rw [hv, show pow2 (0 + 1) = 2 by decide +kernel, Real.sqrt_lt' (by norm_num)]
    norm_num
  · show 0 ≤ val (asS 0x40000000#32)
    rw [hv]; norm_num

/-- 2.5 rounds to 2 under RN (V-N1). -/
theorem witness_FrndRule :
    isFinite (asS 0x40200000#32) = true ∧ isZero (asS 0x40200000#32) = false ∧
    IsRounding (rmOf 0#32) (signOf (asS 0x40200000#32)) 0 (|val (asS 0x40200000#32)| : ℚ) (2 : Nat) :=
  ⟨by decide, by decide, isRounding_of_eq (abs_nonneg _) (by decide +kernel)⟩

theorem witness_FmaRule :
    noNaN ([0x7F800000#32, 0#32, 0x3F800000#32] : List (Enc .sgl)) = true ∧
    (isInf (asS 0x7F800000#32) = true ∧ isZero (asS 0#32) = true) ∧
    (¬ ((isInf (asS 0x7F800000#32) = true ∧ isZero (asS 0x40000000#32) = true) ∨
        (isZero (asS 0x7F800000#32) = true ∧ isInf (asS 0x40000000#32) = true)) ∧
      isInf (asS 0xFF800000#32) = true ∧ signOf (asS 0xFF800000#32) = true) ∧
    isInf (asS 0x3F800000#32) = false := by decide

theorem witness_SingleToDoubleRule :
    (isSNaN (asS 0x7FC00001#32) = true ∧ fracOf (asS 0x7FC00001#32) ≠ 2 ^ 22) ∧
    isQNaN (asS 0x7F800005#32) = true ∧ isInf (asS 0xFF800000#32) = true ∧
    isFinite (asS 0x00000001#32) = true := by decide

theorem witness_DoubleToSingleRule :
    (isSNaN (asD 0x7FF8000020000000#64) = true ∧ fracOf (asD 0x7FF8000020000000#64) ≠ 2 ^ 51 ∧
      (fracOf (asD 0x7FF8000020000000#64) - 2 ^ 51) / 2 ^ 29 ≠ 0) ∧
    (isSNaN (asD 0x7FF8000000000001#64) = true ∧
      (fracOf (asD 0x7FF8000000000001#64) - 2 ^ 51) / 2 ^ 29 = 0) ∧
    (isQNaN (asD 0x7FF0000020000000#64) = true ∧ fracOf (asD 0x7FF0000020000000#64) / 2 ^ 29 ≠ 0) ∧
    (isQNaN (asD 0x7FF0000000000001#64) = true ∧ fracOf (asD 0x7FF0000000000001#64) / 2 ^ 29 = 0) ∧
    isInf (asD 0xFFF0000000000000#64) = true ∧ isZero (asD 0x8000000000000000#64) = true ∧
    (isFinite (asD 0x3FF0000000000000#64) = true ∧ isZero (asD 0x3FF0000000000000#64) = false) := by decide

/-- 2^24 + 1 as a word integer: a tie in single precision. -/
theorem witness_IntegerToFloatRule :
    pow2 24 ≤ |((asS 0x01000001#32).toInt : ℚ)| ∧ |((asS 0x01000001#32).toInt : ℚ)| < pow2 (24 + 1) ∧
    IsRounding (rmOf 0#32) false (24 - Fmt.sgl.prec + 1) (|((asS 0x01000001#32).toInt : ℚ)| : ℚ) 16777216 :=
  ⟨by decide +kernel, by decide +kernel, isRounding_of_eq (abs_nonneg _) (by decide +kernel)⟩

/-- 2.5 to 2 in range; 2^31 out of the signed word range, the first integer that is; -2^31 in it, the last. -/
theorem witness_FloatToIntegerRule :
    (isFinite (asS 0x40200000#32) = true ∧ isZero (asS 0x40200000#32) = false ∧
      IsRounding .rn false 0 (|val (asS 0x40200000#32)| : ℚ) (2 : Nat)) ∧
    (isFinite (asS 0x4F000000#32) = true ∧ isZero (asS 0x4F000000#32) = false ∧
      IsRounding .rz false 0 (|val (asS 0x4F000000#32)| : ℚ) (2 ^ 31 : Nat) ∧
      ¬ ((2 : Int) ^ 31 ≤ 2 ^ 31 - 1)) ∧
    (IsRounding .rz true 0 (|val (asS 0xCF000000#32)| : ℚ) (2 ^ 31 : Nat) ∧ (-2 : Int) ^ 31 ≤ -(2 ^ 31)) ∧
    isNaN (asS 0x7F800005#32) = true ∧ isInf (asS 0x7F800000#32) = true ∧
    isZero (asS 0x80000000#32) = true :=
  ⟨⟨by decide, by decide, isRounding_of_eq (abs_nonneg _) (by decide +kernel)⟩,
    ⟨by decide, by decide, isRounding_of_eq (abs_nonneg _) (by decide +kernel), by norm_num⟩,
    ⟨isRounding_of_eq (abs_nonneg _) (by decide +kernel), by norm_num⟩, by decide, by decide, by decide⟩

theorem witness_RoundmagRounds : (0 : ℚ) < 1 / 3 := by norm_num

/-- The premises of `FinishRule` on a result `r` in single precision: its exponent and its two roundings. -/
structure Rounds (st : Word) (r : ℚ) (e : Int) (w d : ℚ) : Prop where
  low : pow2 e ≤ |r|
  high : |r| < pow2 (e + 1)
  normal : IsRounding (rmOf st) (decide (r < 0)) (e - Fmt.sgl.prec + 1) (|r| : ℚ) w
  subnormal : IsRounding (rmOf st) (decide (r < 0)) (Fmt.sgl.emin - Fmt.sgl.prec + 1) (|r| : ℚ) d

theorem rounds_of {st : Word} {r : ℚ} {e : Int} {w d : ℚ}
    (h : pow2 e ≤ |r| ∧ |r| < pow2 (e + 1) ∧
      (roundmag (.rat |r|) (e - Fmt.sgl.prec + 1) (decide (r < 0)) (rmOf st)).value = w ∧
      (roundmag (.rat |r|) (Fmt.sgl.emin - Fmt.sgl.prec + 1) (decide (r < 0)) (rmOf st)).value = d) : Rounds st r e w d :=
  ⟨h.1, h.2.1, isRounding_of_eq (abs_nonneg _) h.2.2.1, isRounding_of_eq (abs_nonneg _) h.2.2.2⟩

/-- Overflow: the least overflowing magnitude, exact and inexact, with every enable the clauses name. -/
theorem witness_FinishRule_overflow :
    Rounds 4#32 (pow2 128) 128 (pow2 128) (pow2 128) ∧ pow2 (Fmt.sgl.emax + 1) ≤ pow2 128 ∧
    (enabled .O 4#32 = true ∧ enabled .O 5#32 = true ∧ enabled .I 5#32 = true ∧ enabled .I 4#32 = false ∧
      enabled .O 0#32 = false ∧ enabled .I 1#32 = true) ∧
    Rounds 5#32 (pow2 128 + 1) 128 (pow2 128) (pow2 128 + 1) ∧ pow2 128 ≠ |pow2 128 + 1| ∧
    (pow2 Fmt.sgl.emin ≤ pow2 128 * pow2 (-(Config.wrap .sgl : Int)) ∧
      pow2 128 * pow2 (-(Config.wrap .sgl : Int)) < pow2 (Fmt.sgl.emax + 1)) :=
  ⟨rounds_of (by decide +kernel), by decide +kernel, by decide, rounds_of (by decide +kernel), by decide +kernel,
    by decide +kernel⟩

/-- Underflow: an exact denormal, a denormal that rounds, and a tiny result inexact even with unbounded exponent. -/
theorem witness_FinishRule_underflow :
    Rounds 2#32 (pow2 (-127)) (-127) (pow2 (-127)) (pow2 (-127)) ∧ pow2 (-127) < pow2 Fmt.sgl.emin ∧
    (enabled .U 2#32 = true ∧ enabled .U 3#32 = true ∧ enabled .I 3#32 = true ∧ enabled .U 0#32 = false) ∧
    (pow2 Fmt.sgl.emin ≤ pow2 (-127) * pow2 (Config.wrap .sgl : Int) ∧
      pow2 (-127) * pow2 (Config.wrap .sgl : Int) < pow2 (Fmt.sgl.emax + 1)) ∧
    Rounds 0#32 (3 * pow2 (-150)) (-149) (3 * pow2 (-150)) (pow2 (-148)) ∧ pow2 (-148) ≠ |3 * pow2 (-150)| ∧
    Rounds 3#32 (pow2 (-130) + pow2 (-154)) (-130) (pow2 (-130)) (pow2 (-130)) ∧
      pow2 (-130) ≠ |pow2 (-130) + pow2 (-154)| :=
  ⟨rounds_of (by decide +kernel), by decide +kernel, by decide, by decide +kernel, rounds_of (by decide +kernel),
    by decide +kernel, rounds_of (by decide +kernel), by decide +kernel⟩

/-- Neither: the largest finite magnitude, and a tiny exact result that rounds up to the least normal one (R154). -/
theorem witness_FinishRule_normal :
    (0 : ℚ) = 0 ∧
    Rounds 0#32 (pow2 128 - pow2 104) 127 (pow2 128 - pow2 104) (pow2 128 - pow2 104) ∧
    (pow2 Fmt.sgl.emin ≤ pow2 128 - pow2 104 ∧ pow2 128 - pow2 104 < pow2 (Fmt.sgl.emax + 1)) ∧
    Rounds 0#32 (-(pow2 (-126) - pow2 (-172))) (-127) (pow2 (-126)) (pow2 (-126)) ∧
    (pow2 Fmt.sgl.emin ≤ pow2 (-126) ∧ pow2 (-126) < pow2 (Fmt.sgl.emax + 1)) :=
  ⟨rfl, rounds_of (by decide +kernel), by decide +kernel, rounds_of (by decide +kernel), by decide +kernel⟩

/-- 1/3 in each rounding mode (V-D9 to V-D11), and the least subnormal with the underflow trap off. -/
theorem witness_RoundingBound :
    (pow2 (-2) ≤ |(1 / 3 : ℚ)| ∧ |(1 / 3 : ℚ)| < pow2 (-2 + 1)) ∧
    (∀ p ∈ [(0x000#32, 11184811), (0x200#32, 11184810), (0x400#32, 11184811), (0x600#32, (11184810 : Nat))],
      IsRounding (rmOf p.1) (decide ((1 / 3 : ℚ) < 0)) (-2 - Fmt.sgl.prec + 1) ((|(1 / 3 : ℚ)| : ℚ) : ℝ) (p.2 * pow2 (-25)) ∧
      p.2 * pow2 (-25) < pow2 (Fmt.sgl.emax + 1) ∧
      ¬ (enabled .U p.1 = true ∧ p.2 * pow2 (-25) < pow2 Fmt.sgl.emin)) ∧
    Rounds 0#32 (pow2 (-149)) (-149) (pow2 (-149)) (pow2 (-149)) := by
  have h : ∀ p ∈ [(0x000#32, 11184811), (0x200#32, 11184810), (0x400#32, 11184811), (0x600#32, (11184810 : Nat))],
      (roundmag (.rat |(1 / 3 : ℚ)|) (-2 - Fmt.sgl.prec + 1) (decide ((1 / 3 : ℚ) < 0)) (rmOf p.1)).value = p.2 * pow2 (-25) ∧
      p.2 * pow2 (-25) < pow2 (Fmt.sgl.emax + 1) ∧
      ¬ (enabled .U p.1 = true ∧ p.2 * pow2 (-25) < pow2 Fmt.sgl.emin) := by decide +kernel
  exact ⟨by decide +kernel, fun p hp => ⟨isRounding_of_eq (abs_nonneg _) (h p hp).1, (h p hp).2⟩,
    rounds_of (by decide +kernel)⟩

/-- V-M5 and V-M15. -/
theorem witness_WrappedResultsAreDetermined :
    (isFinite (asD 0x7FEFFFFFFFFFFFFF#64) = true ∧ isFinite (asD 0x4000000000000000#64) = true) ∧
    Exc.O ∈ (kFmpy .dbl 4 0 0x7FEFFFFFFFFFFFFF#64 0x4000000000000000#64).outcome.names ∧
    Exc.U ∈ (kFmpy .sgl 2 0 0x0D800000#32 0x26800000#32).outcome.names := by decide +kernel

theorem witness_QuietRule : isSNaN (asS 0x7FC00001#32) = true ∧ fracOf (asS 0x7FC00001#32) ≠ 2 ^ 22 ∧
    isSNaN (asD 0xFFFFFFFFFFFFFFFF#64) = true ∧ fracOf (asD 0xFFFFFFFFFFFFFFFF#64) ≠ 2 ^ 51 ∧
    isSNaN (asS 0xFFC00000#32) = true ∧ fracOf (asS 0xFFC00000#32) = 2 ^ 22 := by decide

theorem witness_AddAndMultiplyCommute :
    srcVal data .dbl (Form.op0C.src .dbl ⟨4, false⟩) = some 0x3FF0000000000000#64 ∧
    srcVal data .dbl (Form.op0C.src .dbl ⟨5, false⟩) = some 0x4000000000000000#64 ∧
    isFinite (asD 0x3FF0000000000000#64) = true ∧ isFinite (asD 0x4000000000000000#64) = true := by
  decide +kernel

theorem witness_ConversionRoundTrips : isNormal (asS 0x00800000#32) = true ∧
    isNormal (asS 0xFF7FFFFF#32) = true := by decide

theorem witness_CompareComplementLaw : isNaN (asS 0x7F800000#32) = false ∧ isNaN (asS 0x80000000#32) = false := by
  decide

theorem witness_NoneSlotIsCleared :
    (isSlot 1 ∧ isSlot 7) ∧ slotType codec (start .pa20 0x40 []) 1 = .none ∧
    slotType codec (start .pa20 0x40 [(7, slot 0 0 0x30850E06)]) 7 = .none := by
  refine ⟨⟨⟨by decide, by decide⟩, by decide, by decide⟩, by decide +kernel, by decide +kernel⟩

/-- One slot of each terminal type, in the order of the statement. -/
theorem witness_TerminalSlotsSignal :
    ([(0, 1), (4, 1), (0, 2), (0, 5), (4, 5), (4, 3), (4, 6), (4, 4), (4, 7)].map fun c =>
        slotType codec (start .pa20 0x40 [(1, slot c.1 c.2 0)]) 1) =
      [.invalid, .fma .invalid, .divByZero, .inexact, .fma .inexact, .fma .overflow, .fma .overflowInexact,
        .fma .underflow, .fma .underflowInexact] ∧
    slotType codec (start .pa20 0x40 [(1, 63 * 2 ^ 26)]) 1 = .unrecognized := by decide +kernel

/-- T-E1 (UNIMPLEMENTED again), T-E2 (another outcome), a slot holding FID (refused), and FCNVFF,DBL,SGL reporting each
overflow and underflow outcome (V-C8's operand and the smallest double). -/
theorem witness_UnimplementedSlotIsRedispatched :
    codec.Lawful ∧ isSlot 1 ∧
    (let s := start .pa20 0x40 [(1, slot 0 8 0x30802006)];
      slotType codec s 1 = .unimplemented ∧
      answersWith (dispatchWord (slotInstr codec s 1) (s.setT false))
        (fun t => decide (t.returned = .outcome .unimplemented)) = true) ∧
    (let s := start .pa20 0x40 [(1, slot 0 8 0x30850E06)];
      slotType codec s 1 = .unimplemented ∧
      answersWith (dispatchWord (slotInstr codec s 1) (s.setT false))
        (fun t => decide (t.returned = .outcome .none)) = true) ∧
    (let s := start .pa20 0x40 [(1, slot 0 8 0x30000000)];
      slotType codec s 1 = .unimplemented ∧
      stops (dispatchWord (slotInstr codec s 1) (s.setT false)) .fid = true) ∧
    ([(0x44, 0x7FEFFFFF, FpOutcome.overflow, ExcType.overflow), (0x45, 0x7FEFFFFF, .overflowInexact, .overflowInexact),
      (0x42, 0, .underflow, .underflow), (0x43, 0x38000000, .underflowInexact, .underflowInexact)].all fun c =>
      let s := start .pa20 c.1 [(1, slot 0 8 0x30800A06), (8, c.2.1), (9, if c.1 = 0x42 then 1 else 0xFFFFFFFF)]
      slotType codec s 1 == .unimplemented && retagType c.2.2.1 (majorOf (slotInstr codec s 1)) == some c.2.2.2 &&
        answersWith (dispatchWord (slotInstr codec s 1) (s.setT false))
          (fun t => decide (t.returned = .outcome c.2.2.1))) = true :=
  ⟨codec_lawful, ⟨by decide, by decide⟩, by decide +kernel, by decide +kernel, by decide +kernel, by decide +kernel⟩

/-- The start of T-E5. -/
def underflowStart (st value : Nat) : State := start .pa20 st [(3, slot 0 4 0x3109460A), (20, value)]

/-- T-E5 (inexact), T-E6 (exact), T-E7 (trap enabled), the inexact trap enabled, no destination, an implausible value (both refused whatever the trap). -/
theorem witness_UnderflowSlotDenormalizes :
    isSlot 3 ∧ slotType codec (underflowStart 0x40 0x55400000) 3 = .underflow ∧
    slotType codec (start .pa20 0x40 [(3, slot 0 7 0x3109460A)]) 3 = .underflowInexact ∧
    (enabled .U (underflowStart 0x42 0x55400000).status = true ∧ enabled .U (underflowStart 0x40 0x55400000).status = false ∧
      enabled .I (underflowStart 0x41 0x55400000).status = true ∧ enabled .U (underflowStart 0x41 0x55400000).status = false) ∧
    slotDest .pa20 (slotInstr codec (underflowStart 0x40 0x55400000) 3) = some (20, .sgl) ∧
    slotDest .pa20 0x188531C8#32 = none ∧
    (let w : Enc .sgl := 0x55400000#32;
      (isFinite w = true ∧ isZero w = false ∧ |val w| < pow2 (Fmt.sgl.emin + Config.wrap .sgl)) ∧
      IsRounding .rn (signOf w) (Fmt.sgl.emin - Fmt.sgl.prec + 1) (|val w| * pow2 (-(Config.wrap .sgl : Int)) : ℚ) (pow2 (-148)) ∧
      pow2 (-148) ≠ |val w| * pow2 (-(Config.wrap .sgl : Int))) ∧
    (let w : Enc .sgl := 0x59800000#32;
      IsRounding .rn (signOf w) (Fmt.sgl.emin - Fmt.sgl.prec + 1) (|val w| * pow2 (-(Config.wrap .sgl : Int)) : ℚ) (pow2 (-140)) ∧
      pow2 (-140) = |val w| * pow2 (-(Config.wrap .sgl : Int))) ∧
    isFinite (asS 0x7F800000#32) = false ∧ isZero (asS 0#32) = true ∧
    ¬ |val (asS 0x60800000#32)| < pow2 (Fmt.sgl.emin + Config.wrap .sgl) := by
  refine ⟨⟨by decide, by decide⟩, by decide +kernel, by decide +kernel, by decide +kernel, by decide +kernel,
    by decide +kernel, ⟨by decide +kernel, ?_, by decide +kernel⟩, ⟨?_, by decide +kernel⟩, by decide, by decide,
    by decide +kernel⟩
  · exact isRounding_of_eq (mul_nonneg (abs_nonneg _) (pow2_pos _).le) (by decide +kernel)
  · exact isRounding_of_eq (mul_nonneg (abs_nonneg _) (pow2_pos _).le) (by decide +kernel)

/-- T-E8, T-E9, the trap enabled, no destination, a NaN in the destination. -/
theorem witness_OverflowSlotSubstitutes :
    isSlot 1 ∧ slotType codec (start .pa20 0x240 [(1, slot 0 3 0x30850E0B), (22, 0x5FE00000)]) 1 = .overflow ∧
    slotType codec (start .pa20 0x240 [(1, slot 0 6 0x30850E0B)]) 1 = .overflowInexact ∧
    (enabled .O 0x44#32 = true ∧ enabled .O 0x41#32 = false ∧ enabled .I 0x41#32 = true ∧ enabled .I 0x40#32 = false) ∧
    slotDest .pa20 0x30850E0B#32 = some (22, .dbl) ∧ slotDest .pa20 0x188531C8#32 = none ∧
    isNaN (asD 0x5FE0000000000000#64) = false ∧ isNaN (asD 0x7FF0000000000001#64) = true := by
  refine ⟨⟨by decide, by decide⟩, by decide +kernel, by decide +kernel, by decide, by decide +kernel, by decide +kernel,
    by decide, by decide⟩

theorem witness_SlotDestinationRule :
    (decode .pa20 0x30850E0B#32 = .ok (.fadd .op0C .dbl ⟨4, false⟩ ⟨5, false⟩ ⟨11, false⟩) ∧
      slotDest .pa20 0x30850E0B#32 = some (22, .dbl) ∧ Form.op0C.dst .dbl ⟨11, false⟩ = .word 22) ∧
    (decode .pa20 0xBB18C119#32 = .ok (.fmpyfadd .sgl ⟨24, false⟩ ⟨24, false⟩ ⟨24, true⟩ ⟨25, false⟩) ∧
      dstOf (fusedIndex .sgl ⟨25, false⟩) = .word 50) ∧
    (field 0x188531C8#32 0 5 = 0x06 ∧ field 0x980110E4#32 0 5 = 0x26 ∧
      field 0x30850C09#32 0 5 = 0x0C ∧ field 0x30850C09#32 21 22 = 2) ∧
    decode .pa20 0x38810A46#32 = .ok (.fcnvfx .op0E .dbl .sgl ⟨4, false⟩ ⟨6, true⟩) := by decide +kernel

/-- A clean end (T-E4) and a signalled one (T-E10). -/
theorem witness_QueueEndsCleanOrTerminal :
    codec.Lawful ∧ (∃ t, decodeQueue codec (start .pa20 0x40 []) = .next t) ∧
    (∃ t, decodeQueue codec (start .pa20 0x40 [(1, slot 0 1 0x30850E0B)]) = .next t) :=
  ⟨codec_lawful, answers_next (by decide +kernel), answers_next (by decide +kernel)⟩

theorem witness_FirstTerminalSlotDecides :
    codec.Lawful ∧ ∃ t, decodeQueue codec (start .pa20 0x40 [(2, slot 0 1 0x30850E0B), (3, slot 0 8 0x30802006)]) = .next t ∧
      bitAt t.status tBit = true :=
  ⟨codec_lawful, answersWith_next (p := fun t => bitAt t.status tBit) (by decide +kernel)⟩

theorem witness_NothingFaults : codec.Lawful := codec_lawful

end Sys2Proof.Tests
end

section
/-! The four bit-field primitives of R11 on a nonempty field inside the word: the value of `extract` and `signedExtract`,
and `mask` bit by bit (`bitAt_deposit` is the rule of `deposit`). -/

namespace Sys2Proof

/-- Bit `i` of a field, counted from its low end, is the bit of the word `i` places before the field's last. -/
theorem testBit_field (w : Word) {a c i : Nat} (hc : c < 32) (hi : i ≤ c - a) (hac : a ≤ c) :
    (field w a c).testBit i = bitAt w (c - i) := by
  have hlow : i < c - a + 1 := by omega
  have hplace : i + (31 - c) = 31 - (c - i) := by omega
  rw [field, Nat.testBit_mod_two_pow, Nat.testBit_div_two_pow, decide_eq_true hlow, Bool.true_and, hplace,
    bitAt, BitVec.getLsbD]

/-- A field named by its start and length is below 2 to its length. -/
theorem field_lt_two_pow_len (w : Word) (start : Nat) {len : Nat} (hlen : 0 < len) :
    field w start (start + len - 1) < 2 ^ len := by
  have hwidth : start + len - 1 - start + 1 = len := by omega
  simpa only [hwidth] using field_lt w start (start + len - 1)

theorem toNat_extract (w : Word) {start len : Nat} (hlen : 0 < len) (h : start + len ≤ 32) :
    (extract start len w).toNat = field w start (start + len - 1) := by
  have hpow : 2 ^ len ≤ 2 ^ 32 := Nat.pow_le_pow_right (by decide) (by omega)
  rw [extract, BitVec.toNat_ofNat, Nat.mod_eq_of_lt ((field_lt_two_pow_len w start hlen).trans_le hpow)]

/-- The sign of a field read as a `len`-bit number is its first bit. -/
theorem msb_ofNat_field (w : Word) {start len : Nat} (hlen : 0 < len) (h : start + len ≤ 32) :
    (BitVec.ofNat len (field w start (start + len - 1))).msb = bitAt w start := by
  have htop : start + len - 1 - (len - 1) = start := by omega
  rw [BitVec.msb_eq_getLsbD_last, BitVec.getLsbD_ofNat, testBit_field w (by omega) (by omega) (by omega), htop,
    decide_eq_true (by omega), Bool.true_and]

theorem toInt_signedExtract (w : Word) {start len : Nat} (hlen : 0 < len) (h : start + len ≤ 32) :
    (signedExtract start len w).toInt =
      if bitAt w start then (field w start (start + len - 1) : Int) - 2 ^ len
      else field w start (start + len - 1) := by
  rw [signedExtract, BitVec.toInt_signExtend_of_le (by omega), BitVec.toInt_eq_msb_cond, msb_ofNat_field w hlen h,
    BitVec.toNat_ofNat, Nat.mod_eq_of_lt (field_lt_two_pow_len w start hlen), Nat.cast_pow, Nat.cast_ofNat]

/-- `mask` keeps the bits of its field and clears the others. -/
theorem bitAt_mask (w : Word) {start len b : Nat} (h : start + len ≤ 32) (hb : b < 32) :
    bitAt (mask start len w) b = (decide (start ≤ b ∧ b < start + len) && bitAt w b) := by
  have hplace : (32 - start - len ≤ 31 - b ∧ 31 - b < 32 - start) ↔ (start ≤ b ∧ b < start + len) := by omega
  rw [bitAt, mask, BitVec.getLsbD_and, getLsbD_fieldMask start len _ h, Bool.and_comm, decide_eq_decide.mpr hplace,
    bitAt]

/-- Settles O18: each primitive by its own rule; the bit `deposit` takes from the value is counted from the low end in
`bitAt_deposit` and from the high end here. -/
theorem bitFieldPrimitives : Obligations.BitFieldPrimitives := by
  intro value w start len b hlen h hb
  refine ⟨toNat_extract w hlen h, toInt_signedExtract w hlen h, bitAt_mask w h hb, ?_⟩
  rw [bitAt_deposit value w start len b h hb]
  by_cases hin : start ≤ b ∧ b < start + len
  · have hplace : 31 - (b + 32 - (start + len)) = start + len - 1 - b := by omega
    rw [if_pos hin, if_pos hin, bitAt, hplace]
  · rw [if_neg hin, if_neg hin]

end Sys2Proof
end

section
/-! The start state's words, and the status-word invariant of every step (10_state.md R27, R30, R33, R36): each call a step
can run keeps what `StatusSince` says, and `StatusSince.trans` carries it on. -/

namespace Sys2Proof.Machine

@[simp] theorem State.word_reset (i : Fin 64) : State.reset.word i = 0#32 := by
  simp only [State.reset, State.word, Fin.getElem_fin, Vector.getElem_replicate]

@[simp] theorem State.status_reset : State.reset.status = 0#32 := State.word_reset 0

/-- Settles O8: the words by the rule of a replicated vector, the other fields as `State.reset` writes them. -/
theorem resetStateValues : Obligations.ResetStateValues := ⟨State.word_reset, rfl, rfl, rfl⟩

/-- Settles O9: a state meets the invariant relative to its own variant and status word. -/
theorem resetStatusSince : Obligations.ResetStatusSince := by
  have hself : StatusSince State.reset.variant State.reset.status State.reset := .refl State.reset
  rwa [State.status_reset] at hself

theorem StatusSince.drained (s : State) : StatusSince s.variant s.status s.drained :=
  .of_bits rfl fun _ hb h => bitAt_setT_ne s false hb h

/-- A whole run of the decoder keeps what its slots keep; its end, clean or terminal, changes no bit but T. -/
theorem decodeQueue_keeps_statusSince {p : QueueParams} (hp : p.Lawful) {s t : State} (h : decodeQueue p s = .next t) :
    StatusSince s.variant s.status t := by
  have hend := decodeQueue_end hp s
  rw [h] at hend
  cases hend with
  | drained s' hsince => exact hsince.trans (.drained s')
  | signaled s' g hsince _ _ k => exact hsince.trans (Visited.terminal s' k g).since

theorem runCall_keeps_statusSince {c : Call} {s t : State} (h : runCall c s = .next t) :
    StatusSince s.variant s.status t := by
  cases c with
  | dispatch w => exact (Visited.dispatch (w := w) h 1).since
  | decodeQueue => exact decodeQueue_keeps_statusSince Config.queue.property h

/-- Everything a step can do when it answers a next state. -/
theorem step_next {s t : State} (h : step s = .next t) :
    (s.calls = [] ∧ t = s) ∨ ∃ c rest, s.calls = c :: rest ∧ runCall c { s with calls := rest } = .next t := by
  rw [step, runNext] at h
  cases hcalls : s.calls with
  | nil =>
    rw [hcalls] at h
    cases h
    exact .inl ⟨rfl, rfl⟩
  | cons c rest =>
    rw [hcalls] at h
    exact .inr ⟨c, rest, rfl, h⟩

/-- Taking a call off the list changes neither the status word nor the variant, so only what the call runs counts. -/
theorem step_keeps_statusSince {s t : State} (h : step s = .next t) : StatusSince s.variant s.status t := by
  obtain ⟨-, rfl⟩ | ⟨c, rest, -, hrun⟩ := step_next h
  · exact .refl t
  · exact runCall_keeps_statusSince (s := { s with calls := rest }) hrun

/-- Settles O10: what the step keeps of the state before it, carried over to the earlier status word. -/
theorem stepKeepsStatusSince : Obligations.StepKeepsStatusSince :=
  fun _ _ _ _ hs hstep => hs.trans (step_keeps_statusSince hstep)

end Sys2Proof.Machine
end

section
/-! The frame of every instruction, read off `exec_next`: it returned UNIMPLEMENTED and wrote nothing, or it ended as
`Ran` says. -/

namespace Sys2Proof.Machine

/-- Settles O11: the slots lie outside the data words that an instruction may write (`Ran.slot`). -/
theorem instructionWordFrame : Obligations.InstructionWordFrame := by
  intro i s t h
  obtain rfl | hran := exec_next h
  · exact ⟨fun _ _ _ => rfl, fun _ _ => rfl, rfl, rfl, .unimplemented, rfl⟩
  · obtain ⟨o, houtcome, -⟩ := hran.outcome
    exact ⟨hran.words, fun _ hj => hran.slot hj, hran.variant, hran.calls, o, houtcome⟩

theorem Ran.onlyRaises {i : Instr} {s t : State} (h : Ran i s t) (hc : i.isCompare = false) :
    OnlyRaises i.mayRaise s.status t.status := by
  obtain ⟨_, -, hflags⟩ := h.ends hc
  exact hflags.raises

/-- The status word FCMP leaves, C and the PA20 compare queue apart (R312, R316). -/
theorem Ran.compare_bit {i : Instr} {s t : State} (h : Ran i s t) (hc : i.isCompare = true) {b : Nat} (hb : b < 32)
    (hbc : b ≠ cBit) (hq : ¬ (s.variant = .pa20 ∧ 6 ≤ b ∧ b ≤ 20)) :
    bitAt t.status b = bitAt s.status b ∨ (b = Exc.V.flagBit ∧ bitAt t.status b = true) := by
  obtain ⟨F, x, y, c, -, -, -, hbits⟩ := h.compare hc
  rw [hbits b hb hq, kFcmp_bit s.status x y c hb, if_neg hbc]
  split
  case isTrue hv => exact .inr ⟨hv.1, rfl⟩
  case isFalse => exact .inl rfl

/-- Settles O12: the two clauses are the two ends of `Ran`. -/
theorem instructionStatusFrame : Obligations.InstructionStatusFrame := by
  intro i s t h
  obtain rfl | hran := exec_next h
  · exact ⟨fun _ => .refl _ s.status, fun _ _ _ _ _ => .inl rfl⟩
  · exact ⟨hran.onlyRaises, fun hc _ hb hbc hq => hran.compare_bit hc hb hbc hq⟩

end Sys2Proof.Machine
end

section
/-! What a source operand reads (10_state.md R23 to R25; 30_encoding.md R87, R88): the index each numbering computes, when
it is 0, and the value read there. -/

namespace Sys2Proof

theorem RegSel.left_eq_ofNat (r : RegSel) : r.left = Fin.ofNat 64 (2 * r.fld) := by
  apply Fin.ext
  simp only [RegSel.left, Fin.ofNat]
  omega

theorem RegSel.single_eq_ofNat (r : RegSel) : r.single = Fin.ofNat 64 (2 * r.fld + r.half.toNat) := by
  have hhalf := Bool.toNat_le r.half
  apply Fin.ext
  simp only [RegSel.single, Fin.ofNat]
  omega

theorem multiIndex_sgl_eq_ofNat (f : Fin 32) : multiIndex .sgl f = Fin.ofNat 64 (2 * (16 + f % 16) + f / 16) := by
  apply Fin.ext
  simp only [multiIndex, Fin.ofNat]
  omega

theorem RegSel.left_eq_zero {r : RegSel} : r.left = 0 ↔ r.fld = 0 := by
  simp only [RegSel.left, Fin.ext_iff, Fin.val_zero]
  omega

theorem RegSel.single_eq_zero {r : RegSel} : r.single = 0 ↔ r.fld = 0 ∧ r.half = false := by
  simp only [RegSel.single, Fin.ext_iff, Fin.val_zero, ← Bool.toNat_eq_zero]
  omega

/-- The singles of the multiple instructions start at FR16, so none is the zero register (R87). -/
theorem multiIndex_sgl_ne_zero (f : Fin 32) : multiIndex .sgl f ≠ 0 := by
  simp only [multiIndex, ne_eq, Fin.ext_iff, Fin.val_zero]
  omega

namespace Machine

/-- The more significant word of a pair comes first (R23). -/
theorem State.read_dbl_ofNat (s : State) (n : Nat) :
    s.read .dbl (Fin.ofNat 64 n) = s.word (Fin.ofNat 64 n) ++ s.word (Fin.ofNat 64 (n + 1)) := by
  have hnext : Fin.ofNat 64 n + 1 = Fin.ofNat 64 (n + 1) := by
    apply Fin.ext
    simp [Fin.ofNat, Fin.val_add]
  rw [← hnext, State.read]

/-- Index 0 reads zero, any other index its word or pair (R24, R25). -/
theorem srcVal_srcOf (s : State) (F : Fmt) (i : Fin 64) :
    srcVal s F (srcOf i) = some (if i = 0 then 0 else s.read F i) := by
  unfold srcOf
  split <;> rfl

theorem srcVal_left_sgl (s : State) (r : RegSel) :
    srcVal s .sgl (srcOf r.left) = some (if r.fld = 0 then 0#32 else s.word (Fin.ofNat 64 (2 * r.fld))) := by
  rw [srcVal_srcOf, ← RegSel.left_eq_ofNat]
  simp only [RegSel.left_eq_zero]
  rfl

theorem srcVal_left_dbl (s : State) (r : RegSel) :
    srcVal s .dbl (srcOf r.left) = some (if r.fld = 0 then 0#64
      else s.word (Fin.ofNat 64 (2 * r.fld)) ++ s.word (Fin.ofNat 64 (2 * r.fld + 1))) := by
  rw [srcVal_srcOf, ← State.read_dbl_ofNat, ← RegSel.left_eq_ofNat]
  simp only [RegSel.left_eq_zero]
  rfl

theorem srcVal_single_sgl (s : State) (r : RegSel) :
    srcVal s .sgl (srcOf r.single) =
      some (if r.fld = 0 ∧ r.half = false then 0#32 else s.word (Fin.ofNat 64 (2 * r.fld + r.half.toNat))) := by
  rw [srcVal_srcOf, ← RegSel.single_eq_ofNat]
  simp only [RegSel.single_eq_zero]
  rfl

/-- The double 0E source: the zero substitution comes before the alignment, which may then reach the status word (R95,
R98). -/
theorem srcVal_op0E_dbl (s : State) (r : RegSel) :
    srcVal s .dbl (Form.op0E.src .dbl r) =
      if r.fld = 0 then (if r.half then none else some 0#64)
      else some (s.word (Fin.ofNat 64 (2 * r.fld)) ++ s.word (Fin.ofNat 64 (2 * r.fld + 1))) := by
  rw [← State.read_dbl_ofNat, ← RegSel.left_eq_ofNat]
  simp only [Form.src, RegSel.single_eq_zero, RegSel.left_eq_zero]
  by_cases hfld : r.fld = 0
  · cases hhalf : r.half <;> simp [hfld, srcVal]
  · simp [hfld, srcVal]

theorem srcVal_multi_sgl (s : State) (f : Fin 32) :
    srcVal s .sgl (srcOf (multiIndex .sgl f)) = some (s.word (Fin.ofNat 64 (2 * (16 + f % 16) + f / 16))) := by
  rw [srcVal_srcOf, if_neg (multiIndex_sgl_ne_zero f), multiIndex_sgl_eq_ofNat]
  rfl

/-- Settles O17: every numbering but the double 0E one is `srcOf` of the left word of the register (the doubles of the fused
and the multiple instructions too), of the word its half bit picks, or of a single of the multiple instructions. -/
theorem sourceOperandReads : Obligations.SourceOperandReads := by
  intro s f h
  exact ⟨srcVal_left_sgl s ⟨f, h⟩, srcVal_left_dbl s ⟨f, h⟩, srcVal_single_sgl s ⟨f, h⟩, srcVal_op0E_dbl s ⟨f, h⟩,
    srcVal_single_sgl s ⟨f, h⟩, srcVal_left_dbl s ⟨f, h⟩, srcVal_multi_sgl s f, srcVal_left_dbl s ⟨f, h⟩⟩

end Machine

end Sys2Proof
end

section
/-! Decoding and encoding (30_encoding.md R80 to R101): the round trip over every constructor, what a decoded word's fields
allow, and that the decoder does not read the ignored bits of R99. -/

namespace Sys2Proof

/-- Decode of encode for every constructor, from the per-instruction laws. -/
theorem decode_encode (v : Variant) (i : Instr) (hwf : i.wf v = true) : decode v (encode v i) = .ok i := by
  cases i with
  | fcpy form m r t => exact Laws.RoundTrip.fcpy form m r t v hwf
  | fabs form m r t => exact Laws.RoundTrip.fabs form m r t v hwf
  | fsqrt form F r t => exact Laws.RoundTrip.fsqrt form F r t v hwf
  | frnd form F r t => exact Laws.RoundTrip.frnd form F r t v hwf
  | fneg form m r t => exact Laws.RoundTrip.fneg form m r t v hwf
  | fnegabs form m r t => exact Laws.RoundTrip.fnegabs form m r t v hwf
  | fcnvff form c r t => exact Laws.RoundTrip.fcnvff form c r t v hwf
  | fcnvxf form sf df r t => exact Laws.RoundTrip.fcnvxf form sf df r t v hwf
  | fcnvfx form sf df r t => exact Laws.RoundTrip.fcnvfx form sf df r t v hwf
  | fcnvfxt form sf df r t => exact Laws.RoundTrip.fcnvfxt form sf df r t v hwf
  | fcnvuf form sf df r t => exact Laws.RoundTrip.fcnvuf form sf df r t v hwf
  | fcnvfu form sf df r t => exact Laws.RoundTrip.fcnvfu form sf df r t v hwf
  | fcnvfut form sf df r t => exact Laws.RoundTrip.fcnvfut form sf df r t v hwf
  | fcmp form F r1 r2 y c => exact Laws.RoundTrip.fcmp form F r1 r2 y c v hwf
  | ftest form fmt => exact Laws.RoundTrip.ftest form fmt v hwf
  | fadd form F r1 r2 t => exact Laws.RoundTrip.fadd form F r1 r2 t v hwf
  | fsub form F r1 r2 t => exact Laws.RoundTrip.fsub form F r1 r2 t v hwf
  | fmpy form F r1 r2 t => exact Laws.RoundTrip.fmpy form F r1 r2 t v hwf
  | fdiv form F r1 r2 t => exact Laws.RoundTrip.fdiv form F r1 r2 t v hwf
  | frem form F r1 r2 t => exact Laws.RoundTrip.frem form F r1 r2 t v hwf
  | xmpyu F r1 r2 t => exact Laws.RoundTrip.xmpyu F r1 r2 t v hwf
  | fmpyadd F rm1 rm2 ta ra tm => exact Laws.RoundTrip.fmpyadd F rm1 rm2 ta ra tm v hwf
  | fmpysub F rm1 rm2 ta ra tm => exact Laws.RoundTrip.fmpysub F rm1 rm2 ta ra tm v hwf
  | fmpyfadd F rm1 rm2 ra t => exact Laws.RoundTrip.fmpyfadd F rm1 rm2 ra t v hwf
  | fmpynfadd F rm1 rm2 ra t => exact Laws.RoundTrip.fmpynfadd F rm1 rm2 ra t v hwf
  | fid => exact Laws.RoundTrip.fid v hwf

/-- Settles O1: the fields of the encoder's word are the operands (Laws/Decode.lean), and the decoder reads those fields. -/
theorem decodeOfEncode : Obligations.DecodeOfEncode := decode_encode

/-! ## What a decoded word's fields allow

Each class's decoder, inverted once: the instruction it answers is well-formed and the word's sub-op and format fields are
assigned ones. -/

@[simp] theorem src1Sel_wf (form : Form) (w : Word) : (src1Sel form w).wf form = true := decodeSel_wf form w 6 10 24

@[simp] theorem src2Sel_wf (form : Form) (w : Word) : (src2Sel form w).wf form = true := decodeSel_wf form w 11 15 19

@[simp] theorem dstSel_wf (form : Form) (w : Word) : (dstSel form w).wf form = true := decodeSel_wf form w 27 31 25

theorem decodeFmt_ok {n : Nat} {F : Fmt} (h : decodeFmt n = .ok F) : n = F.code := by
  unfold decodeFmt at h
  split at h <;> cases h <;> rfl

theorem decodeMoveFmt_ok {n : Nat} {m : MoveFmt} (h : decodeMoveFmt n = .ok m) : n = m.code := by
  unfold decodeMoveFmt at h
  split at h <;> cases h <;> rfl

theorem MoveFmt.code_ne_two (m : MoveFmt) : m.code ≠ 2 := by
  cases m with
  | num F => cases F <;> decide
  | quad => decide

theorem Fmt.code_inj {F G : Fmt} (h : F.code = G.code) : F = G := by
  cases F <;> cases G
  case sgl.sgl | dbl.dbl => rfl
  all_goals cases h

/-- FCNVFF has two different formats (R289). -/
theorem decodeFloatConv_ok {sf df : Fmt} {c : FloatConv} (h : decodeFloatConv sf df = .ok c) : sf ≠ df := by
  rintro rfl
  cases sf <;> cases h

/-- Class 0 (R94 to R96): an assigned sub-op, no format 2, and no quad form but a move's. -/
theorem decodeClass0_ok (v : Variant) {form : Form} {w : Word} {i : Instr} (h : decodeClass0 form w = .ok i) :
    i.wf v = true ∧ 2 ≤ field w 16 18 ∧ field w 19 20 ≠ 2 ∧
      (field w 16 18 = 4 ∨ field w 16 18 = 5 → field w 19 20 ≠ 3) := by
  have hmove {m : MoveFmt} (hm : decodeMoveFmt (field w 19 20) = .ok m) : field w 19 20 ≠ 2 :=
    decodeMoveFmt_ok hm ▸ m.code_ne_two
  have hnum {F : Fmt} (hF : decodeFmt (field w 19 20) = .ok F) : field w 19 20 < 2 := decodeFmt_ok hF ▸ F.code_lt
  unfold decodeClass0 at h
  split at h
  case h_7 => cases h
  case h_3 hsub | h_4 hsub =>
    obtain ⟨F, hF, rfl⟩ := except_map_ok h
    have := hnum hF
    exact ⟨by simp [Instr.wf], by omega, by omega, by omega⟩
  all_goals
    obtain ⟨m, hm, rfl⟩ := except_map_ok h
    exact ⟨by simp [Instr.wf], by omega, hmove hm, by omega⟩

/-- Sub-ops of 4 and more need the 3-bit field of PA20 (R84). -/
theorem hasUnsigned_of_convSub {v : Variant} {w : Word} (h : 4 ≤ convSub v w) : v.hasUnsigned = true := by
  cases v with
  | pa11 => exact absurd (field_lt w 15 16) (Nat.not_lt.2 h)
  | pa20 => rfl

/-- Class 1 (R84, R94 to R96, R289): two numeric formats, an assigned sub-op, and no FCNVFF of equal formats. -/
theorem decodeClass1_ok {v : Variant} {form : Form} {w : Word} {i : Instr} (h : decodeClass1 v form w = .ok i) :
    i.wf v = true ∧ field w 19 20 < 2 ∧ field w 17 18 < 2 ∧ convSub v w ≠ 4 ∧
      (convSub v w = 0 → field w 19 20 ≠ field w 17 18) := by
  cases hsf : decodeFmt (field w 19 20) with
  | error e => rw [decodeClass1, hsf] at h; cases h
  | ok sf =>
  cases hdf : decodeFmt (field w 17 18) with
  | error e => rw [decodeClass1, hsf, hdf] at h; cases h
  | ok df =>
  have hs := sf.code_lt
  have hd := df.code_lt
  rw [decodeClass1, hsf, hdf] at h
  rw [decodeFmt_ok hsf, decodeFmt_ok hdf]
  simp only [bind, Except.bind] at h
  split at h
  case h_1 hsub =>
    obtain ⟨c, hc, rfl⟩ := except_map_ok h
    exact ⟨by simp [Instr.wf], hs, hd, by omega, fun _ heq => decodeFloatConv_ok hc (Fmt.code_inj heq)⟩
  case h_2 hsub | h_3 hsub | h_4 hsub =>
    cases h
    exact ⟨by simp [Instr.wf], hs, hd, by omega, by omega⟩
  case h_5 hsub | h_6 hsub | h_7 hsub =>
    cases h
    have hv : v.hasUnsigned = true := hasUnsigned_of_convSub (w := w) (by omega)
    exact ⟨by simp [Instr.wf, hv], hs, hd, by omega, by omega⟩
  case h_8 => cases h

/-- FCMP has a numeric format; its `y` field is the only part that can be ill-formed (R311). -/
theorem decodeCompare_ok {form : Form} {w : Word} {i : Instr} (h : decodeCompare form w = .ok i) :
    fmtField form w < 2 ∧ ∀ v, compareFieldWf v (Fin.ofNat 8 (field w 16 18)) = true → i.wf v = true := by
  obtain ⟨F, hF, rfl⟩ := except_map_ok h
  exact ⟨decodeFmt_ok hF ▸ F.code_lt, fun v hv => by simp only [Instr.wf, hv, src1Sel_wf, src2Sel_wf, Bool.and_self]⟩

theorem fmtField_op0E_lt (w : Word) : fmtField .op0E w < 2 := field_lt w 20 20

theorem decodeTest_ok {form : Form} {w : Word} {i : Instr} (h : decodeTest form w = .ok i) (v : Variant) :
    i.wf v = true := by
  cases h
  cases form with
  | op0C => rfl
  | op0E =>
    have hlt := fmtField_op0E_lt w
    simp only [Instr.wf, testFormatWf, decide_eq_true_eq, Fin.ofNat]
    omega

/-- Class 2 (R94, R311): an assigned sub-op under PA11, and a numeric format in a compare. -/
theorem decodeClass2_ok {v : Variant} {form : Form} {w : Word} {i : Instr} (h : decodeClass2 v form w = .ok i) :
    i.wf v = true ∧ (v = .pa11 → field w 16 18 < 2) ∧
      ((v = .pa20 → bitAt w 26 = false) → (v = .pa11 → field w 16 18 = 0) → fmtField form w < 2) := by
  cases v with
  | pa20 =>
    rw [decodeClass2] at h
    cases h26 : bitAt w 26 with
    | true =>
      rw [h26] at h
      exact ⟨decodeTest_ok h .pa20, by simp, by simp⟩
    | false =>
      rw [h26] at h
      obtain ⟨hF, hwf⟩ := decodeCompare_ok h
      exact ⟨hwf .pa20 rfl, by simp, fun _ _ => hF⟩
  | pa11 =>
    rw [decodeClass2] at h
    split at h
    case h_1 hy =>
      obtain ⟨hF, hwf⟩ := decodeCompare_ok h
      exact ⟨hwf .pa11 (by rw [hy]; rfl), by omega, fun _ _ => hF⟩
    case h_2 hy => exact ⟨decodeTest_ok h .pa11, by omega, by simp [hy]⟩
    case h_3 => cases h

/-- Class 3 (R94, R95): an assigned sub-op and a numeric format. -/
theorem decodeClass3_ok (v : Variant) {form : Form} {w : Word} {i : Instr} (h : decodeClass3 form w = .ok i) :
    i.wf v = true ∧ field w 16 18 < 5 ∧ fmtField form w < 2 := by
  have hnum {F : Fmt} (hF : decodeFmt (fmtField form w) = .ok F) : fmtField form w < 2 := decodeFmt_ok hF ▸ F.code_lt
  unfold decodeClass3 at h
  simp only at h
  split at h
  case h_6 => cases h
  case h_3 hsub =>
    cases form with
    | op0C =>
      obtain ⟨F, hF, rfl⟩ := except_map_ok h
      exact ⟨by simp [Instr.wf], by omega, hnum hF⟩
    | op0E =>
      simp only at h
      split at h
      all_goals
        obtain ⟨F, hF, rfl⟩ := except_map_ok h
        exact ⟨by simp [Instr.wf], by omega, hnum hF⟩
  all_goals
    obtain ⟨F, hF, rfl⟩ := except_map_ok h
    exact ⟨by simp [Instr.wf], by omega, hnum hF⟩

theorem decodeCop_ok {v : Variant} {form : Form} {w : Word} {i : Instr} (h : decodeCop v form w = .ok i) :
    i.wf v = true := by
  unfold decodeCop at h
  split at h
  · exact (decodeClass0_ok v h).1
  · exact (decodeClass1_ok h).1
  · exact (decodeClass2_ok h).1
  · exact (decodeClass3_ok v h).1

/-- Settles O2: 0C and 0E by class; the other formats have no ill-formed instruction. -/
theorem decodedIsWellFormed : Obligations.DecodedIsWellFormed := by
  intro v w i h
  unfold decode at h
  split at h
  · cases h
    rfl
  split at h
  case h_1 | h_2 => exact decodeCop_ok h
  case h_3 | h_4 =>
    cases h
    rfl
  case h_5 =>
    cases h
    cases bitAt w 26 <;> rfl
  case h_6 => cases h

/-! ## The ignored bits -/

/-- Outside the bits of `L` the two words agree. -/
def AgreeOutside (L : List Nat) (w w' : Word) : Prop := ∀ b, b < 32 → b ∉ L → bitAt w' b = bitAt w b

theorem AgreeOutside.bitAt_eq {L : List Nat} {w w' : Word} (h : AgreeOutside L w w') (b : Nat)
    (hb : b < 32 ∧ b ∉ L) : bitAt w' b = bitAt w b := h b hb.1 hb.2

theorem AgreeOutside.field_eq {L : List Nat} {w w' : Word} (h : AgreeOutside L w w') (a c : Nat)
    (hac : a ≤ c ∧ c < 32 ∧ ∀ b ∈ L, b < a ∨ c < b) : field w' a c = field w a c := by
  obtain ⟨hle, hlt, hL⟩ := hac
  refine field_congr hle hlt fun b hab hbc => h b (by omega) fun hb => ?_
  have := hL b hb
  omega

/-- No class ignores a bit of bits 0..10 or 16..22 (R99): the major opcode, the class and the sub-op stand there. -/
theorem ignoredBits_bounds (v : Variant) (w : Word) : ∀ b ∈ ignoredBits v w, 11 ≤ b ∧ b < 16 ∨ 22 < b := by
  cases v
  all_goals
    simp only [ignoredBits, reduceIte, reduceCtorEq]
    split
    case h_8 => split <;> decide
    all_goals decide

theorem AgreeOutside.major_eq {v : Variant} {w w' : Word} (h : AgreeOutside (ignoredBits v w) w w') :
    field w' 0 5 = field w 0 5 :=
  h.field_eq 0 5 ⟨by omega, by omega, fun b hb => by have := ignoredBits_bounds v w b hb; omega⟩

theorem AgreeOutside.class_eq {v : Variant} {w w' : Word} (h : AgreeOutside (ignoredBits v w) w w') :
    field w' 21 22 = field w 21 22 :=
  h.field_eq 21 22 ⟨by omega, by omega, fun b hb => by have := ignoredBits_bounds v w b hb; omega⟩

section Classes
variable {v : Variant} {form : Form} {w w' : Word} (h : AgreeOutside (ignoredBits v w) w w')
  (hop : field w 0 5 = form.code)
include h hop

/-! For each numbering format (and variant, where R99 names it) the ignored bits are a literal list, and `decide` checks each
field that the class's decoder reads against it. -/

theorem decodeClass0_of_agree (hcls : field w 21 22 = 0) : decodeClass0 form w' = decodeClass0 form w := by
  cases form
  all_goals
    simp only [ignoredBits, hop, hcls, Form.code] at h
    simp (disch := decide) only [decodeClass0, src1Sel, dstSel, decodeSel, regField, h.field_eq, h.bitAt_eq]

theorem decodeClass1_of_agree (hcls : field w 21 22 = 1) : decodeClass1 v form w' = decodeClass1 v form w := by
  cases v <;> cases form
  all_goals
    simp only [ignoredBits, hop, hcls, Form.code] at h
    simp (disch := decide) only [decodeClass1, convSub, src1Sel, dstSel, decodeSel, regField, h.field_eq, h.bitAt_eq]

theorem decodeClass2_of_agree (hcls : field w 21 22 = 2) : decodeClass2 v form w' = decodeClass2 v form w := by
  cases v <;> cases form
  all_goals
    simp only [ignoredBits, hop, hcls, Form.code] at h
    simp (disch := decide) only [decodeClass2, decodeCompare, decodeTest, fmtField, src1Sel, src2Sel, decodeSel, regField,
      h.field_eq, h.bitAt_eq]

/-- Bit 23 of an 0E word is read in sub-op 2 only, where it is not ignored (R95, R99). -/
theorem decodeClass3_of_agree (hcls : field w 21 22 = 3) : decodeClass3 form w' = decodeClass3 form w := by
  cases form with
  | op0C =>
    simp only [ignoredBits, hop, hcls, Form.code] at h
    simp (disch := decide) only [decodeClass3, fmtField, src1Sel, src2Sel, dstSel, decodeSel, regField, h.field_eq]
  | op0E =>
    simp only [ignoredBits, hop, hcls, Form.code] at h
    by_cases hsub : field w 16 18 = 2
    · simp only [hsub, if_true] at h
      simp (disch := decide) only [decodeClass3, fmtField, src1Sel, src2Sel, dstSel, decodeSel, regField, h.field_eq,
        h.bitAt_eq]
    · simp only [hsub, if_false] at h
      simp (disch := decide) only [decodeClass3, fmtField, src1Sel, src2Sel, dstSel, decodeSel, regField, h.field_eq,
        h.bitAt_eq]
      split
      case h_3 hsub' => exact absurd hsub' hsub
      all_goals rfl

theorem decodeCop_of_agree : decodeCop v form w' = decodeCop v form w := by
  have hlt : field w 21 22 < 4 := field_lt w 21 22
  rw [decodeCop, decodeCop, h.class_eq]
  split
  case h_1 hcls => exact decodeClass0_of_agree h hop hcls
  case h_2 hcls => exact decodeClass1_of_agree h hop hcls
  case h_3 hcls => exact decodeClass2_of_agree h hop hcls
  case h_4 h0 h1 h2 =>
    change field w 21 22 ≠ 0 at h0
    change field w 21 22 ≠ 1 at h1
    change field w 21 22 ≠ 2 at h2
    exact decodeClass3_of_agree h hop (by omega)

end Classes

/-- Settles O4: in 0C and 0E class by class; any other word has no ignored bit, so the two words are one. -/
theorem ignoredBitsDecodeAlike : Obligations.IgnoredBitsDecodeAlike := by
  intro v w w' hw hw' (h : AgreeOutside (ignoredBits v w) w w')
  by_cases hcop : ∃ form : Form, field w 0 5 = form.code
  · obtain ⟨form, hop⟩ := hcop
    rw [decode_cop hw hop, decode_cop hw' (h.major_eq.trans hop), decodeCop_of_agree h hop]
  · have h0C : field w 0 5 ≠ 0x0C := fun heq => hcop ⟨.op0C, heq⟩
    have h0E : field w 0 5 ≠ 0x0E := fun heq => hcop ⟨.op0E, heq⟩
    have hnone : ignoredBits v w = [] := by simp [ignoredBits, h0C, h0E]
    rw [hnone] at h
    rw [word_ext fun b hb => h b hb List.not_mem_nil]

/-- A word that is the encoder's but for the ignored bits decodes to the instruction encoded. -/
theorem decode_of_agree_encode {v : Variant} {w : Word} {i : Instr} (hwf : i.wf v = true)
    (hfid : encode v i ≠ 0x30000000#32 ∧ w ≠ 0x30000000#32)
    (h : ∀ b, b < 32 → b ∉ ignoredBits v (encode v i) → bitAt w b = bitAt (encode v i) b) : decode v w = .ok i :=
  (ignoredBitsDecodeAlike v (encode v i) w hfid.1 hfid.2 h).trans (decode_encode v i hwf)

theorem decode_of_encode_eq {v : Variant} {w : Word} {i : Instr} (hwf : i.wf v = true) (h : encode v i = w) :
    decode v w = .ok i :=
  h ▸ decode_encode v i hwf

/-- Settles O3: each word is the encoding of its instruction, but for T-D18 under PA11, which sets the ignored bit 14 (R84,
R99). -/
theorem knownWordsDecode : Obligations.KnownWordsDecode := by
  refine ⟨?_, ?_, ?_, ?_, ?_, ?_, ?_, ?_, ?_, ?_⟩
  case refine_8 => exact decode_of_agree_encode rfl (by decide) (by decide)
  all_goals exact decode_of_encode_eq rfl rfl

end Sys2Proof
end

section
/-! A dispatch and a step (30_encoding.md R91, R93; 70_reset_and_hazards.md R381): the words the dispatcher rejects, what an
UNIMPLEMENTED return leaves, and which call a step runs. -/

namespace Sys2Proof.Machine

/-! ## Rejected words -/

/-- Whatever the reason of the rejection, the dispatcher answers UNIMPLEMENTED (R91, R93). -/
theorem dispatchWord_of_error {s : State} {w : Word} {e : Reject} (h : decode s.variant w = .error e) :
    dispatchWord w s = .next s.unimplemented := by
  rw [dispatchWord, h]

/-- A word that is no instruction is dispatched to UNIMPLEMENTED with nothing written. -/
theorem dispatchWord_of_undecodable {s : State} {w : Word} (h : ∀ i, decode s.variant w ≠ .ok i) :
    ∃ t, dispatchWord w s = .next t ∧ t.returned = .outcome .unimplemented ∧ WritesNothing s t := by
  cases hd : decode s.variant w with
  | ok i => exact absurd hd (h i)
  | error e => exact ⟨_, dispatchWord_of_error hd, rfl, unimplemented_writesNothing s⟩

/-- The major opcodes of the block (R81, R93). -/
theorem decode_major {v : Variant} {w : Word} {i : Instr} (h : decode v w = .ok i) :
    field w 0 5 = 0x0C ∨ field w 0 5 = 0x0E ∨ field w 0 5 = 0x06 ∨ field w 0 5 = 0x26 ∨ field w 0 5 = 0x2E := by
  unfold decode at h
  split at h
  case isTrue hfid => exact .inl (hfid ▸ rfl)
  case isFalse =>
    split at h
    case h_6 => cases h
    all_goals omega

section Cop
variable {v : Variant} {form : Form} {w : Word} {i : Instr} (hfid : w ≠ 0x30000000#32) (hop : field w 0 5 = form.code)
  (h : decode v w = .ok i)
include hfid hop h

theorem decodeClass0_of_decode (hcls : field w 21 22 = 0) : decodeClass0 form w = .ok i := by
  rwa [decode_cop hfid hop, decodeCop, hcls] at h

theorem decodeClass1_of_decode (hcls : field w 21 22 = 1) : decodeClass1 v form w = .ok i := by
  rwa [decode_cop hfid hop, decodeCop, hcls] at h

theorem decodeClass2_of_decode (hcls : field w 21 22 = 2) : decodeClass2 v form w = .ok i := by
  rwa [decode_cop hfid hop, decodeCop, hcls] at h

theorem decodeClass3_of_decode (hcls : field w 21 22 = 3) : decodeClass3 form w = .ok i := by
  rwa [decode_cop hfid hop, decodeCop, hcls] at h

end Cop

/-- Settles O5: each reserved field is excluded by what a decoded word of its class allows. -/
theorem reservedEncodingsAreUnimplemented : Obligations.ReservedEncodingsAreUnimplemented := by
  intro s w op cop cls sub fmt df hreserved
  refine dispatchWord_of_undecodable fun i h => ?_
  have hform (hc : cop) : ∃ form : Form, field w 0 5 = form.code := hc.elim (⟨.op0C, ·⟩) (⟨.op0E, ·⟩)
  have hne {n : Nat} (hcls : cls = n) (hn : n ≠ 0) : w ≠ 0x30000000#32 :=
    ne_fid_of_field (a := 21) (b := 22) (hcls.trans_ne hn)
  rcases hreserved with hmajor | ⟨hc, hcls, hfid, hbad⟩ | ⟨hc, hcls, hbad⟩ | ⟨hc, hcls, hv, hbad⟩ |
    ⟨hc, hcls, hbad, h20, h11⟩ | ⟨hc, hcls, hbad⟩ | ⟨hc, hcls, hbad⟩
  · have := decode_major h
    omega
  · obtain ⟨form, hop⟩ := hform hc
    have := decodeClass0_ok s.variant (decodeClass0_of_decode hfid hop h hcls)
    omega
  · obtain ⟨form, hop⟩ := hform hc
    obtain ⟨-, hfmt, hdf, hsub, hconv⟩ :=
      decodeClass1_ok (decodeClass1_of_decode (hne hcls (by decide)) hop h hcls)
    rcases hbad with hfmt' | hdf' | ⟨hv, h4⟩ | ⟨hv, h0, heq⟩ | ⟨hv, h0, heq⟩
    · exact absurd hfmt (Nat.not_lt.2 hfmt')
    · exact absurd hdf (Nat.not_lt.2 hdf')
    · exact hsub (hv ▸ h4)
    · exact hconv (hv ▸ h0) heq
    · exact hconv (hv ▸ h0) heq
  · obtain ⟨form, hop⟩ := hform hc
    obtain ⟨-, hsub, -⟩ := decodeClass2_ok (decodeClass2_of_decode (hne hcls (by decide)) hop h hcls)
    have := hsub hv
    omega
  · have hdec := decodeClass2_of_decode (form := .op0C) (hne hcls (by decide)) hc h hcls
    obtain ⟨-, -, hfmt⟩ := decodeClass2_ok hdec
    have : fmt < 2 := hfmt h20 h11
    omega
  · obtain ⟨form, hop⟩ := hform hc
    have := decodeClass3_ok s.variant (decodeClass3_of_decode (hne hcls (by decide)) hop h hcls)
    omega
  · have hdec := decodeClass3_of_decode (form := .op0C) (hne hcls (by decide)) hc h hcls
    obtain ⟨-, -, hfmt⟩ := decodeClass3_ok s.variant hdec
    change fmt < 2 at hfmt
    omega

/-- Settles O14: an instruction that ran returned another outcome (`Ran.outcome`), so the dispatch wrote nothing. -/
theorem unimplementedWritesNothing : Obligations.UnimplementedWritesNothing := by
  intro w s t h hret
  obtain rfl | ⟨i, -, hran⟩ := dispatch_next h
  · exact unimplemented_writesNothing s
  · obtain ⟨o, ho, hne, -⟩ := hran.outcome
    rw [hret] at ho
    cases ho
    exact absurd rfl hne

/-! ## Which call a step runs -/

theorem step_of_calls {s : State} {c : Call} {rest : List Call} (h : s.calls = c :: rest) :
    step s = runCall c { s with calls := rest } := by
  rw [step, runNext, h]

theorem step_of_no_calls {s : State} (h : s.calls = []) : step s = .next s := by
  rw [step, runNext, h]

theorem dispatchWord_of_ok {s : State} {w : Word} {i : Instr} (h : decode s.variant w = .ok i) :
    dispatchWord w s = exec i s := by
  rw [dispatchWord, h]

/-- The call `withFetchWord` puts in front is taken by the step, which leaves the state before. -/
theorem step_withFetchWord (s : State) (n w : Nat) :
    step (s.withFetchWord n w) = dispatchWord (BitVec.ofNat 32 w) s := rfl

/-- Settles O6: the step takes the dispatch off the list, and the dispatch runs what its word decodes to. -/
theorem stepRunsDecodedInstruction : Obligations.StepRunsDecodedInstruction :=
  ⟨fun s _ rest _ hcalls hdec =>
    (step_of_calls hcalls).trans (dispatchWord_of_ok (s := { s with calls := rest }) hdec),
  fun s n w _ hdec => (step_withFetchWord s n w).trans (dispatchWord_of_ok hdec)⟩

/-- Settles O7: the same for the other calls; the queue parameters are lawful by their type. -/
theorem stepRunsOldestCall : Obligations.StepRunsOldestCall :=
  ⟨fun s _ rest _ hcalls hdec =>
    (step_of_calls hcalls).trans (dispatchWord_of_error (s := { s with calls := rest }) hdec),
  fun _ _ hcalls => step_of_calls hcalls, Config.queue.property, fun _ => step_of_no_calls⟩

end Sys2Proof.Machine
end

section
/-! The operand tests that come before an instruction's work (30_encoding.md R92, R98) and the forms refused by name (R96,
R97). Every instruction with one destination is `Guarded` by it and by its sources; the case split over the instructions is
made once, in `exec_operandTests`. -/

namespace Sys2Proof

/-! ## Destinations and sources -/

theorem Form.dst_eq_unimplemented {form : Form} {t : RegSel} (F : Fmt) (h : form.dstIndex t = 0) :
    form.dst F t = .unimplemented :=
  if_pos h

theorem Form.dst_ne_unimplemented {form : Form} {F : Fmt} {t : RegSel} (h : form.dstIndex t ≠ 0) :
    form.dst F t ≠ .unimplemented := by
  rw [Form.dst, if_neg h]
  split <;> exact DstOp.noConfusion

theorem Form.dst_eq_queue {form : Form} {F : Fmt} {t : RegSel} (h : form.dstIndex t ≠ 0)
    (h8 : (form.aligned F t).val < 8) : form.dst F t = .queue := by
  rw [Form.dst, if_neg h, if_pos (show form.aligned F t < 8 from h8)]

theorem dstOf_eq_queue {i : Fin 64} (h : i ≠ 0) (h8 : i.val < 8) : dstOf i = .queue := by
  rw [dstOf, if_neg h, if_pos (show i < 8 from h8)]

/-- Only the double 0E source can name the status word (R98). -/
theorem srcOf_ne_status (i : Fin 64) : srcOf i ≠ .status := by
  unfold srcOf
  split <;> exact SrcOp.noConfusion

namespace Machine

/-! ## What the tests decide -/

/-- What a destination and the sources decide of a result before any work is done: index 0 returns UNIMPLEMENTED (R92), a
queue word is refused, and so is, once the destination is not index 0, a source that is the status word (R98). -/
structure Guarded (s : State) (d : DstOp) (as : List SrcOp) (r : Result) : Prop where
  unimplemented : d = .unimplemented → r = .next s.unimplemented
  queue : d = .queue → r = .refused .queueDestination
  status : d ≠ .unimplemented → .status ∈ as → ∃ e, r = .refused e

section Shapes
variable (s : State) (F G : Fmt) (a b c : SrcOp) (d : DstOp)

theorem withSrc_refused {k : Enc F → Result} (h : a = .status ∨ ∀ x, ∃ e, k x = .refused e) :
    ∃ e, withSrc s F a k = .refused e := by
  cases a with
  | zero => exact h.elim SrcOp.noConfusion (· 0)
  | word i => exact h.elim SrcOp.noConfusion (· (s.read F i))
  | status => exact ⟨.statusSource, rfl⟩

theorem withDst_guarded {as : List SrcOp} {k : Fin 64 → Result} (h : .status ∈ as → ∀ t, ∃ e, k t = .refused e) :
    Guarded s d as (withDst s d k) where
  unimplemented hd := by rw [hd, withDst]
  queue hd := by rw [hd, withDst]
  status hd hs := by
    cases d with
    | unimplemented => exact absurd rfl hd
    | word t => exact h hs t
    | queue => exact ⟨.queueDestination, rfl⟩

theorem unary_guarded (op : Word → BitVec 64 → BitVec 64 → Enc F → KResult G) :
    Guarded s d [a] (unary s F G a d op) := by
  refine withDst_guarded s d fun hs _ => withSrc_refused s F a (.inl ?_)
  exact (List.mem_singleton.1 hs).symm

theorem binary_guarded (op : Word → BitVec 64 → Enc F → Enc F → KResult F) :
    Guarded s d [a, b] (binary s F a b d op) := by
  refine withDst_guarded s d fun hs _ => ?_
  simp only [List.mem_cons, List.not_mem_nil, or_false] at hs
  refine withSrc_refused s F a (hs.imp Eq.symm fun hb _ => ?_)
  exact withSrc_refused s F b (.inl hb.symm)

theorem ternary_guarded (op : Word → BitVec 64 → Enc F → Enc F → Enc F → KResult F) :
    Guarded s d [a, b, c] (ternary s F a b c d op) := by
  refine withDst_guarded s d fun hs _ => ?_
  simp only [List.mem_cons, List.not_mem_nil, or_false] at hs
  refine withSrc_refused s F a (hs.imp Eq.symm fun hbc _ => ?_)
  refine withSrc_refused s F b (hbc.imp Eq.symm fun hc _ => ?_)
  exact withSrc_refused s F c (.inl hc.symm)

theorem move_guarded (form : Form) (r t : RegSel) (f : (F : Fmt) → Enc F → Enc F) :
    Guarded s (form.dst F t) [form.src F r] (move s form (.num F) r t f) :=
  withDst_guarded s (form.dst F t) fun hs _ => withSrc_refused s F (form.src F r) (.inl (List.mem_singleton.1 hs).symm)

end Shapes

/-- The three operand tests of an instruction with result `r`, in the terms of its operand lists. -/
structure OperandTests (i : Instr) (s : State) (r : Result) : Prop where
  zero : 0 ∈ i.dstIndices → i.raZero = false → r = .next s.unimplemented
  queue : 0 ∉ i.dstIndices → ∀ d ∈ i.alignedDsts, d.val < 8 → i.raZero = false → r = .refused .queueDestination
  status : 0 ∉ i.dstIndices → .status ∈ i.sources → ∃ e, r = .refused e

section Tests
variable {i : Instr} {s : State} {r : Result}

/-- An instruction with a destination of a coprocessor format. -/
theorem Guarded.operandTests {form : Form} {F : Fmt} {t : RegSel} {as : List SrcOp}
    (h : Guarded s (form.dst F t) as r) (hz : i.dstIndices = [form.dstIndex t])
    (ha : i.alignedDsts = [form.aligned F t]) (hs : i.sources = as) : OperandTests i s r where
  zero h0 _ := by
    rw [hz, List.mem_singleton] at h0
    exact h.unimplemented (Form.dst_eq_unimplemented F h0.symm)
  queue h0 d hd h8 _ := by
    rw [hz, List.mem_singleton, eq_comm] at h0
    rw [ha, List.mem_singleton] at hd
    exact h.queue (Form.dst_eq_queue h0 (hd ▸ h8))
  status h0 hmem := by
    rw [hz, List.mem_singleton, eq_comm] at h0
    exact h.status (Form.dst_ne_unimplemented h0) (hs ▸ hmem)

/-- A fused instruction: no alignment, and no source that is refused (R260). -/
theorem Guarded.operandTests_fused {j : Fin 64} {as : List (Fin 64)}
    (h : Guarded s (dstOf j) (as.map srcOf) r) (hz : i.dstIndices = [j]) (ha : i.alignedDsts = [j])
    (hs : i.sources = as.map srcOf) : OperandTests i s r where
  zero h0 _ := by
    rw [hz, List.mem_singleton] at h0
    exact h.unimplemented (if_pos h0.symm)
  queue h0 d hd h8 _ := by
    rw [hz, List.mem_singleton, eq_comm] at h0
    rw [ha, List.mem_singleton] at hd
    exact h.queue (dstOf_eq_queue h0 (hd ▸ h8))
  status _ h0 := by
    rw [hs] at h0
    obtain ⟨j, -, hj⟩ := List.mem_map.1 h0
    exact absurd hj (srcOf_ne_status j)

/-- An instruction that writes no operand and reads none: only index 0 matters. -/
theorem operandTests_of_zero (hz : 0 ∈ i.dstIndices → r = .next s.unimplemented) (ha : i.alignedDsts = [])
    (hs : i.sources = []) : OperandTests i s r where
  zero h0 _ := hz h0
  queue _ d hd := by rw [ha] at hd; cases hd
  status _ h0 := by rw [hs] at h0; cases h0

end Tests

theorem move_quad_of_zero (s : State) {form : Form} {t : RegSel} (h : form.dstIndex t = 0) (r : RegSel)
    (f : (F : Fmt) → Enc F → Enc F) : move s form .quad r t f = .next s.unimplemented :=
  if_pos h

theorem move_quad_of_ne_zero (s : State) {form : Form} {t : RegSel} (h : form.dstIndex t ≠ 0) (r : RegSel)
    (f : (F : Fmt) → Enc F → Enc F) : move s form .quad r t f = .refused .quadMove :=
  if_neg h

section Multi
variable (s : State) {F : Fmt} (rm1 rm2 ta : Fin 32) {ra : Fin 32} (tm : Fin 32)
  (op2 : Word → BitVec 64 → Enc F → Enc F → KResult F)

/-- The refusal of R265 comes before every other test (R264). -/
theorem multi_of_raZero (h : F = .dbl ∧ ra = 0) : multi s F rm1 rm2 ta ra tm op2 = .refused .multiRaZero := if_pos h

theorem multi_of_zero (hra : ¬ (F = .dbl ∧ ra = 0)) (h : multiIndex F tm = 0 ∨ multiIndex F ta = 0) :
    multi s F rm1 rm2 ta ra tm op2 = .next s.unimplemented := by
  rw [multi, if_neg hra, if_pos h]

theorem multi_of_queue (hra : ¬ (F = .dbl ∧ ra = 0)) (h0 : ¬ (multiIndex F tm = 0 ∨ multiIndex F ta = 0))
    (h : multiIndex F tm < 8 ∨ multiIndex F ta < 8) : multi s F rm1 rm2 ta ra tm op2 = .refused .queueDestination := by
  rw [multi, if_neg hra, if_neg h0, if_pos h]

/-- A multiple instruction: two destinations, and no source that is refused (R264). -/
theorem multi_operandTests {i : Instr} (hra : i.raZero = (F == .dbl && ra == 0))
    (hz : i.dstIndices = [multiIndex F tm, multiIndex F ta])
    (ha : i.alignedDsts = [multiIndex F tm, multiIndex F ta])
    (hs : i.sources = [multiIndex F rm1, multiIndex F rm2].map srcOf) :
    OperandTests i s (multi s F rm1 rm2 ta ra tm op2) where
  zero h0 hr := by
    have hra' : ¬ (F = .dbl ∧ ra = 0) := by simpa [hra] using hr
    exact multi_of_zero s rm1 rm2 ta tm op2 hra' (by simpa [hz, eq_comm] using h0)
  queue h0 d hd h8 hr := by
    have hra' : ¬ (F = .dbl ∧ ra = 0) := by simpa [hra] using hr
    rw [ha] at hd
    refine multi_of_queue s rm1 rm2 ta tm op2 hra' (by simpa [hz, eq_comm] using h0) ?_
    simp only [List.mem_cons, List.not_mem_nil, or_false] at hd
    rcases hd with rfl | rfl
    · exact .inl h8
    · exact .inr h8
  status _ h0 := by
    rw [hs] at h0
    obtain ⟨j, -, hj⟩ := List.mem_map.1 h0
    exact absurd hj (srcOf_ne_status j)

end Multi

/-- A move in any format. -/
theorem move_operandTests {i : Instr} {s : State} {form : Form} {m : MoveFmt} {r t : RegSel}
    (f : (F : Fmt) → Enc F → Enc F) (hz : i.dstIndices = [form.dstIndex t])
    (ha : ∀ F, m = .num F → i.alignedDsts = [form.aligned F t] ∧ i.sources = [form.src F r])
    (hq : m = .quad → i.alignedDsts = [] ∧ i.sources = []) : OperandTests i s (move s form m r t f) := by
  cases m with
  | num F =>
    obtain ⟨hd, hs⟩ := ha F rfl
    exact (move_guarded s F form r t f).operandTests hz hd hs
  | quad =>
    obtain ⟨hd, hs⟩ := hq rfl
    refine operandTests_of_zero (fun h0 => ?_) hd hs
    rw [hz, List.mem_singleton] at h0
    exact move_quad_of_zero s h0.symm r f

/-- FCMP has no destination: a source that is the status word is refused, as is `y` other than 0 (R98, R316). -/
theorem fcmp_operandTests (form : Form) (F : Fmt) (r1 r2 : RegSel) (y : Fin 8) (c : Fin 32) (s : State) :
    OperandTests (.fcmp form F r1 r2 y c) s (execFcmp form F r1 r2 y c s) where
  zero h0 := by cases h0
  queue _ d hd := by cases hd
  status _ hs := by
    simp only [Instr.sources, List.mem_cons, List.not_mem_nil, or_false] at hs
    rw [execFcmp]
    split
    · refine withSrc_refused s F _ (hs.imp Eq.symm fun h2 _ => ?_)
      exact withSrc_refused s F _ (.inl h2.symm)
    · exact ⟨.compareQueueForm, rfl⟩

/-- The operand tests of every instruction. -/
theorem exec_operandTests (i : Instr) (s : State) : OperandTests i s (exec i s) := by
  cases i with
  | fcpy | fabs | fneg | fnegabs =>
    simp only [exec, execFcpy, execFabs, execFneg, execFnegabs]
    exact move_operandTests _ rfl (by rintro F rfl; exact ⟨rfl, rfl⟩) (by rintro rfl; exact ⟨rfl, rfl⟩)
  | fsqrt | frnd | fcnvxf | fcnvfx | fcnvfxt | fcnvuf | fcnvfu | fcnvfut =>
    simp only [exec, execFsqrt, execFrnd, execFcnvxf, execFcnvfx, execFcnvfxt, execFcnvuf, execFcnvfu, execFcnvfut]
    exact (unary_guarded _ _ _ _ _ _).operandTests rfl rfl rfl
  | fcnvff form conv =>
    cases conv
    all_goals
      simp only [exec, execFcnvff]
      exact (unary_guarded _ _ _ _ _ _).operandTests rfl rfl rfl
  | fcmp form F r1 r2 y c => exact fcmp_operandTests form F r1 r2 y c s
  | ftest | fid => exact operandTests_of_zero (fun h0 => by cases h0) rfl rfl
  | fadd | fsub | fmpy | fdiv | frem =>
    simp only [exec, execFadd, execFsub, execFmpy, execFdiv, execFrem]
    exact (binary_guarded _ _ _ _ _ _).operandTests rfl rfl rfl
  | xmpyu => exact operandTests_of_zero (fun h0 => if_pos (List.mem_singleton.1 h0).symm) rfl rfl
  | fmpyadd | fmpysub =>
    simp only [exec, execFmpyadd, execFmpysub]
    exact multi_operandTests _ _ _ _ _ _ rfl rfl rfl rfl
  | fmpyfadd F rm1 rm2 ra | fmpynfadd F rm1 rm2 ra =>
    simp only [exec, execFmpyfadd, execFmpynfadd, fused]
    exact (ternary_guarded _ _ _ _ _ _ _).operandTests_fused
      (as := [fusedIndex F rm1, fusedIndex F rm2, fusedIndex F ra]) rfl rfl rfl

/-- Settles O15: the test of index 0 comes before every other but that of `ra` field 0. -/
theorem destinationZeroIsUnimplemented : Obligations.DestinationZeroIsUnimplemented := fun i s h0 hra =>
  ⟨s.unimplemented, (exec_operandTests i s).zero h0 hra, rfl, unimplemented_writesNothing s⟩

/-- Settles O16: once no destination index is 0, a queue word or the status word stops the instruction. -/
theorem queueAndStatusOperandsAreRefused : Obligations.QueueAndStatusOperandsAreRefused := fun i s h0 =>
  ⟨(exec_operandTests i s).queue h0, (exec_operandTests i s).status h0⟩

/-! ## The forms refused by name -/

theorem exec_ftest_sgl (form : Form) (s : State) : exec (.ftest form 0) s = .refused .ftest := by
  rw [exec, execFtest, if_pos rfl]

theorem exec_fcmp_of_ne_zero (form : Form) (F : Fmt) (r1 r2 : RegSel) {y : Fin 8} (c : Fin 32) (hy : y ≠ 0) (s : State) :
    exec (.fcmp form F r1 r2 y c) s = .refused .compareQueueForm :=
  if_neg hy

/-- The even destination fields other than 0 (R229). -/
theorem exec_xmpyu_sgl_even (r1 r2 : RegSel) {t : RegSel} (hhalf : t.half = false) (hfld : t.fld ≠ 0) (s : State) :
    exec (.xmpyu .sgl r1 r2 t) s = .refused .xmpyu := by
  have hne : t.single ≠ 0 := fun h => hfld (RegSel.single_eq_zero.1 h).1
  rw [exec, execXmpyu, if_neg hne]
  simp only [hhalf, Bool.false_eq_true, if_false]

/-- Settles O20: each form by the test that stops it. -/
theorem refusedForms : Obligations.RefusedForms := by
  intro s
  refine ⟨rfl, fun form => exec_ftest_sgl form s, fun form F r1 r2 y c hy => exec_fcmp_of_ne_zero form F r1 r2 c hy s,
    fun r1 r2 t hhalf hfld => exec_xmpyu_sgl_even r1 r2 hhalf hfld s, fun form r t ht => ?_, fun rm1 rm2 ta tm => ?_⟩
  · have hquad := move_quad_of_ne_zero s ht r
    exact ⟨hquad moveCopy, hquad moveAbs, hquad moveNeg, hquad moveNegAbs⟩
  · exact ⟨multi_of_raZero s rm1 rm2 ta tm (kFadd .dbl) ⟨rfl, rfl⟩,
      multi_of_raZero s rm1 rm2 ta tm (kFsub .dbl) ⟨rfl, rfl⟩⟩

end Machine

end Sys2Proof
end

section
/-! The flag-or-trap rule of every instruction (60_exceptions.md R332): `Ran` states it for every instruction but FCMP, whose
status word `kFcmp_bit` gives bit by bit. -/

namespace Sys2Proof.Machine

/-- FCMP sets no flag but V, and V only when the invalid trap is disabled (R312). -/
theorem flagSet_kFcmp {F : Fmt} (st : Word) (x y : Enc F) (c : Fin 32) (e : Exc) :
    flagSet e (kFcmp st x y c).2 =
      if e = .V ∧ compareInvalid x y c = true ∧ enabled .V st = false then true else flagSet e st := by
  have hlt := e.flagBit_lt
  have hc : e.flagBit ≠ cBit := by simp only [cBit]; omega
  have hv : e.flagBit = Exc.V.flagBit ↔ e = .V := ⟨Exc.flagBit_inj, congrArg _⟩
  simp only [flagSet, kFcmp_bit st x y c (show e.flagBit < 32 by omega), if_neg hc, hv]

/-- The flags lie outside the PA20 compare queue, so FCMP leaves those of its kernel. -/
theorem Ran.compare_flag {i : Instr} {s t : State} (h : Ran i s t) (hc : i.isCompare = true) :
    ∃ (F : Fmt) (x y : Enc F) (c : Fin 32), t.outcome = (kFcmp s.status x y c).1 ∧ i.mayReport = [.V] ∧
      ∀ e, flagSet e t.status = flagSet e (kFcmp s.status x y c).2 := by
  obtain ⟨F, x, y, c, hout, -, hreport, hbits⟩ := h.compare hc
  refine ⟨F, x, y, c, by rw [State.outcome, hout], hreport, fun e => ?_⟩
  have hlt := e.flagBit_lt
  exact hbits e.flagBit (by omega) (by omega)

/-- Settles O13: FCMP names V, or raises it, as its trap is enabled or not; for every other instruction `Ran` has the
rule. -/
theorem flagOrTrapOfEveryInstruction : Obligations.FlagOrTrapOfEveryInstruction := by
  intro i s t h
  obtain rfl | hran := exec_next h
  · exact ⟨by simp [State.outcome, FpOutcome.names], fun e h0 h1 => absurd (h0.symm.trans h1) (by decide)⟩
  cases hc : i.isCompare with
  | false =>
    obtain ⟨o, hout, hrule⟩ := hran.ends hc
    rw [State.outcome, hout]
    exact ⟨hrule.named, hrule.raisedDisabled⟩
  | true =>
    obtain ⟨F, x, y, c, hout, hreport, hflag⟩ := hran.compare_flag hc
    simp only [hout, hreport, hflag, kFcmp_outcome, flagSet_kFcmp]
    constructor
    · intro e he
      split at he
      case isTrue hinv =>
        obtain rfl : e = .V := by simpa [FpOutcome.names] using he
        simp [hinv.2]
      case isFalse => simp [FpOutcome.names] at he
    · intro e h0 h1
      split at h1
      case isTrue hinv => exact hinv.1 ▸ hinv.2.2
      case isFalse => exact absurd (h0.symm.trans h1) (by decide)

end Sys2Proof.Machine
end

section
/-! What the rounding rules state of `roundmag` (40_numerics.md R150), of the overflow default (R153) and of quieting
(R144). -/

namespace Sys2Proof

/-- Settles O43: the general facts of `roundmag`, at a rational. -/
theorem roundmagRounds : Obligations.RoundmagRounds := fun a q s m ha =>
  ⟨roundmag_isRounding (a := .rat a) ha.le q s m, roundmag_inexact_iff a ha.le q s m⟩

/-- Settles O45: sixteen literal encodings. -/
theorem overflowDefaults : Obligations.OverflowDefaults := by
  unfold Obligations.OverflowDefaults
  decide

/-! ## Quieting -/

/-- Clearing the signaling bit changes that bit only. -/
theorem getLsbD_clearSig {F : Fmt} (x : Enc F) (i : Nat) :
    (x &&& ~~~ sigMask F).getLsbD i = (x.getLsbD i && decide (i ≠ F.fbits - 1)) := by
  rw [BitVec.getLsbD_and, BitVec.getLsbD_not, sigMask, BitVec.getLsbD_ofNat, Nat.testBit_two_pow]
  by_cases hi : i < F.width
  · simp [hi, eq_comm]
  · simp [BitVec.getLsbD_of_ge x i (by omega)]

theorem signOf_clearSig {F : Fmt} (x : Enc F) : signOf (x &&& ~~~ sigMask F) = signOf x := by
  have hne : F.width - 1 ≠ F.fbits - 1 := by cases F <;> decide
  rw [signOf, signOf, BitVec.msb_eq_getLsbD_last, BitVec.msb_eq_getLsbD_last, getLsbD_clearSig]
  simp [hne]

theorem expOf_clearSig {F : Fmt} (x : Enc F) : expOf (x &&& ~~~ sigMask F) = expOf x := by
  have hpos : 0 < F.fbits := by cases F <;> decide
  refine Nat.eq_of_testBit_eq fun i => ?_
  have hbit := getLsbD_clearSig x (i + F.fbits)
  rw [decide_eq_true (by omega), Bool.and_true] at hbit
  simp only [expOf, Nat.testBit_mod_two_pow, Nat.testBit_div_two_pow, BitVec.testBit_toNat, hbit]

theorem fracOf_clearSig {F : Fmt} (x : Enc F) : fracOf (x &&& ~~~ sigMask F) = fracOf x % 2 ^ (F.fbits - 1) := by
  refine Nat.eq_of_testBit_eq fun i => ?_
  simp only [fracOf, Nat.testBit_mod_two_pow, BitVec.testBit_toNat, getLsbD_clearSig]
  have hi : i < F.fbits - 1 ↔ i < F.fbits ∧ i ≠ F.fbits - 1 := by omega
  rw [Bool.eq_iff_iff]
  simp only [Bool.and_eq_true, decide_eq_true_eq, hi]
  tauto

/-- The fraction of a signaling NaN without its signaling bit. -/
theorem fracOf_clearSig_of_isSNaN {F : Fmt} {x : Enc F} (hs : isSNaN x = true) :
    fracOf (x &&& ~~~ sigMask F) = fracOf x - 2 ^ (F.fbits - 1) ∧ fracOf x - 2 ^ (F.fbits - 1) < 2 ^ (F.fbits - 1) := by
  have hlow := isSNaN_frac hs
  have hhigh : fracOf x < 2 ^ (F.fbits - 1) + 2 ^ (F.fbits - 1) := by
    have := fracOf_lt x
    cases F <;> exact this
  have hlt : fracOf x - 2 ^ (F.fbits - 1) < 2 ^ (F.fbits - 1) := by omega
  rw [fracOf_clearSig, Nat.mod_eq_sub_mod hlow, Nat.mod_eq_of_lt hlt]
  exact ⟨rfl, hlt⟩

/-- Settles O48: clearing the signaling bit leaves a smaller nonzero fraction; a lone signaling bit gives the free value. -/
theorem quietRule : Obligations.QuietRule := by
  intro F x hs
  refine ⟨fun hne u => ?_, fun heq v => ⟨v.setWidth 64, ?_⟩⟩
  · obtain ⟨hfrac, hlt⟩ := fracOf_clearSig_of_isSNaN hs
    have hlow := isSNaN_frac hs
    have hmax : expOf x = F.maxExp := by
      simp only [isSNaN, isNaN, Bool.and_eq_true, beq_iff_eq] at hs
      exact hs.1.1
    rw [quiet, if_neg hne]
    refine ⟨?_, expOf_clearSig x, signOf_clearSig x, hfrac⟩
    have hpos : fracOf x - 2 ^ (F.fbits - 1) ≠ 0 := by omega
    simp [isQNaN, isSNaN, isNaN, expOf_clearSig, hfrac, hmax, hpos, hlt]
  · rw [quiet, if_pos heq, anyEnc, BitVec.setWidth_setWidth_of_le v (by cases F <;> decide), BitVec.setWidth_eq]

end Sys2Proof
end

section
/-! The cases of `finish` (40_numerics.md R151), one lemma each, in terms of any rounding of the exact magnitude; the clauses
of the finishing rule are read off them. -/

namespace Sys2Proof

theorem Fmt.emin_lt_emax (F : Fmt) : F.emin < F.emax := by cases F <;> decide

theorem Fmt.pow2_emin_lt (F : Fmt) : pow2 F.emin < pow2 (F.emax + 1) :=
  pow2_lt.2 (by have := F.emin_lt_emax; omega)

/-- `roundmag` is any rounding, inexact when that is not the magnitude. -/
theorem roundmag_of_isRounding {a : ℚ} (ha : 0 ≤ a) {q : Int} {s : Bool} {m : RMode} {w : ℚ}
    (h : IsRounding m s q (a : ℝ) w) : roundmag (.rat a) q s m = ⟨w, decide (w ≠ a)⟩ := by
  have hval := roundmag_eq (a := .rat a) ha h
  have hix := roundmag_inexact_iff a ha q s m
  generalize roundmag (.rat a) q s m = res at *
  obtain ⟨value, inexact⟩ := res
  subst hval
  rw [Rounded.mk.injEq]
  exact ⟨rfl, Bool.eq_iff_iff.2 (hix.trans decide_eq_true_iff.symm)⟩

section Cases
variable {F : Fmt} {st : Word} {u : BitVec 64} {r : ℚ} {zs : Bool} {e : Int} {w d : ℚ}
variable (hlow : pow2 e ≤ |r|) (hhigh : |r| < pow2 (e + 1))
  (hw : IsRounding (rmOf st) (decide (r < 0)) (e - F.prec + 1) (|r| : ℚ) w)
include hlow

theorem finish_eq_finishMag : finish F st u r zs = finishMag F st u (decide (r < 0)) (.rat |r|) :=
  if_neg (abs_pos.1 ((pow2_pos e).trans_le hlow))

include hhigh hw

/-- The rounding at unbounded exponent that `finishMag` compares with the range. -/
theorem roundmag_at_log2 : roundmag (.rat |r|) ((Mag.rat |r|).log2 - F.prec + 1) (decide (r < 0)) (rmOf st) =
    ⟨w, decide (w ≠ |r|)⟩ := by
  have hlog : (Mag.rat |r|).log2 = e := ilog2_eq hlow hhigh
  rw [hlog, roundmag_of_isRounding (abs_nonneg r) hw]

theorem finish_overflow_trapped (ho : pow2 (F.emax + 1) ≤ w) (hO : enabled .O st = true) :
    finish F st u r zs = .of (wrapped F u (decide (r < 0)) (w * pow2 (-(Config.wrap F : Int))))
      (overflowPart (decide (w ≠ |r|)) st) := by
  rw [finish_eq_finishMag hlow, finishMag]
  simp only [roundmag_at_log2 hlow hhigh hw, if_pos ho, if_pos hO]

theorem finish_overflow_untrapped (ho : pow2 (F.emax + 1) ≤ w) (hO : enabled .O st = false) :
    finish F st u r zs = .of (ovfDefault F (decide (r < 0)) (rmOf st)) (inexactOnly true (raiseFlag .O st)) := by
  rw [finish_eq_finishMag hlow, finishMag]
  simp only [roundmag_at_log2 hlow hhigh hw, if_pos ho, hO, Bool.false_eq_true, if_false]

theorem finish_underflow_trapped (ht : w < pow2 F.emin) (hU : enabled .U st = true) :
    finish F st u r zs = .of (wrapped F u (decide (r < 0)) (w * pow2 (Config.wrap F : Int)))
      (underflowPart (decide (w ≠ |r|)) st) := by
  have ho : ¬ pow2 (F.emax + 1) ≤ w := not_le.2 (ht.trans (F.pow2_emin_lt))
  rw [finish_eq_finishMag hlow, finishMag]
  simp only [roundmag_at_log2 hlow hhigh hw, if_neg ho, if_pos ht, if_pos hU]

theorem finish_underflow_untrapped (ht : w < pow2 F.emin) (hU : enabled .U st = false)
    (hd : IsRounding (rmOf st) (decide (r < 0)) (F.emin - F.prec + 1) (|r| : ℚ) d) :
    finish F st u r zs = .of (enc F (decide (r < 0)) d)
      (inexactOnly (decide (d ≠ |r|)) (if d ≠ |r| then raiseFlag .U st else st)) := by
  have ho : ¬ pow2 (F.emax + 1) ≤ w := not_le.2 (ht.trans (F.pow2_emin_lt))
  rw [finish_eq_finishMag hlow, finishMag]
  simp only [roundmag_at_log2 hlow hhigh hw, if_neg ho, if_pos ht, hU, Bool.false_eq_true, if_false,
    roundmag_of_isRounding (abs_nonneg r) hd, decide_eq_true_eq]

theorem finish_normal (hn : pow2 F.emin ≤ w) (ho : w < pow2 (F.emax + 1)) :
    finish F st u r zs = .of (enc F (decide (r < 0)) w) (inexactOnly (decide (w ≠ |r|)) st) := by
  rw [finish_eq_finishMag hlow, finishMag]
  simp only [roundmag_at_log2 hlow hhigh hw, if_neg (not_le.2 ho), if_neg (not_lt.2 hn)]

end Cases

/-- Settles O44: one case lemma of `finish` for each clause. -/
theorem finishRule : Obligations.FinishRule := by
  intro F st u r zs e w d
  refine ⟨fun hr => ?_, fun hlow hhigh hw hd => ⟨fun ho hO => ?_, fun ho hO => ?_, fun ht hU => ?_, fun ht hU => ?_,
    fun hn ho => ?_⟩⟩
  · rw [finish, if_pos hr]
    exact isClean_clean st _
  · rw [finish_overflow_trapped hlow hhigh hw ho hO]
    exact ⟨fun h1 h2 => if_pos ⟨h1, h2⟩, fun h => by simp [KResult.of, overflowPart, h],
      fun h hI => by simp [KResult.of, overflowPart, h, hI], fun h hI => by simp [KResult.of, overflowPart, h, hI]⟩
  · rw [finish_overflow_untrapped hlow hhigh hw ho hO]
    exact ⟨rfl, fun hI => by simp [KResult.of, inexactOnly, hI], fun hI => by simp [KResult.of, inexactOnly, hI]⟩
  · rw [finish_underflow_trapped hlow hhigh hw ht hU]
    exact ⟨fun h1 h2 => if_pos ⟨h1, h2⟩, fun h => by simp [KResult.of, underflowPart, h],
      fun h hI => by simp [KResult.of, underflowPart, h, hI], fun h hI => by simp [KResult.of, underflowPart, h, hI]⟩
  · rw [finish_underflow_untrapped hlow hhigh hw ht hU hd]
    exact ⟨rfl, fun h => by simp [KResult.of, inexactOnly, h], fun h hI => by simp [KResult.of, inexactOnly, h, hI],
      fun h hI => by simp [KResult.of, inexactOnly, h, hI]⟩
  · rw [finish_normal hlow hhigh hw hn ho]
    exact isRounded_inexactOnly decide_eq_true_iff

end Sys2Proof
end

section
/-! The bound on every delivered result (40_numerics.md R168): the normal and the subnormal result of `finish` encode a
representable rounding exactly, and the bound is the rounding's own. -/

namespace Sys2Proof

theorem abs_signed (s : Bool) (a : ℚ) : |signed s a| = |a| := by
  cases s <;> simp [signed]

theorem signed_sub_signed (s : Bool) (a b : ℚ) : signed s a - signed s b = signed s (a - b) := by
  cases s
  · rfl
  · simp only [signed, if_true]
    ring

theorem signed_le_signed (s : Bool) (a b : ℚ) : signed s a ≤ signed s b ↔ if s = true then b ≤ a else a ≤ b := by
  cases s <;> simp [signed]

/-- A finite encoding `x` within the bound R168 states for the exact result `r` at quantum `2^q` in mode `m`. -/
structure WithinBound {F : Fmt} (m : RMode) (q : Int) (r : ℚ) (x : Enc F) : Prop where
  finite : isFinite x = true
  near : |val x - r| < pow2 q
  nearest : m = .rn → |val x - r| ≤ pow2 q / 2
  towardZero : m = .rz → |val x| ≤ |r|
  towardPlus : m = .rp → r ≤ val x
  towardMinus : m = .rmi → val x ≤ r

/-- A representable rounding of `|r|`, encoded with the sign of `r`, is within the bound of every quantum at least as large
as its own. -/
theorem withinBound_enc {F : Fmt} {m : RMode} {r w : ℚ} {q q' : Int}
    (hw : IsRounding m (decide (r < 0)) q' (|r| : ℚ) w) (hq : q' ≤ q) (hrep : Representable F w) :
    WithinBound m q r (enc F (decide (r < 0)) w) := by
  have hw0 : 0 ≤ w := by
    obtain ⟨n, hn⟩ := hw.multiple
    exact hn ▸ mul_nonneg n.cast_nonneg (pow2_pos q').le
  have hval : val (enc F (decide (r < 0)) w) = signed (decide (r < 0)) w := val_enc_signed hw0 hrep
  have hdiff := congrArg abs (signed_sub_signed (decide (r < 0)) w |r|)
  rw [signed_neg_abs, ← hval, abs_signed] at hdiff
  have hpow := pow2_le.2 hq
  have hnear : |w - abs r| < pow2 q' := by exact_mod_cast hw.near
  refine ⟨(enc_spec F _ hw0 hrep).2.2, by rw [hdiff]; exact hnear.trans_le hpow, fun hm => ?_, fun hm => ?_, fun hm => ?_,
    fun hm => ?_⟩
  · have hhalf : |w - abs r| ≤ pow2 q' / 2 := by exact_mod_cast hw.nearest hm
    rw [hdiff]
    linarith
  · rw [hval, abs_signed, abs_of_nonneg hw0]
    exact_mod_cast hw.towardZero hm
  · have hle := (signed_le_signed (decide (r < 0)) |r| w).2 (by exact_mod_cast hw.towardPlus hm)
    rwa [signed_neg_abs, ← hval] at hle
  · have hle := (signed_le_signed (decide (r < 0)) w |r|).2 (by exact_mod_cast hw.towardMinus hm)
    rwa [signed_neg_abs, ← hval] at hle

/-- A rounding to a quantum of at most `2^e` passes `2^e` in neither direction. -/
theorem IsRounding.le_pow2 {m : RMode} {s : Bool} {q e : Int} {a w : ℚ} (ha : 0 ≤ a) (h : IsRounding m s q (a : ℚ) w)
    (hq : q ≤ e) (hle : a ≤ pow2 e) : w ≤ pow2 e := by
  rw [pow2_eq_mul hq] at hle ⊢
  exact isRounding_le ha h hle

theorem IsRounding.pow2_le {m : RMode} {s : Bool} {q e : Int} {a w : ℚ} (ha : 0 ≤ a) (h : IsRounding m s q (a : ℚ) w)
    (hq : q ≤ e) (hle : pow2 e ≤ a) : pow2 e ≤ w := by
  rw [pow2_eq_mul hq] at hle ⊢
  exact isRounding_ge ha h hle

/-- The rounding to the subnormal quantum of a magnitude below the normal range is representable. -/
theorem representable_subnormal {F : Fmt} {m : RMode} {s : Bool} {a d : ℚ} (ha : 0 ≤ a) (hlt : a ≤ pow2 F.emin)
    (hd : IsRounding m s (F.emin - F.prec + 1) (a : ℚ) d) : Representable F d := by
  have hp := prec_cast F
  obtain ⟨k, hk⟩ := hd.multiple
  have hle := hd.le_pow2 ha (by omega) hlt
  exact representable_of_multiple hk (hle.trans (pow2_le.2 (by omega))) (by omega) (hle.trans_lt F.pow2_emin_lt)

/-- A rounding at unbounded exponent that lies in the normal range is representable: it has at most `p` bits, or it is the
least normal magnitude, rounded up to from below. -/
theorem representable_normal {F : Fmt} {m : RMode} {s : Bool} {a w : ℚ} {e : Int} (hlow : pow2 e ≤ a)
    (hhigh : a < pow2 (e + 1)) (hw : IsRounding m s (e - F.prec + 1) (a : ℚ) w) (hn : pow2 F.emin ≤ w)
    (ho : w < pow2 (F.emax + 1)) : Representable F w := by
  have hp := prec_cast F
  obtain ⟨k, hk⟩ := hw.multiple
  have hle := hw.le_pow2 ((pow2_pos e).le.trans hlow) (by omega) hhigh.le
  by_cases hemin : F.emin ≤ e
  · exact representable_of_multiple hk hle (by omega) ho
  · have he := pow2_le.1 (hn.trans hle)
    have hweq : w = pow2 F.emin := le_antisymm (hle.trans (pow2_le.2 (by omega))) hn
    exact ⟨1, F.emin, by rw [hweq]; simp, Nat.one_lt_two_pow (by simp [Fmt.prec]), by omega, ho⟩

/-- Settles O46: the normal and the subnormal case of `finish` deliver a representable rounding, at the quantum named or at a
smaller one. -/
theorem roundingBound : Obligations.RoundingBound := by
  intro F st u r zs e w hlow hhigh hw ho hnu
  suffices h : WithinBound (rmOf st) (max e F.emin - F.prec + 1) r (finish F st u r zs).res from
    ⟨h.finite, h.near, h.nearest, h.towardZero, h.towardPlus, h.towardMinus⟩
  by_cases hn : pow2 F.emin ≤ w
  · rw [finish_normal hlow hhigh hw hn ho]
    exact withinBound_enc hw (by omega) (representable_normal hlow hhigh hw hn ho)
  · have ht : w < pow2 F.emin := not_le.1 hn
    have hd := roundmag_isRounding (a := .rat |r|) (abs_nonneg r) (F.emin - F.prec + 1) (decide (r < 0)) (rmOf st)
    have hU : enabled .U st = false := not_enabled fun h => hnu ⟨h, ht⟩
    rw [finish_underflow_untrapped hlow hhigh hw ht hU hd]
    refine withinBound_enc hd (by omega) (representable_subnormal (abs_nonneg r) ?_ hd)
    have hew := hw.pow2_le (abs_nonneg r) (by have := prec_cast F; omega) hlow
    have he : e < F.emin := pow2_lt.1 (hew.trans_lt ht)
    exact hhigh.le.trans (pow2_le.2 (by omega))

end Sys2Proof
end

section
/-! No arithmetic kernel delivers the free wrapped value (40_numerics.md R160): the exact results of finite operands are
bounded away from zero and from above, so that the exponent adjustment brings every one of them into the normal range. -/

namespace Sys2Proof

/-! ## Kernels on finite operands: their exact result, finished -/

section Finite
variable {F : Fmt} {st : Word} {u : BitVec 64} {x y z : Enc F} (hx : isFinite x = true) (hy : isFinite y = true)
include hx hy

theorem afterNaN_finite₂ (k : KResult F) : afterNaN [x, y] st u k = k :=
  afterNaN_noNaN (by simp [noNaN, noNaN_of_isFinite, hx, hy]) st u k

theorem kFadd_finite : kFadd F st u x y =
    finish F st u (val x + val y) (zeroSumSign st (isZero x && isZero y) (signOf x) (signOf y)) := by
  simp [kFadd, afterNaN_finite₂ hx hy, noNaN_of_isFinite, hx, hy]

theorem kFsub_finite : kFsub F st u x y =
    finish F st u (val x - val y) (zeroSumSign st (isZero x && isZero y) (signOf x) (!signOf y)) := by
  simp [kFsub, afterNaN_finite₂ hx hy, noNaN_of_isFinite, hx, hy]

theorem kFmpy_finite : kFmpy F st u x y = finish F st u (val x * val y) (signOf x ^^ signOf y) := by
  simp [kFmpy, afterNaN_finite₂ hx hy, noNaN_of_isFinite, hx, hy]

theorem kFdiv_finite (hy0 : isZero y = false) : kFdiv F st u x y = finish F st u (val x / val y) (signOf x ^^ signOf y) := by
  simp [kFdiv, afterNaN_finite₂ hx hy, noNaN_of_isFinite, hx, hy, hy0]

/-- A division by zero is invalid, or divides a nonzero value by zero (R224). -/
theorem kFdiv_finite_zero (hy0 : isZero y = true) : kFdiv F st u x y =
    if isZero x then invalid st u (Config.defaultNaN F) else divzero st u (infOf F (signOf x ^^ signOf y)) := by
  simp [kFdiv, afterNaN_finite₂ hx hy, noNaN_of_isFinite, hx, hy, hy0]

theorem kFrem_finite_zero (h0 : isZero x = true ∨ isZero y = true) : kFrem F st u x y =
    if isZero y then invalid st u (Config.defaultNaN F) else .clean st x := by
  cases hy0 : isZero y <;> simp_all [kFrem, afterNaN_finite₂ hx hy, noNaN_of_isFinite]

theorem kFrem_finite (hx0 : isZero x = false) (hy0 : isZero y = false) : kFrem F st u x y =
    finish F st u (val x - nearestEven (val x / val y) * val y) (signOf x) := by
  simp [kFrem, afterNaN_finite₂ hx hy, noNaN_of_isFinite, hx, hy, hx0, hy0]

theorem kFma_finite (hz : isFinite z = true) (neg : Bool) : kFma F neg st u x y z =
    finish F st u (signed neg (val x * val y) + val z)
      (zeroSumSign st (val x * val y == 0 && isZero z) (signOf x ^^ signOf y ^^ neg) (signOf z)) := by
  have hnan : noNaN [x, y, z] = true := by simp [noNaN, noNaN_of_isFinite, hx, hy, hz]
  simp [kFma, afterNaN_noNaN hnan, noNaN_of_isFinite, hx, hy, hz]

end Finite

/-! ## Bounds on the exact results -/

/-- The exponent of the least quantum, of which every finite value is a multiple (R142). -/
def Fmt.qmin (F : Fmt) : Int := F.emin - F.fbits

theorem Fmt.qmin_neg (F : Fmt) : F.qmin < 0 := by cases F <;> decide

/-- An exact result that one exponent adjustment brings into the normal range (R160): zero, or of a magnitude between the
square of the least quantum and the largest quotient of two finite values. -/
structure Wrappable (F : Fmt) (r : ℚ) : Prop where
  low : r ≠ 0 → pow2 (2 * F.qmin) ≤ |r|
  high : |r| < pow2 (F.emax + 1 - F.qmin)

theorem Wrappable.finish_free {F : Fmt} {r : ℚ} (h : Wrappable F r) (st : Word) (u u' : BitVec 64) (zs : Bool) :
    finish F st u r zs = finish F st u' r zs :=
  finish_free_unused st u u' zs h.low h.high (by cases F <;> decide) (by cases F <;> decide)

/-- A multiple of the square of the least quantum, below the square of the top of the range: a value, or a product of two. -/
structure ProductLike (F : Fmt) (a : ℚ) : Prop where
  multiple : ∃ A : Int, a = A * pow2 (2 * F.qmin)
  bound : |a| < pow2 (2 * (F.emax + 1))

theorem productLike_val {F : Fmt} {x : Enc F} (hx : isFinite x = true) : ProductLike F (val x) where
  multiple := by
    obtain ⟨m, q, hv, -, hq, -⟩ := representable_absVal x hx
    have hneg := F.qmin_neg
    obtain ⟨X, hX, -⟩ := val_eq_int hv (show 2 * F.qmin ≤ q by rw [Fmt.qmin] at *; omega)
    exact ⟨X, hX⟩
  bound := (abs_val_lt hx).trans (pow2_lt.2 (by cases F <;> decide))

theorem productLike_mul {F : Fmt} {x y : Enc F} (hx : isFinite x = true) (hy : isFinite y = true) :
    ProductLike F (val x * val y) where
  multiple := by
    obtain ⟨X, hX⟩ := val_eq_mul_quantum hx
    obtain ⟨Y, hY⟩ := val_eq_mul_quantum hy
    refine ⟨X * Y, ?_⟩
    rw [hX, hY, two_mul, Fmt.qmin, pow2_add]
    push_cast
    ring
  bound := by
    rw [abs_mul, two_mul, pow2_add]
    exact mul_lt_mul'' (abs_val_lt hx) (abs_val_lt hy) (abs_nonneg _) (abs_nonneg _)

theorem ProductLike.neg {F : Fmt} {a : ℚ} (h : ProductLike F a) : ProductLike F (-a) := by
  obtain ⟨⟨A, hA⟩, hbound⟩ := h
  exact ⟨⟨-A, by rw [hA]; push_cast; ring⟩, by rwa [abs_neg]⟩

theorem ProductLike.signed {F : Fmt} {a : ℚ} (h : ProductLike F a) (s : Bool) : ProductLike F (signed s a) := by
  cases s
  · exact h
  · exact h.neg

theorem ProductLike.wrappable_add {F : Fmt} {a b : ℚ} (ha : ProductLike F a) (hb : ProductLike F b) :
    Wrappable F (a + b) where
  low := by
    obtain ⟨A, hA⟩ := ha.multiple
    obtain ⟨B, hB⟩ := hb.multiple
    exact pow2_le_abs_of_multiple (N := A + B) (by rw [hA, hB]; push_cast; ring)
  high := by
    calc |a + b| ≤ |a| + |b| := abs_add_le a b
      _ < 2 * pow2 (2 * (F.emax + 1)) := by linarith [ha.bound, hb.bound]
      _ = pow2 (2 * (F.emax + 1) + 1) := (pow2_succ _).symm
      _ ≤ pow2 (F.emax + 1 - F.qmin) := pow2_le.2 (by cases F <;> decide)

theorem productLike_zero (F : Fmt) : ProductLike F 0 := ⟨⟨0, by simp⟩, by simpa using pow2_pos _⟩

theorem ProductLike.wrappable {F : Fmt} {a : ℚ} (h : ProductLike F a) : Wrappable F a := by
  simpa using h.wrappable_add (productLike_zero F)

/-- A quotient is smallest with the least dividend over the largest divisor, and largest with the largest over the least. -/
theorem wrappable_div {F : Fmt} {x y : Enc F} (hx : isFinite x = true) (hy : isFinite y = true) (hy0 : isZero y = false) :
    Wrappable F (val x / val y) := by
  have hypos : 0 < |val y| := by
    rw [abs_val]
    exact lt_of_le_of_ne (absVal_nonneg y) fun h => by simp [(absVal_eq_zero y).1 h.symm] at hy0
  have hmin : ∀ {z : Enc F}, isFinite z = true → val z ≠ 0 → pow2 F.qmin ≤ |val z| := fun hz h0 =>
    let ⟨_, hZ⟩ := val_eq_mul_quantum hz
    pow2_le_abs_of_multiple hZ h0
  constructor
  · intro h0
    rw [abs_div, le_div_iff₀ hypos]
    calc pow2 (2 * F.qmin) * |val y| ≤ pow2 (2 * F.qmin) * pow2 (F.emax + 1) :=
          mul_le_mul_of_nonneg_left (abs_val_lt hy).le (pow2_pos _).le
      _ = pow2 (2 * F.qmin + (F.emax + 1)) := (pow2_add _ _).symm
      _ ≤ pow2 F.qmin := pow2_le.2 (by cases F <;> decide)
      _ ≤ |val x| := hmin hx (div_ne_zero_iff.1 h0).1
  · rw [abs_div, div_lt_iff₀ hypos]
    calc |val x| < pow2 (F.emax + 1) := abs_val_lt hx
      _ = pow2 (F.emax + 1 - F.qmin) * pow2 F.qmin := by rw [← pow2_add, sub_add_cancel]
      _ ≤ pow2 (F.emax + 1 - F.qmin) * |val y| :=
          mul_le_mul_of_nonneg_left (hmin hy (abs_pos.1 hypos)) (pow2_pos _).le

theorem wrappable_of_representable {F : Fmt} {r : ℚ} (h : Representable F |r|) : Wrappable F r := by
  obtain ⟨m, q, hr, -, hq, hlt⟩ := h
  constructor
  · intro h0
    have hle := pow2_le_abs_of_multiple (N := m) (by exact_mod_cast hr) (abs_ne_zero.2 h0)
    rw [abs_abs] at hle
    have hneg := F.qmin_neg
    exact (pow2_le.2 (by rw [Fmt.qmin] at *; omega)).trans hle
  · exact hlt.trans (pow2_lt.2 (by cases F <;> decide))

/-! ## The kernels -/

/-- A result that may not report O or U names neither. -/
theorem KResult.Ok.not_names {F : Fmt} {may report : List Exc} {st : Word} {k : KResult F} (hk : k.Ok may report st)
    (hO : Exc.O ∉ report) (hU : Exc.U ∉ report) : ¬ (Exc.O ∈ k.outcome.names ∨ Exc.U ∈ k.outcome.names) :=
  not_or.2 ⟨fun h => hO (hk.named _ h).1, fun h => hU (hk.named _ h).1⟩

section Free
variable {F : Fmt} {st : Word} {u : BitVec 64} (u' : BitVec 64) {x y : Enc F} (hx : isFinite x = true)
  (hy : isFinite y = true)
include hx hy

theorem kFdiv_free (h : Exc.O ∈ (kFdiv F st u x y).outcome.names ∨ Exc.U ∈ (kFdiv F st u x y).outcome.names) :
    kFdiv F st u x y = kFdiv F st u' x y := by
  cases hy0 : isZero y with
  | false => rw [kFdiv_finite hx hy hy0, kFdiv_finite hx hy hy0, (wrappable_div hx hy hy0).finish_free]
  | true =>
    have hk : (kFdiv F st u x y).Ok [.V, .Z] [.V, .Z] st := by
      rw [kFdiv_finite_zero hx hy hy0]
      split
      · exact invalid_ok (by simp) (by simp) st u _
      · exact divzero_ok (by simp) (by simp) st u _
    exact absurd h (hk.not_names (by simp) (by simp))

theorem kFrem_free (h : Exc.O ∈ (kFrem F st u x y).outcome.names ∨ Exc.U ∈ (kFrem F st u x y).outcome.names) :
    kFrem F st u x y = kFrem F st u' x y := by
  by_cases h0 : isZero x = true ∨ isZero y = true
  · have hk : (kFrem F st u x y).Ok [.V] [.V] st := by
      rw [kFrem_finite_zero hx hy h0]
      split
      · exact invalid_ok (by simp) (by simp) st u _
      · exact clean_ok _ _ st x
    exact absurd h (hk.not_names (by simp) (by simp))
  · simp only [not_or, Bool.not_eq_true] at h0
    obtain ⟨hx0, hy0⟩ := h0
    rw [kFrem_finite hx hy hx0 hy0, kFrem_finite hx hy hx0 hy0,
      (wrappable_of_representable (remainder_representable hx hy hy0)).finish_free]

end Free

/-- Settles O47: the exact result of each kernel is within the bounds of `Wrappable`; by a zero divisor there is neither an
overflow nor an underflow. -/
theorem wrappedResultsAreDetermined : Obligations.WrappedResultsAreDetermined := by
  intro F st u u' x y z neg hx hy hz
  simp only [List.forall_mem_cons, List.not_mem_nil, false_imp_iff, implies_true, and_true]
  have hX := productLike_val hx
  have hY := productLike_val hy
  refine ⟨fun _ => ?_, fun _ => ?_, fun _ => ?_, kFdiv_free u' hx hy, kFrem_free u' hx hy, fun _ => ?_⟩
  · rw [kFadd_finite hx hy, kFadd_finite hx hy, (hX.wrappable_add hY).finish_free]
  · have hsub : Wrappable F (val x - val y) := sub_eq_add_neg (val x) (val y) ▸ hX.wrappable_add hY.neg
    rw [kFsub_finite hx hy, kFsub_finite hx hy, hsub.finish_free]
  · rw [kFmpy_finite hx hy, kFmpy_finite hx hy, (productLike_mul hx hy).wrappable.finish_free]
  · have hfma := ((productLike_mul hx hy).signed neg).wrappable_add (productLike_val hz)
    rw [kFma_finite hx hy hz, kFma_finite hx hy hz, hfma.finish_free]

end Sys2Proof
end

section
/-! The register moves and FID (41_moves.md R200 to R206): what a move of a readable source to a data destination leaves, the
moved values in hexadecimal masks, and the 0C class-0 words the dispatcher does not accept. -/

namespace Sys2Proof

/-! ## The moved values -/

theorem moveAbs_sgl (x : Word) : moveAbs .sgl x = x &&& 0x7FFFFFFF#32 := rfl

theorem moveAbs_dbl (x : BitVec 64) : moveAbs .dbl x = x &&& 0x7FFFFFFFFFFFFFFF#64 := rfl

theorem moveNeg_sgl (x : Word) : moveNeg .sgl x = x ^^^ 0x80000000#32 := rfl

theorem moveNeg_dbl (x : BitVec 64) : moveNeg .dbl x = x ^^^ 0x8000000000000000#64 := rfl

theorem moveNegAbs_sgl (x : Word) : moveNegAbs .sgl x = x ||| 0x80000000#32 := rfl

theorem moveNegAbs_dbl (x : BitVec 64) : moveNegAbs .dbl x = x ||| 0x8000000000000000#64 := rfl

namespace Machine

/-! ## Completion of the moves -/

section Moves
variable {s : State} {form : Form} {F : Fmt} {r t : RegSel} {d : Fin 64} {x : Enc F}

/-- An instruction whose meaning is the move of `f` completes with the value `f` gives to its source (R200). -/
theorem completesWith_of_move {i : Instr} {f : (F : Fmt) → Enc F → Enc F} (hi : exec i s = move s form (.num F) r t f)
    (hd : form.dst F t = .word d) (hx : srcVal s F (form.src F r) = some x) :
    CompletesWith i s F d (IsClean s.status (f F x)) :=
  ⟨_, _, hi.trans (move_eq hd hx), move_delivered s (Form.dst_word hd).1 (f F x), isClean_clean s.status (f F x)⟩

/-- The four moves, in either format (R201 to R204). -/
theorem moves_complete (hd : form.dst F t = .word d) (hx : srcVal s F (form.src F r) = some x) :
    CompletesWith (.fcpy form (.num F) r t) s F d (IsClean s.status x) ∧
    CompletesWith (.fabs form (.num F) r t) s F d (IsClean s.status (moveAbs F x)) ∧
    CompletesWith (.fneg form (.num F) r t) s F d (IsClean s.status (moveNeg F x)) ∧
    CompletesWith (.fnegabs form (.num F) r t) s F d (IsClean s.status (moveNegAbs F x)) :=
  ⟨completesWith_of_move (f := moveCopy) rfl hd hx, completesWith_of_move (f := moveAbs) rfl hd hx,
    completesWith_of_move (f := moveNeg) rfl hd hx, completesWith_of_move (f := moveNegAbs) rfl hd hx⟩

end Moves

/-- Settles O19: the four moves complete in either format, and the masks of the statement are those of their values. -/
theorem movesCompleteAndMove : Obligations.MovesCompleteAndMove := by
  intro s form r t d
  constructor
  · intro x hd hx
    rw [← moveAbs_sgl, ← moveNeg_sgl, ← moveNegAbs_sgl]
    exact moves_complete hd hx
  · intro x hd hx
    rw [← moveAbs_dbl, ← moveNeg_dbl, ← moveNegAbs_dbl]
    exact moves_complete hd hx

/-! ## FID -/

theorem exec_fid (s : State) : exec .fid s = .refused .fid := rfl

theorem decode_fid (v : Variant) : decode v 0x30000000#32 = .ok .fid := by
  rw [decode, if_pos rfl]

/-- Sub-ops 0 and 1 of class 0 are unassigned but for the FID word (R94, R206). -/
theorem decode_ne_ok_of_class0_sub_lt_two {v : Variant} {form : Form} {w : Word} (hfid : w ≠ 0x30000000#32)
    (hop : field w 0 5 = form.code) (hcls : field w 21 22 = 0) (hsub : field w 16 18 < 2) (i : Instr) :
    decode v w ≠ .ok i := by
  intro h
  obtain ⟨-, hassigned, -⟩ := decodeClass0_ok v (decodeClass0_of_decode hfid hop h hcls)
  exact absurd hsub (Nat.not_lt.2 hassigned)

/-- Settles O21: the FID word decodes to FID, which is refused; the other words decode to nothing. -/
theorem fidStops : Obligations.FidStops := fun s =>
  ⟨exec_fid s, (dispatchWord_of_ok (decode_fid s.variant)).trans (exec_fid s), fun _ hfid hop hcls hsub =>
    dispatchWord_of_undecodable (decode_ne_ok_of_class0_sub_lt_two (form := .op0C) hfid hop hcls hsub)⟩

end Machine

end Sys2Proof
end

section
/-! Completion of the one- and two-source instructions (42_arith.md R220; 44_convert.md R280 to R288): a readable source and a
data destination give a next state with the kernel's result delivered. -/

namespace Sys2Proof.Machine

section Shapes
variable {i : Instr} {s : State} {form : Form} {F G : Fmt} {r r1 r2 t : RegSel} {d : Fin 64} {x y : Enc F}

/-- An instruction whose meaning is the one-source shape of a kernel completes with what the kernel returns (R220). -/
theorem completesWith_of_unary {op : Word → BitVec 64 → BitVec 64 → Enc F → KResult G} {P : KResult G → Prop}
    (hi : exec i s = unary s F G (form.src F r) (form.dst G t) op) (hd : form.dst G t = .word d)
    (hx : srcVal s F (form.src F r) = some x) (hP : P (op s.status (s.draw 0) (s.draw 1) x)) : CompletesWith i s G d P :=
  ⟨_, _, hi.trans (unary_eq hd hx), deliver_delivered s (Form.dst_word hd).1 _, hP⟩

/-- An instruction whose meaning is the two-source shape of a kernel completes with what the kernel returns (R220). -/
theorem completesWith_of_binary {op : Word → BitVec 64 → Enc F → Enc F → KResult F} {P : KResult F → Prop}
    (hi : exec i s = binary s F (form.src F r1) (form.src F r2) (form.dst F t) op) (hd : form.dst F t = .word d)
    (hx : srcVal s F (form.src F r1) = some x) (hy : srcVal s F (form.src F r2) = some y)
    (hP : P (op s.status (s.draw 0) x y)) : CompletesWith i s F d P :=
  ⟨_, _, hi.trans (binary_eq hd hx hy), deliver_delivered s (Form.dst_word hd).1 _, hP⟩

end Shapes

/-- Settles O23: five two-source and two one-source instructions, each its shape of its kernel. -/
theorem arithmeticCompletes : Obligations.ArithmeticCompletes := by
  intro s form F r1 r2 t d x y hd hx
  refine ⟨fun hy => ⟨?_, ?_, ?_, ?_, ?_⟩, ?_, ?_⟩
  · exact completesWith_of_binary (op := kFadd F) rfl hd hx hy ⟨_, rfl⟩
  · exact completesWith_of_binary (op := kFsub F) rfl hd hx hy ⟨_, rfl⟩
  · exact completesWith_of_binary (op := kFmpy F) rfl hd hx hy ⟨_, rfl⟩
  · exact completesWith_of_binary (op := kFdiv F) rfl hd hx hy ⟨_, rfl⟩
  · exact completesWith_of_binary (op := kFrem F) rfl hd hx hy ⟨_, rfl⟩
  · exact completesWith_of_unary (op := fun st u _ => kFsqrt F st u) rfl hd hx ⟨_, rfl⟩
  · exact completesWith_of_unary (op := fun st u _ => kFrnd F st u) rfl hd hx ⟨_, rfl⟩

/-- Settles O24: each conversion is the one-source shape of its kernel, with its mode and signedness. -/
theorem conversionsComplete : Obligations.ConversionsComplete := by
  refine ⟨fun s form r t d x hd hx => ?_, fun s form r t d x hd hx => ?_,
    fun s form F G r t d x hd hx => ⟨?_, ?_, ?_, ?_, ?_, ?_⟩⟩
  · exact completesWith_of_unary (op := fun st u _ => kCnvSD st u) rfl hd hx ⟨_, rfl⟩
  · exact completesWith_of_unary (op := kCnvDS) rfl hd hx ⟨_, _, rfl⟩
  · exact completesWith_of_unary (op := fun st u _ => kCnvXF F G true st u) rfl hd hx ⟨_, rfl⟩
  · exact completesWith_of_unary (op := fun st u _ => kCnvXF F G false st u) rfl hd hx ⟨_, rfl⟩
  · exact completesWith_of_unary (op := fun st u _ => kCnvFX F G true (rmOf st) st u) rfl hd hx ⟨_, rfl⟩
  · exact completesWith_of_unary (op := fun st u _ => kCnvFX F G true .rz st u) rfl hd hx ⟨_, rfl⟩
  · exact completesWith_of_unary (op := fun st u _ => kCnvFX F G false (rmOf st) st u) rfl hd hx ⟨_, rfl⟩
  · exact completesWith_of_unary (op := fun st u _ => kCnvFX F G false .rz st u) rfl hd hx ⟨_, rfl⟩

end Sys2Proof.Machine
end

section
/-! The values of FADD, FSUB, FMPY, FDIV and FREM (42_arith.md R221 to R225): the NaN rule, then one clause per case of the
kernel. -/

namespace Sys2Proof

theorem isFinished_finish {F : Fmt} (st : Word) (u : BitVec 64) (r : ℚ) (zs : Bool) :
    IsFinished st r zs (finish F st u r zs) :=
  ⟨u, rfl⟩

theorem zeroSumSign_eq (st : Word) (bothZero sx sy : Bool) :
    zeroSumSign st bothZero sx sy = if bothZero = true ∧ sx = sy then sx else decide (rmOf st = .rmi) := by
  simp [zeroSumSign, beq_eq_decide]

theorem eq_infOf_of_isInf {F : Fmt} {x : Enc F} (h : isInf x = true) : x = infOf F (signOf x) := by
  obtain ⟨he, hf⟩ : expOf x = F.maxExp ∧ fracOf x = 0 := by simpa [isInf] using h
  rw [infOf, ← he, ← hf, pack_fields]

theorem negate_infOf (F : Fmt) (s : Bool) : negate (infOf F s) = infOf F (!s) := by
  cases F <;> cases s <;> decide

/-- Settles O30: the cases of the kernel in order. -/
theorem faddRule : Obligations.FaddRule := by
  intro F st u x y
  refine ⟨isNanResult_afterNaN st u _ _, fun hn => ?_⟩
  simp only [kFadd, afterNaN_noNaN hn, zeroSumSign_eq]
  refine ⟨fun hx hy hs => ?_, fun hx hy hs => ?_, fun hx hy => ?_, fun hx hy => ?_, fun hx hy => ?_⟩
  · simpa [hx, hy, hs] using isInvalid_invalid st u _
  · simpa [hx, hy, hs] using isClean_clean st x
  · simpa [hx, hy] using isClean_clean st x
  · simpa [hx, hy] using isClean_clean st y
  · simpa [hx, hy, and_assoc] using isFinished_finish st u _ _

/-- Settles O31: the cases of the kernel in order; an infinite `y` negated is the infinity of the other sign. -/
theorem fsubRule : Obligations.FsubRule := by
  intro F st u x y
  refine ⟨isNanResult_afterNaN st u _ _, fun hn => ?_⟩
  simp only [kFsub, afterNaN_noNaN hn, zeroSumSign_eq]
  refine ⟨fun hx hy hs => ?_, fun hx hy hs => ?_, fun hx hy => ?_, fun hx hy => ?_, fun hx hy => ?_⟩
  · simpa [hx, hy, hs] using isInvalid_invalid st u _
  · simpa [hx, hy, hs] using isClean_clean st x
  · simpa [hx, hy] using isClean_clean st x
  · rw [← negate_infOf, ← eq_infOf_of_isInf hy]
    simpa [hx, hy] using isClean_clean st (negate y)
  · simpa [hx, hy, and_assoc, Bool.eq_not] using isFinished_finish st u _ _

/-- Settles O32: the cases of the kernel in order; an infinity is no zero. -/
theorem fmpyRule : Obligations.FmpyRule := by
  intro F st u x y
  refine ⟨isNanResult_afterNaN st u _ _, fun hn => ?_⟩
  simp only [kFmpy, afterNaN_noNaN hn]
  refine ⟨fun h => ?_, fun hx hy => ?_, fun hx hy => ?_, fun hx hy => ?_⟩
  · simpa [h] using isInvalid_invalid st u _
  · simpa [hx, hy, isZero_of_isInf hx] using isClean_clean st (infOf F _)
  · simpa [hx, hy, isZero_of_isInf hy] using isClean_clean st (infOf F _)
  · simpa [hx, hy] using isFinished_finish st u _ _

/-- Settles O33: the cases of the kernel in order; an infinity is no zero. -/
theorem fdivRule : Obligations.FdivRule := by
  intro F st u x y
  refine ⟨isNanResult_afterNaN st u _ _, fun hn => ?_⟩
  simp only [kFdiv, afterNaN_noNaN hn]
  refine ⟨fun hx hy => ?_, fun hx hy => ?_, fun hx hy => ?_, fun hx hy => ?_, fun hx hx0 hy0 => ?_, fun hx hy hy0 => ?_⟩
  · simpa [hx, hy] using isInvalid_invalid st u _
  · simpa [hx, hy] using isInvalid_invalid st u _
  · simpa [hx, hy, isZero_of_isInf hx] using isClean_clean st (infOf F _)
  · simpa [hx, hy, isZero_of_isInf hy] using isClean_clean st (zeroOf F _)
  · have hy : isInf y = false := by
      rw [← Bool.not_eq_true]
      exact fun h => by simp [isZero_of_isInf h] at hy0
    simpa [hx, hy, hx0, hy0] using isDivZero_divzero st u _
  · simpa [hx, hy, hy0] using isFinished_finish st u _ _

/-- Settles O34: the cases of the kernel in order; `nearestEven` is the only integer nearest the quotient. -/
theorem fremRule : Obligations.FremRule := by
  intro F st u x y
  refine ⟨isNanResult_afterNaN st u _ _, fun hn => ?_⟩
  simp only [kFrem, afterNaN_noNaN hn]
  refine ⟨fun h => ?_, fun hx hy => ?_, fun hx hx0 hy0 => ?_, fun hx hy hx0 hy0 n hnear heven => ?_⟩
  · simpa [h] using isInvalid_invalid st u _
  · simpa [hx, hy, isZero_of_isInf hy] using isClean_clean st x
  · simpa [hx, hx0, hy0] using isClean_clean st x
  · rw [nearestEven_unique hnear heven]
    simpa [hx, hy, hx0, hy0] using isFinished_finish st u _ _

theorem absVal_pos {F : Fmt} {x : Enc F} (h : isZero x = false) : 0 < absVal x :=
  lt_of_le_of_ne (absVal_nonneg x) fun h0 => by simp [(absVal_eq_zero x).1 h0.symm] at h

theorem val_ne_zero {F : Fmt} {x : Enc F} (h : isZero x = false) : val x ≠ 0 :=
  abs_pos.1 ((abs_val x).symm ▸ absVal_pos h)

/-- The remainder by the nearest integer is at most half of the divisor (R225). -/
theorem abs_remainder_le (a : ℚ) {b : ℚ} (hb : b ≠ 0) : |a - nearestEven (a / b) * b| ≤ |b| / 2 :=
  calc |a - nearestEven (a / b) * b| = |a / b - nearestEven (a / b)| * |b| := by
        rw [← abs_mul, sub_mul, div_mul_cancel₀ a hb]
    _ ≤ 1 / 2 * |b| := mul_le_mul_of_nonneg_right (nearestEven_spec _) (abs_nonneg b)
    _ = |b| / 2 := by ring

/-- Settles O35: the remainder is zero or representable, so `finish` delivers it or, trapped, wraps it. -/
theorem remainderIsExact : Obligations.RemainderIsExact := by
  intro F st u x y hx hy hx0 hy0
  simp only [kFrem_finite hx hy hx0 hy0]
  have hbound : |val x - nearestEven (val x / val y) * val y| ≤ |val y| / 2 := abs_remainder_le _ (val_ne_zero hy0)
  have hrep := remainder_representable hx hy hy0
  generalize nearestEven (val x / val y) = n at *
  have hexact : ∀ z : Enc F, isFinite z = true → val z = val x - n * val y →
      isFinite z = true ∧ |val z| ≤ |val y| / 2 ∧ ∃ n : Int, val z = val x - n * val y := fun z hfin hval =>
    ⟨hfin, by rwa [hval], n, hval⟩
  by_cases hr : val x - n * val y = 0
  · obtain ⟨hfin, hval⟩ := zeroOf_finite_val F (signOf x)
    rw [finish, if_pos hr]
    exact ⟨rfl, .inl rfl, fun _ => hexact _ hfin (hval.trans hr.symm)⟩
  · rw [finish_exact hr hrep]
    split
    case isTrue h => exact ⟨rfl, .inr ⟨rfl, h.2⟩, fun ho => by cases ho⟩
    case isFalse h =>
      have hfin := (enc_spec F (decide (val x - n * val y < 0)) (abs_nonneg _) hrep).2.2
      have hval := val_enc_signed (s := decide (val x - n * val y < 0)) (abs_nonneg _) hrep
      exact ⟨rfl, .inl rfl, fun _ => hexact _ hfin (hval.trans (signed_neg_abs _))⟩

end Sys2Proof
end

section
/-! The values of FSQRT and FRND (42_arith.md R226, R227), by the rounding of R150. -/

namespace Sys2Proof

theorem noNaN_singleton {F : Fmt} {x : Enc F} (h : isNaN x = false) : noNaN [x] = true := by
  simp [noNaN, h]

/-- A finite operand is no infinity. -/
theorem isInf_of_isFinite {F : Fmt} {x : Enc F} (h : isFinite x = true) : isInf x = false := (noNaN_of_isFinite h).2

theorem val_of_signOf_false {F : Fmt} {x : Enc F} (h : signOf x = false) : val x = absVal x := by
  rw [val, h, signed, if_neg (by decide)]

/-- The logarithm of a root is the exponent of the binade the real root lies in (R151). -/
theorem log2_root {v : ℚ} (hv : 0 < v) {e : Int} (hlow : ((pow2 e : ℚ) : ℝ) ≤ √(v : ℝ))
    (hhigh : √(v : ℝ) < ((pow2 (e + 1) : ℚ) : ℝ)) : (Mag.root v).log2 = e := by
  have hlow' : pow2 (2 * e) ≤ v := by
    rw [Real.le_sqrt' (pow2_real_pos e), sq] at hlow
    rw [two_mul, pow2_add]
    exact_mod_cast hlow
  have hhigh' : v < pow2 (2 * e + 1 + 1) := by
    rw [Real.sqrt_lt' (pow2_real_pos (e + 1)), sq] at hhigh
    rw [show 2 * e + 1 + 1 = e + 1 + (e + 1) by ring, pow2_add]
    exact_mod_cast hhigh
  have hle : 2 * e ≤ ilog2 v := (pow2_le_iff_le_ilog2 hv).1 hlow'
  have hlt : ilog2 v < 2 * e + 1 + 1 := pow2_lt.1 ((ilog2_spec hv).1.trans_lt hhigh')
  rw [Mag.log2]
  omega

/-- `finish` of the root of a representable value is its rounding to `p` bits, whatever rounding of R150 that is (R226). -/
theorem isRounded_finishMag_root {F : Fmt} {st : Word} {u : BitVec 64} {v w : ℚ} {e : Int} (hrep : Representable F v)
    (hv : 0 < v) (hlow : ((pow2 e : ℚ) : ℝ) ≤ √(v : ℝ)) (hhigh : √(v : ℝ) < ((pow2 (e + 1) : ℚ) : ℝ))
    (hw : IsRounding (rmOf st) false (e - F.prec + 1) √(v : ℝ) w) :
    IsRounded st (enc F false w) ((w : ℝ) ≠ √(v : ℝ)) (finishMag F st u false (.root v)) := by
  have hnonneg : (Mag.root v).nonneg := hv.le
  obtain ⟨hmin, hmax⟩ := root_normal hrep hv false (rmOf st)
  rw [finishMag_normal hmin hmax, log2_root hv hlow hhigh]
  have hval := roundmag_eq hnonneg hw
  have hix := roundmag_inexact hnonneg (e - F.prec + 1) false (rmOf st)
  rw [hval] at hix ⊢
  exact isRounded_inexactOnly hix

/-- Settles O36: the special cases of the kernel in order, then the rounded root. -/
theorem fsqrtRule : Obligations.FsqrtRule := by
  intro F st u x
  refine ⟨isNanResult_afterNaN st u _ _, fun hn => ?_⟩
  simp only [kFsqrt, afterNaN_noNaN (noNaN_singleton hn)]
  refine ⟨fun hx0 => ?_, fun hx0 hs => ?_, fun hx hs => ?_, fun hx hx0 hs e w hlow hhigh hw => ?_⟩
  · simpa [hx0] using isClean_clean st x
  · simpa [hx0, hs] using isInvalid_invalid st u _
  · simpa [hx, hs, isZero_of_isInf hx] using isClean_clean st x
  · have hval := val_of_signOf_false hs
    have hrep : Representable F (val x) := hval ▸ representable_absVal x hx
    have hpos : 0 < val x := hval ▸ absVal_pos hx0
    have hrounded := isRounded_finishMag_root (u := u) hrep hpos hlow hhigh hw
    simpa [hx0, hs, isInf_of_isFinite hx] using hrounded

/-- Settles O37: the special cases of the kernel, then the magnitude rounded to an integer. -/
theorem frndRule : Obligations.FrndRule := by
  intro F st u x
  refine ⟨isNanResult_afterNaN st u _ _, fun hn => ?_⟩
  simp only [kFrnd, afterNaN_noNaN (noNaN_singleton hn)]
  refine ⟨fun h => ?_, fun hx hx0 n hw => ?_⟩
  · simpa [h] using isClean_clean st x
  · rw [abs_val] at hw ⊢
    have hround := roundmag_of_isRounding (absVal_nonneg x) hw
    simp only [hx0, isInf_of_isFinite hx, hround, Bool.or_self, Bool.false_eq_true, if_false]
    exact isRounded_inexactOnly decide_eq_true_iff

end Sys2Proof
end

section
/-! FADD and FMPY commute on finite operands (42_arith.md R228), and need not on two NaN operands, of which the NaN rule returns
the first. -/

namespace Sys2Proof

theorem zeroSumSign_comm (st : Word) (z sx sy : Bool) : zeroSumSign st z sx sy = zeroSumSign st z sy sx := by
  cases sx <;> cases sy <;> simp [zeroSumSign]

theorem kFadd_comm {F : Fmt} {x y : Enc F} (hx : isFinite x = true) (hy : isFinite y = true) (st : Word) (u : BitVec 64) :
    kFadd F st u x y = kFadd F st u y x := by
  rw [kFadd_finite hx hy, kFadd_finite hy hx, add_comm, Bool.and_comm, zeroSumSign_comm]

theorem kFmpy_comm {F : Fmt} {x y : Enc F} (hx : isFinite x = true) (hy : isFinite y = true) (st : Word) (u : BitVec 64) :
    kFmpy F st u x y = kFmpy F st u y x := by
  rw [kFmpy_finite hx hy, kFmpy_finite hy hx, mul_comm, Bool.xor_comm]

theorem not_isSNaN_of_isQNaN {F : Fmt} {x : Enc F} (h : isQNaN x = true) : isSNaN x = false := by
  rw [isQNaN, Bool.and_eq_true] at h
  simpa using h.2

/-- With a quiet first operand and no signaling second one the NaN rule returns the first, whatever the kernel (R146). -/
theorem afterNaN_pair_of_quiet {F : Fmt} {x y : Enc F} (hx : isQNaN x = true) (hy : isSNaN y = false) (st : Word)
    (u : BitVec 64) (k : KResult F) : afterNaN [x, y] st u k = .clean st x := by
  simp [afterNaN, nanRule, hx, not_isSNaN_of_isQNaN hx, hy]

/-- Two different quiet NaNs exchanged are two different results, so no kernel of two operands commutes on them (R228). -/
theorem afterNaN_pair_ne {F : Fmt} {x y : Enc F} (hx : isQNaN x = true) (hy : isQNaN y = true) (hne : x ≠ y) (st : Word)
    (u : BitVec 64) (k k' : KResult F) : afterNaN [x, y] st u k ≠ afterNaN [y, x] st u k' := by
  rw [afterNaN_pair_of_quiet hx (not_isSNaN_of_isQNaN hy), afterNaN_pair_of_quiet hy (not_isSNaN_of_isQNaN hx)]
  exact fun h => hne (congrArg KResult.res h)

namespace Machine

/-- The two-source shape of a kernel with its sources exchanged (R220). -/
theorem binary_swap {s : State} {F : Fmt} {a b : SrcOp} {d : DstOp} {x y : Enc F}
    {op : Word → BitVec 64 → Enc F → Enc F → KResult F} (hx : srcVal s F a = some x) (hy : srcVal s F b = some y)
    (hop : ∀ st u, op st u x y = op st u y x) : binary s F a b d op = binary s F b a d op := by
  simp only [binary, withSrc_of_srcVal hx, withSrc_of_srcVal hy, hop]

/-- Settles O49: the exact sum and product commute; the counterexample is two quiet NaNs of different fractions. -/
theorem addAndMultiplyCommute : Obligations.AddAndMultiplyCommute := by
  refine ⟨fun s form F r1 r2 t x y hx hy hfx hfy => ⟨?_, ?_⟩, 0x7F800001#32, 0x7F800002#32, by decide, by decide, fun st u =>
    ⟨?_, ?_⟩⟩
  · exact binary_swap hx hy (kFadd_comm hfx hfy)
  · exact binary_swap hx hy (kFmpy_comm hfx hfy)
  · exact afterNaN_pair_ne (F := .sgl) (by decide) (by decide) (by decide) st u _ _
  · exact afterNaN_pair_ne (F := .sgl) (by decide) (by decide) (by decide) st u _ _

end Machine

end Sys2Proof
end

section
/-! The fused and the multiple instructions (43_fused_multi.md R260 to R266): completion of FMPYFADD and FMPYNFADD, the value of
their kernel, and the two ends of FMPYADD and FMPYSUB, both results written or none. -/

namespace Sys2Proof

/-! ## The fused kernel -/

/-- Settles O38: the cases of the kernel in order. -/
theorem fmaRule : Obligations.FmaRule := by
  intro F neg st u x y z
  refine ⟨isNanResult_afterNaN st u _ _, fun hn => ?_⟩
  simp only [kFma, afterNaN_noNaN hn, zeroSumSign_eq]
  generalize (signOf x ^^ signOf y ^^ neg) = sp
  refine ⟨fun h => ?_, fun h0 hinf hz hs => ?_, fun h0 hinf hz => ?_, fun hx hy hz => ?_, fun hx hy hz => ?_⟩
  · simpa [h] using isInvalid_invalid st u _
  · simpa [h0, hinf, hz, hs] using isInvalid_invalid st u _
  · simpa [h0, hinf, hz] using isClean_clean st (infOf F _)
  · simpa [hx, hy, hz] using isClean_clean st z
  · simpa [hx, hy, hz, signed, and_assoc] using isFinished_finish st u _ _

/-! ## Kernels on finite operands with overflow and underflow untrapped: the free value has no part (R151) -/

section Untrapped
variable {F : Fmt} {st : Word} {x y z : Enc F} (hO : enabled .O st = false) (hU : enabled .U st = false)
  (hx : isFinite x = true) (hy : isFinite y = true) (u u' : BitVec 64)
include hO hU hx hy

theorem kFadd_untrapped : kFadd F st u x y = kFadd F st u' x y := by
  rw [kFadd_finite hx hy, kFadd_finite hx hy, finish_untrapped hO hU]

theorem kFmpy_untrapped : kFmpy F st u x y = kFmpy F st u' x y := by
  rw [kFmpy_finite hx hy, kFmpy_finite hx hy, finish_untrapped hO hU]

theorem kFma_untrapped (hz : isFinite z = true) (neg : Bool) : kFma F neg st u x y z = kFma F neg st u' x y z := by
  rw [kFma_finite hx hy hz, kFma_finite hx hy hz, finish_untrapped hO hU]

end Untrapped

/-- The triple of R260 through the fused kernel: the square is not rounded before the sum. -/
theorem kFma_triple (u : BitVec 64) :
    (kFma .sgl false 0 u 0x3F800800#32 0x3F800800#32 0xBF800000#32).res = 0x3A000400#32 := by
  rw [kFma_untrapped (by decide) (by decide) (by decide) (by decide) u 0 (by decide)]
  decide +kernel

/-- The rounded square loses its last bit. -/
theorem kFmpy_triple (u : BitVec 64) : (kFmpy .sgl 0 u 0x3F800800#32 0x3F800800#32).res = 0x3F801000#32 := by
  rw [kFmpy_untrapped (by decide) (by decide) (by decide) (by decide) u 0]
  decide +kernel

theorem kFadd_triple (v : BitVec 64) : (kFadd .sgl 0 v 0x3F801000#32 0xBF800000#32).res = 0x3A000000#32 := by
  rw [kFadd_untrapped (by decide) (by decide) (by decide) (by decide) v 0]
  decide +kernel

namespace Machine

/-! ## Completion of the fused instructions -/

/-- An instruction whose meaning is the fused format completes with what the fused kernel returns (R260). -/
theorem completesWith_of_fused {i : Instr} {s : State} {F : Fmt} {rm1 rm2 ra t : RegSel} {d : Fin 64} {x y z : Enc F}
    {neg : Bool} (hi : exec i s = fused s F rm1 rm2 ra t neg) (hd : dstOf (fusedIndex F t) = .word d)
    (hx : srcVal s F (srcOf (fusedIndex F rm1)) = some x) (hy : srcVal s F (srcOf (fusedIndex F rm2)) = some y)
    (hz : srcVal s F (srcOf (fusedIndex F ra)) = some z) :
    CompletesWith i s F d (fun k => ∃ u, k = kFma F neg s.status u x y z) :=
  ⟨_, _, hi.trans (ternary_eq hd hx hy hz), deliver_delivered s (fused_word hd) _, _, rfl⟩

/-- Settles O25: both instructions are the three-source shape of the fused kernel, the product negated or not. -/
theorem fusedCompletes : Obligations.FusedCompletes := fun _ _ _ _ _ _ _ _ _ _ hd hx hy hz =>
  ⟨completesWith_of_fused rfl hd hx hy hz, completesWith_of_fused rfl hd hx hy hz⟩

/-! ## The two ends of a multiple instruction -/

/-- Both results of a multiple instruction written, `ta` last, with the second half's status word and outcome NONE (R264). -/
structure BothWritten (s t : State) {F : Fmt} (tm ta : Fin 32) (m q : KResult F) : Prop where
  outcome : t.returned = .outcome .none
  status : t.status = q.status
  second : t.read F (multiIndex F ta) = q.res
  first : tm ≠ ta → t.read F (multiIndex F tm) = m.res
  others : ∀ j, j ≠ 0 → j ∉ operandWords F (multiIndex F tm) → j ∉ operandWords F (multiIndex F ta) →
    t.word j = s.word j

section Combine
variable (s : State) {F : Fmt} {rm1 rm2 tm ta ra : Fin 32} {a b : Enc F} (c e : Enc F)
  (op2 : Word → BitVec 64 → Enc F → Enc F → KResult F)

theorem multiCombine_bothWritten (htm : dataIndex F (multiIndex F tm)) (hta : dataIndex F (multiIndex F ta))
    (hm : (kFmpy F s.status (s.draw 0) a b).outcome = .none)
    (hq : (op2 (kFmpy F s.status (s.draw 0) a b).status (s.draw 1) c e).outcome = .none) :
    BothWritten s (multiCombine s F (multiIndex F tm) (multiIndex F ta) a b c e op2) tm ta
      (kFmpy F s.status (s.draw 0) a b) (op2 (kFmpy F s.status (s.draw 0) a b).status (s.draw 1) c e) := by
  obtain ⟨hret, hstatus, -, -, hsecond, hothers, hfirst⟩ := (multiCombine_cases s hta a b c e op2).2 hm hq
  exact ⟨hret, hstatus, hsecond, fun hne => read_multi hne htm hfirst, hothers⟩

theorem multiCombine_fails
    (h : ¬ ((kFmpy F s.status (s.draw 0) a b).outcome = .none ∧
      (op2 (kFmpy F s.status (s.draw 0) a b).status (s.draw 1) c e).outcome = .none)) (tm ta : Fin 64) :
    multiCombine s F tm ta a b c e op2 = s.unimplemented :=
  if_neg h

/-- With data destinations and known operands the multiple instruction is its combination (R264). -/
theorem multi_eq (hra : ¬ (F = .dbl ∧ ra = 0)) (htm : 8 ≤ (multiIndex F tm).val) (hta : 8 ≤ (multiIndex F ta).val)
    (ha : srcVal s F (srcOf (multiIndex F rm1)) = some a) (hb : srcVal s F (srcOf (multiIndex F rm2)) = some b) :
    multi s F rm1 rm2 ta ra tm op2 = .next (multiCombine s F (multiIndex F tm) (multiIndex F ta) a b
      (s.read F (multiIndex F ta)) (s.read F (multiIndex F ra)) op2) := by
  have hzero : ¬ (multiIndex F tm = 0 ∨ multiIndex F ta = 0) := by
    simp only [Fin.ext_iff, Fin.val_zero]
    omega
  have hqueue : ¬ (multiIndex F tm < 8 ∨ multiIndex F ta < 8) := not_or.2 ⟨not_lt.2 htm, not_lt.2 hta⟩
  rw [multi, if_neg hra, if_neg hzero, if_neg hqueue, withSrc_of_srcVal ha, withSrc_of_srcVal hb]

end Combine

/-- FMPYADD and FMPYSUB, told apart by the kernel of their second half (R262, R263). -/
theorem exec_multi {i : Instr} {F : Fmt} {rm1 rm2 ta ra tm : Fin 32} {op2 : Word → BitVec 64 → Enc F → Enc F → KResult F}
    (h : (i = .fmpyadd F rm1 rm2 ta ra tm ∧ op2 = kFadd F) ∨ (i = .fmpysub F rm1 rm2 ta ra tm ∧ op2 = kFsub F))
    (s : State) : exec i s = multi s F rm1 rm2 ta ra tm op2 := by
  obtain ⟨rfl, rfl⟩ | ⟨rfl, rfl⟩ := h
  · rfl
  · rfl

/-- Settles O26: the combination with its two ends, at the free values the state draws. -/
theorem multipleComplete : Obligations.MultipleComplete := by
  intro s F rm1 rm2 ta ra tm a b hra htm hta ha hb i op2 hi
  refine ⟨_, s.draw 0, s.draw 1, (exec_multi hi s).trans (multi_eq s op2 hra htm hta ha hb), fun hm hq => ?_, fun h => ?_⟩
  · have hboth := multiCombine_bothWritten s _ _ op2 (multi_word (not_lt.2 htm)) (multi_word (not_lt.2 hta)) hm hq
    exact ⟨hboth.outcome, hboth.status, hboth.second, hboth.first, hboth.others⟩
  · rw [multiCombine_fails s _ _ op2 (not_and_or.2 h)]
    exact ⟨rfl, unimplemented_writesNothing s⟩

/-- A multiple instruction that answers a next state has written both results, or nothing (R266). -/
theorem multi_allOrNothing {s t : State} {F : Fmt} {rm1 rm2 ta ra tm : Fin 32}
    {op2 : Word → BitVec 64 → Enc F → Enc F → KResult F} (h : multi s F rm1 rm2 ta ra tm op2 = .next t) :
    t = s.unimplemented ∨ ∃ (a b : Enc F) (u v : BitVec 64),
      srcVal s F (srcOf (multiIndex F rm1)) = some a ∧ srcVal s F (srcOf (multiIndex F rm2)) = some b ∧
      let m := kFmpy F s.status u a b
      let q := op2 m.status v (s.read F (multiIndex F ta)) (s.read F (multiIndex F ra))
      m.outcome = .none ∧ q.outcome = .none ∧ BothWritten s t tm ta m q := by
  obtain rfl | ⟨a, b, htm, hta, ha, hb, rfl⟩ := multi_next h
  · exact .inl rfl
  · by_cases hnone : (kFmpy F s.status (s.draw 0) a b).outcome = .none ∧
        (op2 (kFmpy F s.status (s.draw 0) a b).status (s.draw 1) (s.read F (multiIndex F ta))
          (s.read F (multiIndex F ra))).outcome = .none
    · obtain ⟨hm, hq⟩ := hnone
      exact .inr ⟨a, b, s.draw 0, s.draw 1, ha, hb, hm, hq, multiCombine_bothWritten s _ _ op2 htm hta hm hq⟩
    · exact .inl (multiCombine_fails s _ _ op2 hnone _ _)

/-- Settles O27: the two ends of a multiple instruction; on the triple of R260 the addend cancels the leading part of the
square, and what is left shows whether the square was rounded. -/
theorem multipleAllOrNothing : Obligations.MultipleAllOrNothing := by
  refine ⟨fun s t F rm1 rm2 ta ra tm i op2 hi h => ?_, fun u v => ⟨kFma_triple u, ?_⟩⟩
  · obtain rfl | ⟨a, b, u, v, ha, hb, hm, hq, hboth⟩ := multi_allOrNothing ((exec_multi hi s).symm.trans h)
    · exact .inl ⟨rfl, unimplemented_writesNothing s⟩
    · exact .inr ⟨hboth.outcome, a, b, u, v, ha, hb, hm, hq, hboth.status, hboth.second, hboth.first⟩
  · rw [kFmpy_triple, kFadd_triple]

end Machine

end Sys2Proof
end

section
/-! FCNVFF (44_convert.md R281, R282): one equation of each kernel per class of operand, from which the clauses of the two
rules are read off. -/

namespace Sys2Proof

/-! ## Classes of an operand -/

/-- An operand that is no NaN is of neither kind of NaN. -/
theorem notNaN_kinds {F : Fmt} {x : Enc F} (h : isNaN x = false) : isSNaN x = false ∧ isQNaN x = false := by
  simp [isSNaN, isQNaN, h]

theorem isNaN_of_isInf {F : Fmt} {x : Enc F} (h : isInf x = true) : isNaN x = false := by
  obtain ⟨-, hfrac⟩ : expOf x = F.maxExp ∧ fracOf x = 0 := by simpa [isInf] using h
  simp [isNaN, hfrac]

theorem isFinite_of_isZero {F : Fmt} {x : Enc F} (h : isZero x = true) : isFinite x = true := by
  obtain ⟨hexp, -⟩ : expOf x = 0 ∧ fracOf x = 0 := by simpa [isZero] using h
  have hmax : 0 ≠ F.maxExp := by cases F <;> decide
  simpa [isFinite, hexp] using hmax

theorem isZero_eq_false_iff {F : Fmt} {x : Enc F} : isZero x = false ↔ absVal x ≠ 0 := by
  rw [← Bool.not_eq_true, ne_eq, absVal_eq_zero]

theorem enc_zero (F : Fmt) (s : Bool) : enc F s 0 = zeroOf F s := if_pos rfl

theorem quiet_eq_clearSig {F : Fmt} {x : Enc F} (h : fracOf x ≠ 2 ^ (F.fbits - 1)) (u : BitVec 64) :
    quiet u x = x &&& ~~~ sigMask F := if_neg h

/-! ## Single to double -/

/-- A magnitude of the single format is one of the double format. -/
theorem Representable.toDouble {v : ℚ} (h : Representable .sgl v) : Representable .dbl v := by
  obtain ⟨m, q, hv, hm, hq, hlt⟩ := h
  have hemin : Fmt.dbl.emin - Fmt.dbl.fbits ≤ Fmt.sgl.emin - Fmt.sgl.fbits := by decide
  have hemax : Fmt.sgl.emax + 1 ≤ Fmt.dbl.emax + 1 := by decide
  have hprec : 2 ^ Fmt.sgl.prec ≤ 2 ^ Fmt.dbl.prec := Nat.pow_le_pow_right (by decide) (by decide)
  exact ⟨m, q, hv, hm.trans_le hprec, hemin.trans hq, hlt.trans_le (pow2_le.2 hemax)⟩

section
variable {x : Enc .sgl} (st : Word) (u : BitVec 64)

theorem kCnvSD_of_isSNaN (h : isSNaN x = true) : kCnvSD st u x =
    invalid st u (if fracOf x = 2 ^ (Fmt.fbits .sgl - 1) then anyEnc .dbl u else widen (quiet u x)) := if_pos h

theorem kCnvSD_of_isQNaN (h : isQNaN x = true) : kCnvSD st u x = .clean st (widen x) := by
  simp [kCnvSD, not_isSNaN_of_isQNaN h, h]

theorem kCnvSD_of_isInf (h : isInf x = true) : kCnvSD st u x = .clean st (infOf .dbl (signOf x)) := by
  simp [kCnvSD, notNaN_kinds (isNaN_of_isInf h), h]

/-- A finite operand is encoded again, a zero by its sign alone. -/
theorem kCnvSD_of_isFinite (h : isFinite x = true) : kCnvSD st u x = .clean st (enc .dbl (signOf x) (absVal x)) := by
  obtain ⟨hnan, hinf⟩ := noNaN_of_isFinite h
  by_cases h0 : isZero x = true
  · simp [kCnvSD, notNaN_kinds hnan, hinf, h0, (absVal_eq_zero x).2 h0, enc_zero]
  · simp [kCnvSD, notNaN_kinds hnan, hinf, h0]

end

/-- A finite single encoded in the double format is finite, with its sign and value. -/
theorem enc_dbl_of_isFinite {x : Enc .sgl} (h : isFinite x = true) :
    isFinite (enc .dbl (signOf x) (absVal x)) = true ∧ signOf (enc .dbl (signOf x) (absVal x)) = signOf x ∧
      val (enc .dbl (signOf x) (absVal x)) = val x := by
  have hrep := (representable_absVal x h).toDouble
  obtain ⟨-, hsign, hfin⟩ := enc_spec .dbl (signOf x) (absVal_nonneg x) hrep
  exact ⟨hfin, hsign, val_enc_signed (absVal_nonneg x) hrep⟩

/-- Settles O39: a quieted operand keeps its sign and loses its signaling bit; the magnitude of a finite one is representable
in the wider format. -/
theorem singleToDoubleRule : Obligations.SingleToDoubleRule := by
  intro st u x
  refine ⟨fun hs => ?_, fun hq => ?_, fun hi => ?_, fun hf => ?_⟩
  · simp only [kCnvSD_of_isSNaN st u hs]
    refine ⟨_, fun (hne : fracOf x ≠ 2 ^ (Fmt.sgl.fbits - 1)) => ?_, isInvalid_invalid st u _⟩
    rw [if_neg hne, quiet_eq_clearSig hne, widen, signOf_clearSig, (fracOf_clearSig_of_isSNaN hs).1]
    rfl
  · simp only [kCnvSD_of_isQNaN st u hq]
    exact isClean_clean st _
  · simp only [kCnvSD_of_isInf st u hi]
    exact isClean_clean st _
  · simp only [kCnvSD_of_isFinite st u hf]
    exact ⟨rfl, rfl, enc_dbl_of_isFinite hf⟩

/-! ## Double to single -/

theorem narrow_of_ne_zero {n : Enc .dbl} (h : fracOf n / 2 ^ 29 ≠ 0) (v : BitVec 64) :
    narrow v n = pack .sgl (signOf n) 255 (fracOf n / 2 ^ 29) := if_neg h

theorem isQNaN_narrow_of_zero {n : Enc .dbl} (h : fracOf n / 2 ^ 29 = 0) (v : BitVec 64) : isQNaN (narrow v n) = true := by
  rw [narrow, if_pos h]
  exact isQNaN_anyQuietSgl v

section
variable {x : Enc .dbl} (st : Word) (u v : BitVec 64)

theorem kCnvDS_of_isSNaN (h : isSNaN x = true) : kCnvDS st u v x = invalid st u (narrow v (quiet u x)) := if_pos h

theorem kCnvDS_of_isQNaN (h : isQNaN x = true) : kCnvDS st u v x = .clean st (narrow v x) := by
  simp [kCnvDS, not_isSNaN_of_isQNaN h, h]

theorem kCnvDS_of_isInf (h : isInf x = true) : kCnvDS st u v x = .clean st (infOf .sgl (signOf x)) := by
  simp [kCnvDS, notNaN_kinds (isNaN_of_isInf h), h]

theorem kCnvDS_of_isZero (h : isZero x = true) : kCnvDS st u v x = .clean st (zeroOf .sgl (signOf x)) := by
  obtain ⟨hnan, hinf⟩ := noNaN_of_isFinite (isFinite_of_isZero h)
  simp [kCnvDS, notNaN_kinds hnan, hinf, h]

theorem kCnvDS_of_isFinite (h : isFinite x = true) (h0 : isZero x = false) :
    kCnvDS st u v x = finish .sgl st u (val x) (signOf x) := by
  obtain ⟨hnan, hinf⟩ := noNaN_of_isFinite h
  simp [kCnvDS, notNaN_kinds hnan, hinf, h0]

end

/-- Settles O40: one equation of the kernel for each clause; the quieted operand is narrowed like a quiet one. -/
theorem doubleToSingleRule : Obligations.DoubleToSingleRule := by
  intro st u v x
  refine ⟨fun hs => ?_, fun hq => ?_, fun hi => ?_, fun h0 => ?_, fun hf h0 => ?_⟩
  · simp only [kCnvDS_of_isSNaN st u v hs]
    refine ⟨_, fun hne => ?_, isInvalid_invalid st u _⟩
    have hfrac : fracOf (quiet u x) = fracOf x - 2 ^ 51 := by
      rw [quiet_eq_clearSig hne, (fracOf_clearSig_of_isSNaN hs).1]
      rfl
    have hsign : signOf (quiet u x) = signOf x := by rw [quiet_eq_clearSig hne, signOf_clearSig]
    rw [← hfrac, ← hsign]
    exact ⟨fun h => narrow_of_ne_zero h v, fun h => isQNaN_narrow_of_zero h v⟩
  · simp only [kCnvDS_of_isQNaN st u v hq]
    exact ⟨_, fun h => narrow_of_ne_zero h v, fun h => isQNaN_narrow_of_zero h v, isClean_clean st _⟩
  · simp only [kCnvDS_of_isInf st u v hi]
    exact isClean_clean st _
  · simp only [kCnvDS_of_isZero st u v h0]
    exact isClean_clean st _
  · simp only [kCnvDS_of_isFinite st u v hf h0]
    exact isFinished_finish st u _ _

end Sys2Proof
end

section
/-! Integer to float and float to integer (44_convert.md R283 to R288), for both sizes and formats, signed and unsigned. -/

namespace Sys2Proof

/-! ## Integer to float -/

/-- The sign of an integer is that of its rational value. -/
theorem decide_cast_neg (n : Int) : decide ((n : ℚ) < 0) = decide (n < 0) := by
  rw [decide_eq_decide]
  exact Int.cast_lt_zero

theorem kCnvXF_of_zero {F G : Fmt} {isSigned : Bool} {n : Enc F} (h : intVal isSigned n = 0) (st : Word) (u : BitVec 64) :
    kCnvXF F G isSigned st u n = .clean st (zeroOf G false) := by
  rw [kCnvXF, h]
  exact if_pos Int.cast_zero

/-- A rounded integer lies in the normal range of either format, so the kernel delivers it as any rounding of R150 gives it. -/
theorem kCnvXF_of_isRounding {F G : Fmt} {isSigned : Bool} {n : Enc F} {v : Int} (hv : intVal isSigned n = v) {st : Word}
    (u : BitVec 64) {e : Int} {w : ℚ} (hlow : pow2 e ≤ |(v : ℚ)|) (hhigh : |(v : ℚ)| < pow2 (e + 1))
    (hw : IsRounding (rmOf st) (decide (v < 0)) (e - G.prec + 1) (|(v : ℚ)| : ℚ) w) :
    kCnvXF F G isSigned st u n = .of (enc G (decide (v < 0)) w) (inexactOnly (decide (w ≠ |(v : ℚ)|)) st) := by
  have hsmall := intVal_natAbs_le isSigned n
  rw [hv] at hsmall
  have hne : v ≠ 0 := Int.cast_ne_zero.1 (abs_pos.1 ((pow2_pos e).trans_le hlow))
  obtain ⟨hn, ho⟩ := integer_normal G hne hsmall (decide (v < 0)) (rmOf st)
  rw [ilog2_eq hlow hhigh, roundmag_of_isRounding (abs_nonneg _) hw] at hn ho
  rw [← decide_cast_neg] at hw
  rw [kCnvXF, hv, finish_normal hlow hhigh hw hn ho, decide_cast_neg]

/-- Settles O41: zero is the exact case of `finish`, every other integer its normal case. -/
theorem integerToFloatRule : Obligations.IntegerToFloatRule := by
  intro F G isSigned st u n
  refine ⟨fun h0 => ?_, fun e w hlow hhigh hw => ?_⟩
  · simp only [kCnvXF_of_zero h0 st u]
    exact isClean_clean st _
  · simp only [kCnvXF_of_isRounding rfl u hlow hhigh hw]
    exact isRounded_inexactOnly decide_eq_true_iff

/-! ## Float to integer -/

/-- The range test and the default, with the least and the greatest integer of a size and signedness written out (R280, R285). -/
theorem inIntRange_iff (N : Nat) (isSigned : Bool) (n : Int) : inIntRange N isSigned n = true ↔
    (if isSigned then -2 ^ (N - 1) else 0) ≤ n ∧ n ≤ (if isSigned then 2 ^ (N - 1) - 1 else 2 ^ N - 1) := by
  cases isSigned <;> simp [inIntRange]

theorem intDefault_eq (N : Nat) (isSigned s : Bool) : intDefault N isSigned s =
    if s then (if isSigned then -2 ^ (N - 1) else 0) else (if isSigned then 2 ^ (N - 1) - 1 else 2 ^ N - 1) := by
  cases isSigned <;> cases s <;> simp [intDefault]

section
variable {F G : Fmt} {isSigned : Bool} {m : RMode} (st : Word) (u : BitVec 64) {x : Enc F}

theorem kCnvFX_of_nonfinite (h : isNaN x = true ∨ isInf x = true) :
    kCnvFX F G isSigned m st u x = invalid st u (encInt G (intDefault G.width isSigned (signOf x))) :=
  if_pos (by simpa using h)

theorem kCnvFX_of_isZero (h : isZero x = true) : kCnvFX F G isSigned m st u x = .clean st (encInt G 0) := by
  simp [kCnvFX, noNaN_of_isFinite (isFinite_of_isZero h), h]

/-- A finite nonzero operand whose magnitude rounds to `a`: the range is judged on `a` with the operand's sign. -/
theorem kCnvFX_of_roundmag (hx : isFinite x = true) (h0 : isZero x = false) {a : Nat} {ix : Bool}
    (hround : roundmag (.rat (absVal x)) 0 (signOf x) m = ⟨a, ix⟩) {n : Int} (hn : n = if signOf x then -(a : Int) else a) :
    kCnvFX F G isSigned m st u x =
      if inIntRange G.width isSigned n then .of (encInt G n) (inexactOnly ix st)
      else invalid st u (encInt G (intDefault G.width isSigned (signOf x))) := by
  have hfloor : (a : ℚ).floor = a := Rat.floor_intCast a
  simp [kCnvFX, noNaN_of_isFinite hx, h0, hround, hfloor, hn]

end

/-- Settles O42: one equation of the kernel for each class of operand; a finite nonzero one is in range or not. -/
theorem floatToIntegerRule : Obligations.FloatToIntegerRule := by
  intro F G isSigned m st u x
  simp only [← intDefault_eq, ← inIntRange_iff]
  refine ⟨fun h => ?_, fun h0 => ?_, fun hx h0 a hw => ?_⟩
  · rw [kCnvFX_of_nonfinite st u h]
    exact isInvalid_invalid st u _
  · rw [kCnvFX_of_isZero st u h0]
    exact isClean_clean st _
  · rw [abs_val] at hw ⊢
    rw [kCnvFX_of_roundmag st u hx h0 (roundmag_of_isRounding (absVal_nonneg x) hw) rfl]
    refine ⟨fun hlow hhigh => ?_, fun hout => ?_⟩
    · rw [if_pos ((inIntRange_iff _ _ _).2 ⟨hlow, hhigh⟩)]
      exact isRounded_inexactOnly decide_eq_true_iff
    · rw [if_neg hout]
      exact isInvalid_invalid st u _

end Sys2Proof
end

section
/-! The round trips of the conversions (44_convert.md R290): a normal single through the double format, a word integer through
the double format. Every value on the way is representable, so nothing is rounded. -/

namespace Sys2Proof

/-- A nonzero representable result in the normal range is delivered exactly, with no exception (R151). -/
theorem finish_exact_normal {F : Fmt} {r : ℚ} (hn : pow2 F.emin ≤ |r|) (hrep : Representable F |r|) (st : Word)
    (u : BitVec 64) (zs : Bool) : finish F st u r zs = .clean st (enc F (decide (r < 0)) |r|) := by
  have hr : r ≠ 0 := abs_pos.1 ((pow2_pos _).trans_le hn)
  rw [finish_exact hr hrep, if_neg fun h => hn.not_gt h.1]

/-! ## Single to double and back -/

theorem isFinite_of_isNormal {F : Fmt} {x : Enc F} (h : isNormal x = true) : isFinite x = true := by
  simp only [isNormal, Bool.and_eq_true] at h
  exact h.2

/-- The magnitude of a normal encoding is at least the least normal one (R142). -/
theorem pow2_emin_le_absVal {F : Fmt} {x : Enc F} (h : isNormal x = true) : pow2 F.emin ≤ absVal x := by
  have hexp : expOf x ≠ 0 := by
    simp only [isNormal, Bool.and_eq_true, bne_iff_ne] at h
    exact h.1
  have hemin : F.emin ≤ (F.fbits : Int) + ((expOf x : Int) - F.bias - F.fbits) := by
    have hdef : F.emin = 1 - F.bias := rfl
    omega
  calc pow2 F.emin ≤ pow2 ((F.fbits : Int) + ((expOf x : Int) - F.bias - F.fbits)) := pow2_le.2 hemin
    _ = ((2 ^ F.fbits : Nat) : ℚ) * pow2 ((expOf x : Int) - F.bias - F.fbits) := by rw [pow2_add, pow2_nat]
    _ ≤ ((2 ^ F.fbits + fracOf x : Nat) : ℚ) * pow2 ((expOf x : Int) - F.bias - F.fbits) :=
      mul_le_mul_of_nonneg_right (by exact_mod_cast Nat.le_add_right _ _) (pow2_pos _).le
    _ = absVal x := by rw [absVal, if_neg hexp]

/-- The sign bit of a nonzero operand is the sign of its value. -/
theorem decide_val_neg {F : Fmt} {x : Enc F} (h : isZero x = false) : decide (val x < 0) = signOf x := by
  have hpos := absVal_pos h
  cases hs : signOf x
  · simp [val, hs, signed, hpos.le]
  · simp [val, hs, signed, hpos]

/-- A double of the value of a normal single narrows to that single, exactly. -/
theorem kCnvDS_of_val_eq {x : Enc .sgl} (hx : isNormal x = true) {y : Enc .dbl} (hy : isFinite y = true)
    (hval : val y = val x) (st : Word) (u v : BitVec 64) : kCnvDS st u v y = .clean st x := by
  have hmin := pow2_emin_le_absVal hx
  have hpos : 0 < absVal x := (pow2_pos _).trans_le hmin
  have hx0 : isZero x = false := isZero_eq_false_iff.2 hpos.ne'
  have hy0 : isZero y = false := by
    rw [isZero_eq_false_iff, ← abs_val, hval, abs_val]
    exact hpos.ne'
  have hfin := isFinite_of_isNormal hx
  rw [← abs_val] at hmin
  have hrep : Representable .sgl |val x| := (abs_val x).symm ▸ representable_absVal x hfin
  rw [kCnvDS_of_isFinite st u v hy hy0, hval, finish_exact_normal hmin hrep, decide_val_neg hx0, abs_val, enc_absVal x hfin]

/-! ## Word integer to double and back -/

/-- A word integer as a double. -/
def intDouble (v : Int) : Enc .dbl := enc .dbl (decide (v < 0)) |(v : ℚ)|

theorem abs_cast_eq_natAbs (v : Int) : |(v : ℚ)| = (v.natAbs : Nat) := by
  rw [Nat.cast_natAbs, Int.cast_abs]

theorem natAbs_toInt_le (n : Word) : n.toInt.natAbs ≤ 2 ^ 31 := by
  have hlow := BitVec.le_toInt n
  have hhigh := BitVec.toInt_lt (x := n)
  omega

/-- The double format holds every integer of at most 32 bits. -/
theorem representable_word {v : Int} (h : v.natAbs ≤ 2 ^ 31) : Representable .dbl |(v : ℚ)| := by
  have hmag : |(v : ℚ)| = (v.natAbs : ℚ) * pow2 0 := by rw [abs_cast_eq_natAbs, pow2_zero, mul_one]
  have hle : |(v : ℚ)| ≤ pow2 (31 : Nat) := by
    rw [abs_cast_eq_natAbs, pow2_nat]
    exact_mod_cast h
  have hprec : (2 : Nat) ^ 31 < 2 ^ Fmt.dbl.prec := Nat.pow_lt_pow_right (by decide) (by decide)
  exact ⟨v.natAbs, 0, hmag, h.trans_lt hprec, by decide, hle.trans_lt (pow2_lt.2 (by decide))⟩

theorem intDouble_spec {v : Int} (h : v.natAbs ≤ 2 ^ 31) :
    absVal (intDouble v) = |(v : ℚ)| ∧ signOf (intDouble v) = decide (v < 0) ∧ isFinite (intDouble v) = true :=
  enc_spec .dbl _ (abs_nonneg _) (representable_word h)

/-- A nonzero integer is at least the least normal magnitude. -/
theorem pow2_emin_le_abs_cast (F : Fmt) {v : Int} (hv : v ≠ 0) : pow2 F.emin ≤ |(v : ℚ)| := by
  have hone : (1 : ℚ) ≤ |(v : ℚ)| := by exact_mod_cast Int.one_le_abs hv
  have hemin : F.emin ≤ 0 := by cases F <;> decide
  exact (pow2_le.2 hemin).trans (pow2_zero.trans_le hone)

theorem kCnvXF_word (st : Word) (u : BitVec 64) (n : Enc .sgl) :
    kCnvXF .sgl .dbl true st u n = .clean st (intDouble n.toInt) := by
  have hval : intVal true n = n.toInt := rfl
  by_cases h0 : n.toInt = 0
  · rw [kCnvXF_of_zero (hval.trans h0), intDouble, h0]
    simp [enc_zero]
  · rw [kCnvXF, hval, finish_exact_normal (pow2_emin_le_abs_cast .dbl h0) (representable_word (natAbs_toInt_le n)),
      decide_cast_neg, intDouble]

theorem inIntRange_toInt (n : Word) : inIntRange 32 true n.toInt = true := by
  rw [inIntRange_iff]
  exact ⟨BitVec.le_toInt n, Int.le_sub_one_of_lt BitVec.toInt_lt⟩

theorem kCnvFX_intDouble (m : RMode) (st : Word) (u : BitVec 64) (n : Enc .sgl) :
    kCnvFX .dbl .sgl true m st u (intDouble n.toInt) = .clean st n := by
  have hback : encInt .sgl n.toInt = n := BitVec.ofInt_toInt
  obtain ⟨habs, hsign, hfin⟩ := intDouble_spec (natAbs_toInt_le n)
  by_cases h0 : n.toInt = 0
  · have hzero : isZero (intDouble n.toInt) = true := by rw [← absVal_eq_zero, habs, h0, Int.cast_zero, abs_zero]
    rw [kCnvFX_of_isZero st u hzero, ← h0, hback]
  · have hzero : isZero (intDouble n.toInt) = false := by
      rw [isZero_eq_false_iff, habs]
      exact abs_ne_zero.2 (Int.cast_ne_zero.2 h0)
    have hround : roundmag (.rat (absVal (intDouble n.toInt))) 0 (signOf (intDouble n.toInt)) m =
        ⟨(n.toInt.natAbs : Nat), false⟩ := by
      have hmag : ((n.toInt.natAbs : Nat) : ℚ) = (n.toInt.natAbs : ℚ) * pow2 0 := by rw [pow2_zero, mul_one]
      rw [habs, abs_cast_eq_natAbs, roundmag_of_multiple hmag le_rfl]
    have hn : n.toInt = if signOf (intDouble n.toInt) then -(n.toInt.natAbs : Int) else n.toInt.natAbs := by
      simp only [hsign, decide_eq_true_eq]
      omega
    rw [kCnvFX_of_roundmag st u hfin hzero hround hn, if_pos (inIntRange_toInt n), hback]
    rfl

/-- Settles O50: each first conversion is exact, and so is the second on its result. -/
theorem conversionRoundTrips : Obligations.ConversionRoundTrips := by
  refine ⟨fun st u u' v x hx => ?_, fun st u u' m n => ?_⟩
  · have hfin := isFinite_of_isNormal hx
    obtain ⟨hdbl, -, hval⟩ := enc_dbl_of_isFinite hfin
    rw [kCnvSD_of_isFinite st u hfin]
    exact ⟨kCnvDS_of_val_eq hx hdbl hval st u' v, rfl, rfl⟩
  · rw [kCnvXF_word]
    exact ⟨rfl, rfl, kCnvFX_intDouble m st u' n⟩

end Sys2Proof
end

section
/-! Compare and test (45_compare.md R310 to R317): the relation of two operands, the condition bit it selects, the completion of
FCMP with the C and V it leaves, and the forms of FTEST and XMPYU. -/

namespace Sys2Proof

/-! ## The relation (R310) -/

theorem extVal_of_isInf {F : Fmt} {x : Enc F} (h : isInf x = true) :
    extVal x = signed (signOf x) (pow2 (F.emax + 1)) := if_pos h

theorem extVal_of_isFinite {F : Fmt} {x : Enc F} (h : isFinite x = true) : extVal x = val x := by
  rw [extVal, isInf_of_isFinite h, if_neg Bool.false_ne_true]

/-- An infinity lies beyond every finite value on its side. -/
theorem extVal_order_of_isInf_of_isFinite {F : Fmt} {x y : Enc F} (hx : isInf x = true) (hy : isFinite y = true) :
    if signOf x then extVal x < extVal y else extVal y < extVal x := by
  obtain ⟨hlow, hhigh⟩ := abs_lt.1 (abs_val_lt hy)
  rw [extVal_of_isInf hx, extVal_of_isFinite hy]
  cases signOf x with
  | true => exact hlow
  | false => exact hhigh

/-- Two infinities of different signs are ordered by sign. -/
theorem extVal_order_of_signOf_ne {F : Fmt} {x y : Enc F} (hx : isInf x = true) (hy : isInf y = true)
    (h : signOf x ≠ signOf y) : if signOf x then extVal x < extVal y else extVal y < extVal x := by
  have hpos : -pow2 (F.emax + 1) < pow2 (F.emax + 1) := neg_lt_self (pow2_pos _)
  rw [extVal_of_isInf hx, extVal_of_isInf hy, Bool.eq_not.2 h.symm]
  cases signOf x with
  | true => exact hpos
  | false => exact hpos

section NotNaN
variable {F : Fmt} {x y : Enc F} (hx : isNaN x = false) (hy : isNaN y = false)
include hx hy

theorem relOf_of_notNaN :
    relOf x y = if extVal x = extVal y then .equal else if extVal x < extVal y then .less else .greater := by
  rw [relOf, hx, hy, Bool.or_false, if_neg Bool.false_ne_true]

theorem relOf_ne_unordered : relOf x y ≠ .unordered := by
  rw [relOf_of_notNaN hx hy]
  split
  · exact Rel.noConfusion
  · split <;> exact Rel.noConfusion

theorem relOf_of_lt (h : extVal x < extVal y) : relOf x y = .less := by
  rw [relOf_of_notNaN hx hy, if_neg h.ne, if_pos h]

theorem relOf_of_gt (h : extVal y < extVal x) : relOf x y = .greater := by
  rw [relOf_of_notNaN hx hy, if_neg h.ne', if_neg h.not_gt]

/-- The relation of operands that the sign `b` of one of them orders. -/
theorem relOf_of_order {b : Bool} (h : if b then extVal x < extVal y else extVal y < extVal x) :
    relOf x y = if b then .less else .greater := by
  cases b with
  | true => exact relOf_of_lt hx hy h
  | false => exact relOf_of_gt hx hy h

end NotNaN

theorem relOf_eq_unordered {F : Fmt} {x y : Enc F} : relOf x y = .unordered ↔ isNaN x = true ∨ isNaN y = true := by
  constructor
  · intro h
    by_contra hnan
    rw [not_or, Bool.not_eq_true, Bool.not_eq_true] at hnan
    exact relOf_ne_unordered hnan.1 hnan.2 h
  · intro h
    rw [relOf, if_pos (Bool.or_eq_true_iff.2 h)]

/-- Settles O29: finite operands compare by value, and an infinity is ordered by its sign. -/
theorem relationRule : Obligations.RelationRule := by
  intro F x y
  refine ⟨relOf_eq_unordered.2, fun hx hy => ?_, fun hx hy => ?_, fun hx hy => ?_, fun hx hy => ?_⟩
  · rw [relOf_of_notNaN (noNaN_of_isFinite hx).1 (noNaN_of_isFinite hy).1, extVal_of_isFinite hx, extVal_of_isFinite hy]
  · exact relOf_of_order (isNaN_of_isInf hx) (noNaN_of_isFinite hy).1 (extVal_order_of_isInf_of_isFinite hx hy)
  · have horder := extVal_order_of_isInf_of_isFinite hy hx
    have hnx := (noNaN_of_isFinite hx).1
    have hny := isNaN_of_isInf hy
    cases hs : signOf y with
    | true => exact relOf_of_gt hnx hny (by rwa [hs] at horder)
    | false => exact relOf_of_lt hnx hny (by rwa [hs] at horder)
  · have hnx := isNaN_of_isInf hx
    have hny := isNaN_of_isInf hy
    by_cases hs : signOf x = signOf y
    · have heq : extVal x = extVal y := by rw [extVal_of_isInf hx, extVal_of_isInf hy, hs]
      rw [relOf_of_notNaN hnx hny, if_pos heq, if_pos hs]
    · rw [if_neg hs]
      exact relOf_of_order hnx hny (extVal_order_of_signOf_ne hx hy hs)

/-! ## The condition (R312, R313) -/

/-- The position of a relation's bit in the condition `16 G + 8 L + 4 E + 2 U + X` (R313). -/
def Rel.pos : Rel → Nat
  | .greater => 4
  | .less => 3
  | .equal => 2
  | .unordered => 1

theorem Rel.bit_eq (r : Rel) : r.bit = 2 ^ r.pos := by cases r <;> rfl

theorem and_two_pow_ne_zero (n i : Nat) : (n &&& 2 ^ i != 0) = n.testBit i := by
  rw [Nat.and_two_pow]
  cases n.testBit i <;> simp

theorem condHolds_eq_testBit (c : Fin 32) (r : Rel) : condHolds c r = c.val.testBit r.pos := by
  rw [condHolds, r.bit_eq, and_two_pow_ne_zero]

theorem val_complement (c : Fin 32) : (Fin.ofNat 32 (c.val ^^^ 0x1C)).val = c.val ^^^ 0x1C :=
  Nat.mod_eq_of_lt (Nat.xor_lt_two_pow (n := 5) c.isLt (by decide))

/-- The complement `c XOR 0x1C` inverts the bits of the three ordered relations (R317). -/
theorem condHolds_complement (c : Fin 32) {r : Rel} (hr : r ≠ .unordered) :
    condHolds c r = !condHolds (Fin.ofNat 32 (c.val ^^^ 0x1C)) r := by
  have hmask : Nat.testBit 0x1C r.pos = true := by
    cases r with
    | unordered => exact absurd rfl hr
    | greater | less | equal => decide
  rw [condHolds_eq_testBit, condHolds_eq_testBit, val_complement, Nat.testBit_xor, hmask, Bool.xor_true, Bool.not_not]

/-- C is the condition's bit for the relation, also when INVALID is returned (R312). -/
theorem kFcmp_cBit {F : Fmt} (st : Word) (x y : Enc F) (c : Fin 32) :
    bitAt (kFcmp st x y c).2 cBit = condHolds c (relOf x y) := by
  rw [kFcmp_bit st x y c (by decide), if_pos rfl]

/-- Settles O51: C is `condHolds`, which the status word has no part in. -/
theorem compareComplementLaw : Obligations.CompareComplementLaw := by
  refine ⟨fun c => ?_, fun F x y c st st' hx hy => ?_⟩
  · have hpos := condHolds_eq_testBit c
    exact ⟨hpos .greater, hpos .less, hpos .equal, hpos .unordered⟩
  · have hr := relOf_ne_unordered hx hy
    refine ⟨hr, (kFcmp_cBit st x y c).trans (kFcmp_cBit st' x y c).symm, ?_⟩
    have hcompl := kFcmp_cBit st' x y (Fin.ofNat 32 (c.val ^^^ 0x1C))
    exact (kFcmp_cBit st x y c).trans ((condHolds_complement c hr).trans (congrArg not hcompl.symm))

/-! ## The invalid compare (R312, R314) -/

theorem compareInvalid_iff {F : Fmt} {x y : Enc F} {c : Fin 32} : compareInvalid x y c = true ↔
    (isNaN x = true ∨ isNaN y = true) ∧ (isSNaN x = true ∨ isSNaN y = true ∨ c.val.testBit 0 = true) := by
  have hx : (c.val &&& 0x01 != 0) = c.val.testBit 0 := and_two_pow_ne_zero c.val 0
  rw [compareInvalid, hx, Bool.and_eq_true, beq_iff_eq, relOf_eq_unordered, Bool.or_eq_true, Bool.or_eq_true, or_assoc]

theorem kFcmp_vBit {F : Fmt} (st : Word) (x y : Enc F) (c : Fin 32) : bitAt (kFcmp st x y c).2 0 =
    if compareInvalid x y c = true ∧ enabled .V st = false then true else bitAt st 0 := by
  rw [kFcmp_bit st x y c (by decide), if_neg (by decide)]
  simp only [Exc.flagBit, true_and]

theorem kFcmp_bit_of_ne {F : Fmt} (st : Word) (x y : Enc F) (c : Fin 32) {b : Nat} (hb : b < 32) (hv : b ≠ 0)
    (hc : b ≠ cBit) : bitAt (kFcmp st x y c).2 b = bitAt st b := by
  rw [kFcmp_bit st x y c hb, if_neg hc, if_neg fun h => hv h.1]

/-- The half bit is the parity of the index (R87). -/
theorem RegSel.single_mod_two (r : RegSel) : r.single.val % 2 = r.half.toNat := by
  have hhalf := Bool.toNat_le r.half
  simp only [RegSel.single]
  omega

namespace Machine

/-! ## Completion of FCMP -/

/-- What FCMP leaves: the kernel's outcome and status word (the PA20 compare queue apart, R316), and nothing else changed. -/
structure Compared (s t : State) {F : Fmt} (x y : Enc F) (c : Fin 32) : Prop where
  words : ∀ j, j ≠ 0 → t.word j = s.word j
  variant : t.variant = s.variant
  calls : t.calls = s.calls
  outcome : t.returned = .outcome (kFcmp s.status x y c).1
  status : ∀ b, b < 32 → ¬ (s.variant = .pa20 ∧ 6 ≤ b ∧ b ≤ 20) → bitAt t.status b = bitAt (kFcmp s.status x y c).2 b

theorem exec_fcmp {s : State} {form : Form} {F : Fmt} {r1 r2 : RegSel} {x y : Enc F} (c : Fin 32)
    (hx : srcVal s F (form.src F r1) = some x) (hy : srcVal s F (form.src F r2) = some y) :
    ∃ t, exec (.fcmp form F r1 r2 0 c) s = .next t ∧ Compared s t x y c := by
  rw [exec, execFcmp, if_pos rfl, withSrc_of_srcVal hx, withSrc_of_srcVal hy]
  refine ⟨_, rfl, fun j hj => ?_, rfl, rfl, rfl, fun b hb hq => ?_⟩
  · rw [State.word_finishWith, State.word_tookDraws, State.word_setStatus_ne _ _ _ hj]
  · rw [State.status_finishWith, State.status_tookDraws, State.status_setStatus]
    exact compareQueue_bit s.variant (s.draw 0) (kFcmp s.status x y c).2 hb hq

/-- Settles O28: the clauses are the kernel's outcome and the bits of its status word. -/
theorem fcmpCompletes : Obligations.FcmpCompletes := by
  intro s form F r1 r2 c x y hx hy
  obtain ⟨t, ht, h⟩ := exec_fcmp c hx hy
  have hC := (h.status cBit (by decide) fun hq => absurd hq.2.1 (by decide)).trans (kFcmp_cBit s.status x y c)
  have hV := (h.status 0 (by decide) fun hq => absurd hq.2.1 (by decide)).trans (kFcmp_vBit s.status x y c)
  have hout := h.outcome
  rw [kFcmp_outcome] at hout
  refine ⟨t, ht, h.words, h.variant, h.calls, ?_, fun b hb h0 h5 hq => ?_, fun hbad hen => ?_, fun hbad hen => ?_,
    fun hok => ?_⟩
  · rw [condHolds_eq_testBit] at hC
    refine hC.trans ?_
    cases relOf x y <;> rfl
  · exact (h.status b hb hq).trans (kFcmp_bit_of_ne s.status x y c hb h0 h5)
  · rw [if_pos ⟨compareInvalid_iff.2 hbad, hen⟩] at hout
    rw [hen, if_neg fun hinv => Bool.noConfusion hinv.2] at hV
    exact ⟨hout, hV⟩
  · rw [hen, if_neg fun hinv => Bool.noConfusion hinv.2] at hout
    rw [if_pos ⟨compareInvalid_iff.2 hbad, hen⟩] at hV
    exact ⟨hout, hV⟩
  · have hvalid : ¬ compareInvalid x y c = true := fun hinv => hok (compareInvalid_iff.1 hinv)
    rw [if_neg fun hinv => hvalid hinv.1] at hout hV
    exact ⟨hout, hV⟩

/-! ## FTEST and XMPYU (R229, R315) -/

theorem completesUnimplemented_of_exec {i : Instr} {s : State} (h : exec i s = .next s.unimplemented) :
    CompletesUnimplemented i s :=
  ⟨s.unimplemented, h, rfl, unimplemented_writesNothing s⟩

theorem exec_ftest_of_ne_zero (form : Form) {fmt : Fin 4} (h : fmt ≠ 0) (s : State) :
    exec (.ftest form fmt) s = .next s.unimplemented :=
  if_neg h

theorem exec_xmpyu_dbl (r1 r2 t : RegSel) (s : State) : exec (.xmpyu .dbl r1 r2 t) s = .next s.unimplemented :=
  ite_self (c := t.single = 0) _

theorem exec_xmpyu_sgl_odd (r1 r2 : RegSel) {t : RegSel} (hhalf : t.half = true) (s : State) :
    exec (.xmpyu .sgl r1 r2 t) s = .next s.unimplemented := by
  have hne : t.single ≠ 0 := fun h0 => Bool.noConfusion (hhalf.symm.trans (RegSel.single_eq_zero.1 h0).2)
  exact (if_neg hne).trans (if_pos hhalf)

/-- Settles O22: the half bit is the parity of XMPYU's destination index. -/
theorem ftestAndXmpyuForms : Obligations.FtestAndXmpyuForms := by
  refine ⟨fun s form fmt => ⟨?_, fun h => ?_⟩, fun s r1 r2 t => ⟨?_, fun hodd => ?_, fun heven hne => ?_, fun h0 => ?_⟩⟩
  · rintro rfl
    exact exec_ftest_sgl form s
  · exact completesUnimplemented_of_exec (exec_ftest_of_ne_zero form h s)
  · exact completesUnimplemented_of_exec (exec_xmpyu_dbl r1 r2 t s)
  · rw [RegSel.single_mod_two, Bool.toNat_eq_one] at hodd
    exact completesUnimplemented_of_exec (exec_xmpyu_sgl_odd r1 r2 hodd s)
  · rw [RegSel.single_mod_two, Bool.toNat_eq_zero] at heven
    exact exec_xmpyu_sgl_even r1 r2 heven (fun hfld => hne (RegSel.single_eq_zero.2 ⟨hfld, heven⟩)) s
  · exact destinationZeroIsUnimplemented (.xmpyu .sgl r1 r2 t) s (List.mem_singleton.2 h0.symm) rfl

end Machine

end Sys2Proof
end

section
/-! NONE slots and the slot types that end the run at once (60_exceptions.md R345, R347, R348). -/

namespace Sys2Proof.Machine

theorem visitSlot_of_type {p : QueueParams} {s : State} {k : Fin 64} {ty : ExcType} (hty : slotType p s k = ty)
    (hne : ty ≠ .unimplemented) : visitSlot p s k = settleSlot s k ty (slotInstr p s k) := by
  subst hty
  exact visitSlot_settle hne

/-- Settles O52: clearing writes the slot's word only. -/
theorem noneSlotIsCleared : Obligations.NoneSlotIsCleared := fun _ s k _ hty =>
  ⟨clearSlot s k, visitSlot_of_type hty (by decide), State.word_setWord_self s k 0,
    fun j hj => State.word_setWord_ne s k j 0 hj, rfl, rfl⟩

/-! ## Types that end the run at once -/

/-- The signal of a slot type that ends the run whatever the state (R345, R347). -/
def endingSignal : ExcType → Option Signal
  | .invalid => some .fltInv
  | .divByZero => some .fltDiv
  | .inexact => some .fltRes
  | .fma j => some (fmaSignal j)
  | .unrecognized => some .illCoproc
  | .none | .unimplemented | .overflow | .underflow | .overflowInexact | .underflowInexact => none

theorem settleSlot_of_endingSignal {ty : ExcType} {g : Signal} (h : endingSignal ty = some g) (s : State) (k : Fin 64)
    (iw : Word) : settleSlot s k ty iw = term s g := by
  cases ty with
  | invalid | divByZero | inexact | fma | unrecognized =>
    cases h
    rfl
  | none | unimplemented | overflow | underflow | overflowInexact | underflowInexact => cases h

/-- The value returned for such a type (R348). -/
def endingValue (ty : ExcType) : Option Word := (endingSignal ty).map fun g => Config.sigEncode g.sig g.code

/-- Settles O53: each row of the table is a type with its `endingValue`. -/
theorem terminalSlotsSignal : Obligations.TerminalSlotsSignal := by
  intro p s k ty n hty hmem
  have hvalue : endingValue ty = some n := by
    refine (?_ : ∀ row ∈ _, endingValue row.1 = some row.2) (ty, n) hmem
    decide
  obtain ⟨g, hg, rfl⟩ := Option.map_eq_some_iff.1 hvalue
  have hne : ty ≠ .unimplemented := by
    rintro rfl
    cases hg
  exact ⟨g, s.terminal g, (visitSlot_of_type hty hne).trans (settleSlot_of_endingSignal hg s k _),
    terminal_terminated s g, rfl⟩

end Sys2Proof.Machine
end

section
/-! Re-dispatched slots (60_exceptions.md R342): each answer of the dispatch, and the type a re-tag gives. -/

namespace Sys2Proof.Machine

theorem redispatchSlot_refused {p : QueueParams} {s : State} {k : Fin 64} {iw : Word} {r : Refusal}
    (h : dispatchWord iw (s.setT false) = .refused r) : redispatchSlot p s k iw = .stop (.refused r) := by
  rw [redispatchSlot, h]

/-- A second UNIMPLEMENTED is terminal. -/
theorem redispatchSlot_unimplemented {p : QueueParams} {s t : State} {k : Fin 64} {iw : Word}
    (h : dispatchWord iw (s.setT false) = .next t) (ho : t.returned = .outcome .unimplemented) :
    redispatchSlot p s k iw = .stop (.next (t.terminal .illCoproc)) := by
  have houtcome : t.outcome = .unimplemented := by rw [State.outcome, ho]
  simp only [redispatchSlot, h, if_pos houtcome, term]

/-- `TERM` sets T whatever it was before. -/
theorem Terminated.of_setT {s t u : State} {g : Signal} {v : Bool} (h : WritesNothing (s.setT v) t)
    (hu : Terminated t u g) : Terminated s u g where
  signal := hu.signal
  pending := hu.pending
  status b hb hne := by
    rw [hu.status b hb hne, State.status_eq t, h.words 0]
    exact bitAt_setT_ne s v hb hne
  words i hi := by rw [hu.words i hi, h.words i, State.word_setT_ne s i v hi]
  variant := hu.variant.trans h.variant
  calls := hu.calls.trans h.calls

/-- A re-tag keeps the exceptions of the outcome (R341). -/
theorem retagType_names {o : FpOutcome} {major : Nat} {ty : ExcType} (h : retagType o major = some ty) :
    (ty = .overflow ∨ ty = .overflowInexact → .O ∈ o.names) ∧
      (ty = .underflow ∨ ty = .underflowInexact → .U ∈ o.names) := by
  cases o
  all_goals grind [retagType, FpOutcome.names]

theorem enabledSignal_overflow {st : Word} {ty : ExcType} (hty : ty = .overflow ∨ ty = .overflowInexact)
    (h : enabled .O st = true) : enabledSignal st ty = some .fltOvf := by
  rcases hty with rfl | rfl <;> exact if_pos h

theorem enabledSignal_underflow {st : Word} {ty : ExcType} (hty : ty = .underflow ∨ ty = .underflowInexact)
    (h : enabled .U st = true) : enabledSignal st ty = some .fltUnd := by
  rcases hty with rfl | rfl <;> exact if_pos h

theorem enabledSignal_other (st : Word) {ty : ExcType}
    (h : ty ∉ [ExcType.overflow, .overflowInexact, .underflow, .underflowInexact]) : enabledSignal st ty = none := by
  cases ty with
  | overflow | overflowInexact | underflow | underflowInexact => exact absurd (by decide) h
  | none | unimplemented | invalid | divByZero | inexact | fma | unrecognized => rfl

/-- Settles O54: `redispatch_retag` gives the re-tagged slot; an OVERFLOW or UNDERFLOW type there has its trap enabled
(`dispatch_reports`), so `settleRetagged` ends the run. -/
theorem unimplementedSlotIsRedispatched : Obligations.UnimplementedSlotIsRedispatched := by
  intro p hp s k hk hty
  rw [visitSlot_redispatch hty]
  refine ⟨fun r hr => redispatchSlot_refused hr, fun t ht ho => ?_, ?_⟩
  · exact ⟨_, redispatchSlot_unimplemented ht ho,
      .of_setT (unimplementedWritesNothing _ _ t ht ho) (terminal_terminated t .illCoproc)⟩
  · intro t o ht ho hne t'
    obtain ⟨ty, hretag, hne', hvisit⟩ := redispatch_retag hp ht ho hne
    have hread : p.slotUnpack (t'.word k) = (p.codeOf o (majorOf (slotInstr p s k)), slotInstr p s k) :=
      retag_reads hp s t k o
    have hinstr : slotInstr p t' k = slotInstr p s k := by rw [slotInstr, hread]
    have htype : slotType p t' k = ty := by rw [slotType, hread, hp.retag_type _ _ _ hretag]
    have hstatus : t'.status = t.status := State.word_setWord_ne t k 0 _ (Ne.symm hk.ne_zero)
    have hreports {e : Exc} (he : e ∈ o.names) : enabled e t'.status = true := hstatus ▸ (dispatch_reports ht ho he).2
    obtain ⟨hO, hU⟩ := retagType_names hretag
    rw [hvisit]
    refine ⟨hinstr, ty, hretag, htype, fun h => ?_, fun h => ?_, fun h => ?_⟩
    · exact ⟨_, settleRetagged_some (enabledSignal_overflow h (hreports (hO h))) k _, terminal_terminated t' .fltOvf⟩
    · exact ⟨_, settleRetagged_some (enabledSignal_underflow h (hreports (hU h))) k _, terminal_terminated t' .fltUnd⟩
    · rw [settleRetagged_none (enabledSignal_other _ h), visitSlot_of_type htype hne', hinstr]

end Sys2Proof.Machine
end

section
/-! Captured UNDERFLOW and OVERFLOW slots (60_exceptions.md R343, R344, R346): what a substitution leaves and
how it ends. -/

namespace Sys2Proof.Machine

/-! ## Substitution -/

/-- The state after a substituted value is delivered to the slot's destination and its exception's flag raised. -/
def State.substituted (s : State) (F : Fmt) (d : Fin 64) (v : Enc F) (e : Exc) : State :=
  (s.write F d v).setStatus (raiseFlag e (s.write F d v).status)

section Substituted
variable {s : State} {F : Fmt} {d k : Fin 64} {v : Enc F} {e : Exc} (hd : dataIndex F d)

theorem State.word_substituted_ne {j : Fin 64} (h0 : j ≠ 0) (hj : j ∉ operandWords F d) :
    (s.substituted F d v e).word j = s.word j :=
  (State.word_setStatus_ne _ j _ h0).trans (State.word_write_of_notMem s F d j v hj)

theorem word_clearSlot_ne {j : Fin 64} (hj : j ≠ k) : (clearSlot s k).word j = s.word j :=
  State.word_setWord_ne s k j 0 hj

include hd

theorem State.status_substituted : (s.substituted F d v e).status = raiseFlag e s.status := by
  rw [State.substituted, State.status_setStatus, State.status_write_of hd]

theorem State.read_substituted : (s.substituted F d v e).read F d = v := by
  rw [State.substituted, State.read_raise hd, State.read_write_self]

/-- An exact substitution writes the destination and clears the slot, and that is all. -/
theorem clearSlot_write_leaves (hk : isSlot k) : (clearSlot (s.write F d v) k).status = s.status ∧
    (clearSlot (s.write F d v) k).word k = 0 ∧ (clearSlot (s.write F d v) k).read F d = v ∧
    ∀ j, j ≠ k → j ∉ operandWords F d → (clearSlot (s.write F d v) k).word j = s.word j := by
  refine ⟨?_, State.word_setWord_self _ k 0, ?_, fun j hjk hj => ?_⟩
  · rw [status_clearSlot hk, State.status_write_of hd]
  · rw [read_clearSlot hd hk, State.read_write_self]
  · rw [word_clearSlot_ne hjk, State.word_write_of_notMem s F d j v hj]

/-- With the inexact trap disabled an inexact substitution also raises I, and the decoder goes on. -/
theorem slotInexact_substituted_off (hk : isSlot k) (hI : enabled .I s.status = false) :
    ∃ t, slotInexact (s.substituted F d v e) k = .proceed t ∧ t.status = raiseFlag .I (raiseFlag e s.status) ∧
      t.word k = 0 ∧ t.read F d = v ∧ ∀ j, j ≠ 0 → j ≠ k → j ∉ operandWords F d → t.word j = s.word j := by
  refine ⟨_, slotInexact_off ?_, ?_, State.word_setWord_self _ k 0, ?_, fun j h0 hjk hj => ?_⟩
  · rw [State.status_substituted hd, enabled_raiseFlag, hI]
  · rw [status_clearSlot hk, State.status_setStatus, State.status_substituted hd]
  · rw [read_clearSlot hd hk, State.read_raise hd, State.read_substituted hd]
  · rw [word_clearSlot_ne hjk, State.word_setStatus_ne _ j _ h0, State.word_substituted_ne h0 hj]

/-- With the inexact trap enabled an inexact substitution ends the run with FPE_FLTRES. -/
theorem slotInexact_substituted_on (hI : enabled .I s.status = true) :
    ∃ t, slotInexact (s.substituted F d v e) k = .stop (.next t) ∧ t.returned = .signal 0x08000006#32 ∧
      t.status = putBit tBit true (raiseFlag e s.status) ∧ t.read F d = v ∧
      ∀ j, j ≠ 0 → j ∉ operandWords F d → t.word j = s.word j := by
  refine ⟨_, slotInexact_on ?_, rfl, ?_, ?_, fun j h0 hj => ?_⟩
  · rw [State.status_substituted hd, enabled_raiseFlag, hI]
  · rw [State.status_terminal, State.status_substituted hd]
  · rw [read_terminal _ hd, State.read_substituted hd]
  · rw [State.word_terminal_ne _ j _ h0, State.word_substituted_ne h0 hj]

end Substituted

/-! ## UNDERFLOW (R343) -/

theorem visitSlot_underflow {p : QueueParams} {s : State} {k : Fin 64}
    (hty : slotType p s k = .underflow ∨ slotType p s k = .underflowInexact) :
    visitSlot p s k = underflowSlot s k (slotInstr p s k) :=
  hty.elim (visitSlot_of_type · (by decide)) (visitSlot_of_type · (by decide))

theorem underflowValue_iff {F : Fmt} {w : Enc F} : underflowValue F w = true ↔
    isFinite w = true ∧ isZero w = false ∧ |val w| < pow2 (F.emin + Config.wrap F) := by
  rw [abs_val, underflowValue, Bool.and_eq_true, Bool.and_eq_true, decide_eq_true_eq, Bool.not_eq_true', and_assoc]

section Underflow
variable {s : State} {k i : Fin 64} {F : Fmt} {iw : Word} (hdest : slotDest s.variant iw = some (i, F))
include hdest

theorem underflowSlot_implausible (hw : underflowValue F (s.read F i) = false) :
    underflowSlot s k iw = .stop (.refused .slotValue) := by
  rw [underflowSlot, withCaptured_some hdest, if_neg (Bool.not_eq_true _ ▸ hw)]

theorem underflowSlot_trapped (hw : underflowValue F (s.read F i) = true) (hU : enabled .U s.status = true) :
    underflowSlot s k iw = .stop (.next (s.terminal .fltUnd)) := by
  rw [underflowSlot, withCaptured_some hdest, if_pos hw, if_pos hU, term]

/-- Untrapped: the unwrapped magnitude, rounded to the subnormal quantum, is delivered with the captured sign. -/
theorem underflowSlot_untrapped (hw : underflowValue F (s.read F i) = true) (hU : enabled .U s.status = false) {d : ℚ}
    (hd : IsRounding (rmOf s.status) (signOf (s.read F i)) (F.emin - F.prec + 1)
      (|val (s.read F i)| * pow2 (-(Config.wrap F : Int)) : ℚ) d) :
    underflowSlot s k iw =
      if d = |val (s.read F i)| * pow2 (-(Config.wrap F : Int)) then
        .proceed (clearSlot (s.write F i (enc F (signOf (s.read F i)) d)) k)
      else slotInexact (s.substituted F i (enc F (signOf (s.read F i)) d) .U) k := by
  rw [underflowSlot, withCaptured_some hdest, if_pos hw, hU, ← abs_val,
    roundmag_of_isRounding (mul_nonneg (abs_nonneg _) (pow2_pos _).le) hd]
  simp only [Bool.false_eq_true, if_false, decide_eq_true_eq, ite_not, State.substituted]

end Underflow

/-- Settles O55: the captured value decides refusal; then U's enable; then whether the rounding is exact. -/
theorem underflowSlotDenormalizes : Obligations.UnderflowSlotDenormalizes := by
  intro p s k hk hty
  rw [visitSlot_underflow hty]
  refine ⟨fun hnone => withCaptured_none hnone _ _, fun i F hdest => ?_⟩
  have hdata := slotDest_some hdest
  simp only [← underflowValue_iff, Bool.not_eq_true]
  refine ⟨underflowSlot_implausible hdest,
    fun hw hU => ⟨_, underflowSlot_trapped hdest hw hU, terminal_terminated s .fltUnd⟩, fun hw hU d hd => ?_⟩
  rw [underflowSlot_untrapped hdest hw hU hd]
  refine ⟨fun hexact => ?_, fun hinexact hI => ?_, fun hinexact hI => ?_⟩
  · rw [if_pos hexact]
    exact ⟨_, rfl, clearSlot_write_leaves hdata hk⟩
  · rw [if_neg hinexact]
    exact slotInexact_substituted_off hdata hk hI
  · rw [if_neg hinexact]
    exact slotInexact_substituted_on hdata hI

/-! ## OVERFLOW (R344) -/

theorem visitSlot_overflow {p : QueueParams} {s : State} {k : Fin 64}
    (hty : slotType p s k = .overflow ∨ slotType p s k = .overflowInexact) :
    visitSlot p s k = overflowSlot s k (slotInstr p s k) :=
  hty.elim (visitSlot_of_type · (by decide)) (visitSlot_of_type · (by decide))

section Overflow
variable {s : State} {k i : Fin 64} {F : Fmt} {iw : Word} (hdest : slotDest s.variant iw = some (i, F))
include hdest

theorem overflowSlot_of_isNaN (hnan : isNaN (s.read F i) = true) :
    overflowSlot s k iw = .stop (.refused .slotValue) := by
  rw [overflowSlot, withCaptured_some hdest, overflowValue, hnan]
  rfl

/-- A captured value other than a NaN goes on to the trap enable. -/
theorem overflowSlot_of_not_isNaN (hnan : isNaN (s.read F i) = false) : overflowSlot s k iw =
    if enabled .O s.status then term s .fltOvf
    else slotInexact (s.substituted F i (ovfDefault F (signOf (s.read F i)) (rmOf s.status)) .O) k := by
  rw [overflowSlot, withCaptured_some hdest, overflowValue, hnan]
  rfl

end Overflow

/-- Settles O56: the captured value decides refusal; then O's enable; the substitution is always inexact. -/
theorem overflowSlotSubstitutes : Obligations.OverflowSlotSubstitutes := by
  intro p s k hk hty
  rw [visitSlot_overflow hty]
  refine ⟨fun hnone => withCaptured_none hnone _ _, fun i F hdest => ⟨overflowSlot_of_isNaN hdest, fun hnan hO => ?_,
    fun hnan hO => ?_⟩⟩
  · rw [overflowSlot_of_not_isNaN hdest hnan, if_pos hO]
    exact ⟨_, rfl, terminal_terminated s .fltOvf⟩
  · have hdata := slotDest_some hdest
    rw [overflowSlot_of_not_isNaN hdest hnan, hO]
    exact ⟨slotInexact_substituted_off hdata hk, slotInexact_substituted_on hdata⟩

end Sys2Proof.Machine
end

section
/-! The destination of a slot's instruction (60_exceptions.md R346), read off `floatDestOf` and the word's class. -/

namespace Sys2Proof.Machine

theorem slotDest_of_ok {v : Variant} {w : Word} {i : Instr} (h : decode v w = .ok i) :
    slotDest v w = floatDestOf i := by
  rw [slotDest, h]

theorem floatDestOf_multi {sub : Bool} {w : Word} {i : Instr} (h : decodeMulti sub w = .ok i) :
    floatDestOf i = none := by
  cases h
  cases sub <;> rfl

theorem floatDestOf_compare {form : Form} {w : Word} {i : Instr} (h : decodeCompare form w = .ok i) :
    floatDestOf i = none := by
  obtain ⟨F, -, rfl⟩ := except_map_ok h
  rfl

theorem floatDestOf_test {form : Form} {w : Word} {i : Instr} (h : decodeTest form w = .ok i) :
    floatDestOf i = none := by
  cases h
  rfl

/-- Class 2 is FCMP and FTEST (R311). -/
theorem floatDestOf_class2 {v : Variant} {form : Form} {w : Word} {i : Instr} (h : decodeClass2 v form w = .ok i) :
    floatDestOf i = none := by
  cases v with
  | pa20 =>
    rw [decodeClass2] at h
    split at h
    · exact floatDestOf_test h
    · exact floatDestOf_compare h
  | pa11 =>
    rw [decodeClass2] at h
    split at h
    · exact floatDestOf_compare h
    · exact floatDestOf_test h
    · cases h

/-- The multiple instructions and class 2 have no single float destination. -/
theorem floatDestOf_of_field {v : Variant} {w : Word} {i : Instr} (h : decode v w = .ok i)
    (hw : field w 0 5 = 0x06 ∨ field w 0 5 = 0x26 ∨
      ((field w 0 5 = 0x0C ∨ field w 0 5 = 0x0E) ∧ field w 21 22 = 2)) : floatDestOf i = none := by
  have hfid {n : Nat} (hop : field w 0 5 = n) (hn : n ≠ 0x0C) : w ≠ 0x30000000#32 :=
    ne_fid_of_field (a := 0) (b := 5) (hop.trans_ne hn)
  have hclass2 {form : Form} (hop : field w 0 5 = form.code) (hcls : field w 21 22 = 2) : floatDestOf i = none :=
    have hne : w ≠ 0x30000000#32 := ne_fid_of_field (a := 21) (b := 22) (hcls.trans_ne (by decide))
    floatDestOf_class2 (decodeClass2_of_decode hne hop h hcls)
  rcases hw with hop | hop | ⟨hop | hop, hcls⟩
  · rw [decode, if_neg (hfid hop (by decide)), hop] at h
    exact floatDestOf_multi h
  · rw [decode, if_neg (hfid hop (by decide)), hop] at h
    exact floatDestOf_multi h
  · exact hclass2 (form := .op0C) hop hcls
  · exact hclass2 (form := .op0E) hop hcls

/-- Settles O57: each clause is a row of `floatDestOf`, the fourth through the word's fields. -/
theorem slotDestinationRule : Obligations.SlotDestinationRule := by
  intro v w i h
  rw [slotDest_of_ok h]
  refine ⟨fun d F hdest => ?_, fun form F r1 r2 t d hd hi => ?_, fun F a b c t d hd hi => ?_, floatDestOf_of_field h,
    fun form sf df r t hi => ?_⟩
  · obtain ⟨hdata, hwrites⟩ := floatDestOf_some hdest
    exact ⟨hwrites, hdata.1⟩
  · rw [← floatDst_word hd]
    rcases hi with rfl | rfl | rfl | rfl | rfl | rfl | rfl | rfl | rfl | rfl | rfl | ⟨sf, rfl | rfl⟩ | ⟨rfl, rfl⟩ |
      ⟨rfl, rfl⟩
    all_goals rfl
  · rw [← floatDst_word hd]
    rcases hi with rfl | rfl
    all_goals rfl
  · rcases hi with rfl | rfl | rfl | rfl
    all_goals rfl

end Sys2Proof.Machine
end

section
/-! The whole run of the decoder (60_exceptions.md R340, R350, R361), read off `decodeQueue_end`. -/

namespace Sys2Proof.Machine

/-- Settles O58: the two ends of a run that answers a state. -/
theorem queueEndsCleanOrTerminal : Obligations.QueueEndsCleanOrTerminal := by
  intro p hp s t h
  have hend := decodeQueue_end hp s
  rw [h] at hend
  cases hend with
  | drained s' _ _ hcleared =>
    refine .inl ⟨rfl, ?_, fun k hk => ?_⟩
    · rw [State.status_drained, bitAt_putBit_self _ _ _ (by decide)]
    · rw [State.word_drained_ne s' k hk.ne_zero, hcleared k (mem_slotOrder.2 hk)]
  | signaled s' g => exact .inr ⟨(terminal_terminated s' g).pending, g, (terminal_terminated s' g).signal⟩

/-- A slot lies before, at or after the slot at which the list of slots is cut, by its number. -/
theorem slotOrder_split {done rest : List (Fin 64)} {k : Fin 64} (h : slotOrder = done ++ k :: rest) {j : Fin 64}
    (hj : isSlot j) : j ∈ done ↔ j < k := by
  have hsorted : slotOrder.Pairwise (· < ·) := by decide
  rw [h, List.pairwise_append, List.pairwise_cons] at hsorted
  obtain ⟨-, ⟨hrest, -⟩, hdone⟩ := hsorted
  refine ⟨fun hm => hdone j hm k List.mem_cons_self, fun hlt => ?_⟩
  have hmem : j ∈ done ++ k :: rest := h ▸ mem_slotOrder.2 hj
  rw [List.mem_append, List.mem_cons] at hmem
  obtain hm | rfl | hm := hmem
  · exact hm
  · exact absurd hlt (lt_irrefl j)
  · exact absurd hlt (hrest j hm).not_gt

/-- Settles O59: the run stopped at a slot, and the slots done by then are those below it. -/
theorem firstTerminalSlotDecides : Obligations.FirstTerminalSlotDecides := by
  intro p hp s t h hT
  have hend := decodeQueue_end hp s
  rw [h] at hend
  cases hend with
  | drained s' =>
    rw [State.status_drained, bitAt_putBit_self _ _ _ (by decide)] at hT
    cases hT
  | signaled s' g _ _ done k rest hsplit hcleared hslots atK hstopped hkept =>
    have hk : isSlot k := mem_slotOrder.1 (by rw [hsplit]; simp)
    refine ⟨k, atK, hk, hstopped, fun j hj hkj => ?_, fun j hj hjk => ?_, fun j hj hkj => ?_⟩
    · exact hkept j hj fun hm => ((slotOrder_split hsplit hj).1 hm).not_ge hkj
    · rw [State.word_terminal_ne s' j g hj.ne_zero, hcleared j ((slotOrder_split hsplit hj).2 hjk)]
    · rw [State.word_terminal_ne s' j g hj.ne_zero,
        hslots j hj (fun hm => ((slotOrder_split hsplit hj).1 hm).not_gt hkj) hkj.ne']

theorem decodeQueue_safe {p : QueueParams} (hp : p.Lawful) (s : State) : Safe (decodeQueue p s) := by
  intro f hf
  have hend := decodeQueue_end hp s
  rw [hf] at hend
  cases hend

theorem runCall_safe (c : Call) (s : State) : Safe (runCall c s) := by
  cases c with
  | dispatch w => exact dispatch_no_fault w s
  | decodeQueue => exact decodeQueue_safe Config.queue.property s

theorem step_safe (s : State) : Safe (step s) := by
  cases hcalls : s.calls with
  | nil =>
    intro f hf
    rw [step_of_no_calls hcalls] at hf
    cases hf
  | cons c rest =>
    rw [step_of_calls hcalls]
    exact runCall_safe c _

/-- Settles O60: no end of a run is a fault (`decodeQueue_end`), and no arm of `exec` is one. -/
theorem nothingFaults : Obligations.NothingFaults := ⟨fun _ hp s => decodeQueue_safe hp s, exec_no_fault, step_safe⟩

end Sys2Proof.Machine
end
